-- ==== Sys2Proof/Word.lean ====
section
/-! DEFINITION. The word types of the command port: 32-bit command words and bytes (30_encoding.md R60, R62). -/

namespace Sys2Proof

/-- One word of a command packet or one response record (30_encoding.md R60, R70). -/
abbrev Word := BitVec 32

/-- One byte: a character code, an opcode, a byte on the serial bus, a segment pattern. -/
abbrev Byte := BitVec 8

end Sys2Proof
end

