-- ==== Sys2Proof/Config.lean ====
section
/-! DEFINITION. What an implementation fixes (00_scope.md R5): the source's constants, the type of the
parameters, and the values the spec leaves free, each an opaque constant without a body. -/

namespace Sys2Proof

/-- An LED record, 29 bits in four fields (10_state.md R14). -/
structure LedRecord where
  brightness : BitVec 5
  blue : Byte
  green : Byte
  red : Byte
  deriving DecidableEq, Repr, Inhabited

/-- A colour, the source's `(r, g, b : uint8)` (40_color_wheel.md R85). -/
structure Rgb where
  red : Byte
  green : Byte
  blue : Byte
  deriving DecidableEq, Repr, Inhabited

/-- How the hue function is built (00_scope.md R5 `HUE_IMPL`); not semantic (40_color_wheel.md R89). -/
inductive HueImpl where
  | lut
  | logic
  deriving DecidableEq, Repr, Inhabited

/-- The collaborator's answer to an event (60_exceptions.md R160). -/
inductive Answer where
  | done
  | fail
  deriving DecidableEq, Repr, Inhabited

/-- The parameters an implementation fixes and the model takes as arguments (00_scope.md R5, log entry 1). -/
structure Params where
  /-- `LED_COUNT_MAX`, an integer of at least 73. -/
  ledCountMax : Nat
  /-- `GLOBAL_BRIGHTNESS`, a constant and no register (10_state.md R15). -/
  globalBrightness : BitVec 5
  /-- `INIT_RECORD`, the source's "starting color". -/
  initRecord : LedRecord
  /-- `SEG_TABLE`, the segment ROM as pairs of a folded character code and its pattern (20_memory.md R42). -/
  segTable : List (Byte × Byte)
  /-- `ALLON_CHAR`, the code of the "all segments on" marker (30_encoding.md R77). -/
  allonChar : Byte
  /-- `TICK_HZ`; read only by the host's unit conversions (30_encoding.md R76). -/
  tickHz : Nat
  /-- `T_PIN`, ticks one `Pin` or `PinDir` event takes (60_exceptions.md R173). -/
  tPin : Nat
  /-- `T_BYTE`, ticks one `Byte` or bus-configuration event takes (60_exceptions.md R173). -/
  tByte : Nat
  /-- `SPI_MODE`, an integer 0 to 3. -/
  spiMode : Fin 4
  /-- `SPI_MSB_FIRST`. -/
  spiMsbFirst : Bool
  /-- `SPI_HZ`. -/
  spiHz : Nat
  /-- `HUE_IMPL`. -/
  hueImpl : HueImpl
  deriving DecidableEq, Repr, Inhabited

namespace Config

/-- `HUE_STEPS` (00_scope.md R5, source). -/
abbrev hueSteps : Nat := 1536
/-- `HUE_INC` (00_scope.md R5, source). -/
abbrev hueInc : Nat := 6
/-- `WRAP_ADVANCE` (00_scope.md R5, source). -/
abbrev wrapAdvance : Nat := 0
/-- `WRAP_SCROLL` (00_scope.md R5, source; not to be unified with `WRAP_ADVANCE`, U2). -/
abbrev wrapScroll : Nat := 6
/-- `LED_COUNT_DEFAULT` (00_scope.md R5, source). -/
abbrev ledCountDefault : Nat := 73
/-- `STR_MAX` (00_scope.md R5, 30_encoding.md R65). -/
abbrev strMax : Nat := 255

/-- The channel outputs of the hue function's port while `hue_err` = 1: "unspecified (any value; a
model must not give them a value a proof could use)" (40_color_wheel.md R91; log entry 6). -/
opaque freeHueRgb : BitVec 11 → Rgb

/-- What a strip buffer record holds that nothing has initialised: "unspecified" (10_state.md R14, U9;
log entry 5). -/
opaque freeRecord : Nat → LedRecord

/-- The environment's answer to the event of that number, where the state lists no answer: "the
environment chooses done or fail, under no law" (60_exceptions.md R160; log entry 3). -/
opaque freeAnswer : Nat → Answer

/-- The level of a line after a failed event of that number on it: "unspecified from then on"
(60_exceptions.md R160; log entry 4). -/
opaque freeLevel : Nat → Bool

/-- The `PIN_OE` bit of a line after a failed `PinDir` event of that number: "unspecified from then
on" (60_exceptions.md R160; log entry 4). -/
opaque freeOe : Nat → Bool

end Config

end Sys2Proof
end

