-- ==== Sys2Proof/Syntax.lean ====
section
/-! DEFINITION. The thirteen commands of 30_encoding.md R66, with their operands as the decoder reads
them. -/

namespace Sys2Proof

/-- A decoded command. `int32` operands keep the whole word; their signed value is read where the
command's rule uses it (30_encoding.md R62, R72). -/
inductive Instr where
  /-- `HUE2RGB hue` (40_color_wheel.md R90). -/
  | hue2rgb (hue : Word)
  /-- `CONFIGURE led_count`, or `CONFIGURE default` with `df` (41_led_strip.md R95). -/
  | configure (df : Bool) (ledCount : Word)
  /-- `SET index, w`: the packed LED word is kept whole, the mask is SET's (41_led_strip.md R99, U15). -/
  | set (index : Word) (led : Word)
  /-- `ADVANCE` (41_led_strip.md R103). -/
  | advance
  /-- `SCROLL` (41_led_strip.md R106). -/
  | scroll
  /-- `RENDER` (41_led_strip.md R109). -/
  | render
  /-- `SEGCFG defdelay` (42_seven_segment.md R115). -/
  | segcfg (defdelay : Word)
  /-- `WRITE value` (42_seven_segment.md R119). -/
  | write (value : Word)
  /-- `CLEAR` (42_seven_segment.md R121). -/
  | clear
  /-- `PUTC char, delay` (42_seven_segment.md R123). -/
  | putc (char : Byte) (delay : Word)
  /-- `PUTS string, delay`, or `PUTS string` with `df` (42_seven_segment.md R126). -/
  | puts (df : Bool) (delay : Word) (chars : List Byte)
  /-- `BLINKC char, period, duty_q, cycles` (43_blink.md R144). -/
  | blinkc (char : Byte) (period dutyQ cycles : Word)
  /-- `BLINK char, period, duty_q, elapse` (43_blink.md R146). -/
  | blink (char : Byte) (period dutyQ elapse : Word)
  deriving DecidableEq, Repr, Inhabited

end Sys2Proof
end

