-- ==== Sys2Proof/WellFormed.lean ====
section
/-! DEFINITION. Which commands have a packet: the operands the encoding can carry. -/

namespace Sys2Proof

/-- With `DF` = 1 operand word 1 is 0 (30_encoding.md R63, R68 step 6). -/
def defaultOperandOk (df : Bool) (w : Word) : Bool := !df || w == 0

/-- `LEN` is the 8-bit `A` field, 0 to `STR_MAX` (30_encoding.md R65). -/
def stringLengthOk (chars : List Byte) : Bool := decide (chars.length ≤ Config.strMax)

/-- The commands that have an encoding. -/
def Instr.wellFormed : Instr → Bool
  | .hue2rgb _ => true
  | .configure df n => defaultOperandOk df n
  | .set _ _ => true
  | .advance => true
  | .scroll => true
  | .render => true
  | .segcfg _ => true
  | .write _ => true
  | .clear => true
  | .putc _ _ => true
  | .puts df d cs => defaultOperandOk df d && stringLengthOk cs
  | .blinkc _ _ _ _ => true
  | .blink _ _ _ _ => true

end Sys2Proof
end

