-- ==== Sys2Proof/Decode.lean ====
section
/-! DEFINITION. The command encoding of 30_encoding.md: header fields, opcode map, packet lengths,
the decoder (total, rejecting by name) and after it the encoder, and the byte channel of 20_memory.md
R45. -/

namespace Sys2Proof

/-! ## The header word (R61) -/

/-- `OP`, bits [7:0]. -/
def headerOp (h : Word) : Byte := h.extractLsb' 0 8
/-- `A`, bits [15:8]. -/
def headerA (h : Word) : Byte := h.extractLsb' 8 8
/-- `DF`, bit [16]. -/
def headerDf (h : Word) : Bool := h.getLsbD 16
/-- The reserved bits [31:17]. -/
def headerReserved (h : Word) : BitVec 15 := h.extractLsb' 17 15

/-- The header word with the fields of R61 and the reserved bits 0. -/
def headerWord (op a : Byte) (df : Bool) : Word :=
  (0#15 ++ BitVec.ofBool df ++ a ++ op : BitVec 32)

/-! ## Opcodes and formats (R63, R66) -/

/-- The thirteen opcodes by name. -/
inductive Op where
  | hue2rgb | configure | set | advance | scroll | render | segcfg | write | clear | putc | puts
  | blinkc | blink
  deriving DecidableEq, Repr, Inhabited

/-- The packet formats of R63. -/
inductive Format where
  | Z | I | N | U | P | C | S | B
  deriving DecidableEq, Repr, Inhabited

/-- The opcode map of R66, from a command to its `OP` value. -/
def Op.code : Op → Byte
  | .hue2rgb => 0x01
  | .configure => 0x10
  | .set => 0x11
  | .advance => 0x12
  | .scroll => 0x13
  | .render => 0x14
  | .segcfg => 0x20
  | .write => 0x21
  | .clear => 0x22
  | .putc => 0x23
  | .puts => 0x24
  | .blinkc => 0x30
  | .blink => 0x31

/-- All thirteen, in R66's order. -/
def Op.all : List Op :=
  [.hue2rgb, .configure, .set, .advance, .scroll, .render, .segcfg, .write, .clear, .putc, .puts,
   .blinkc, .blink]

/-- The command an `OP` value names; none for the reserved values (R66). -/
def opOfCode (b : Byte) : Option Op := Op.all.find? (fun o => o.code == b)

/-- The format column of R66. -/
def Op.format : Op → Format
  | .hue2rgb => .I
  | .configure => .N
  | .set => .P
  | .advance => .Z
  | .scroll => .Z
  | .render => .Z
  | .segcfg => .U
  | .write => .I
  | .clear => .Z
  | .putc => .C
  | .puts => .S
  | .blinkc => .B
  | .blink => .B

/-- The formats whose `A` field must be 0 (R68 step 3). -/
def Format.aMustBeZero : Format → Bool
  | .Z => true
  | .I => true
  | .N => true
  | .U => true
  | .P => true
  | .C => false
  | .S => false
  | .B => false

/-- `DF` = 1 is allowed only for `CONFIGURE` and `PUTS` (R61, R68 step 4). -/
def Op.dfAllowed : Op → Bool
  | .configure => true
  | .puts => true
  | _ => false

/-- The length of a packet in words, a function of the format and of `A` (R63, R67). -/
def Format.words (f : Format) (a : Byte) : Nat :=
  match f with
  | .Z => 1
  | .I => 2
  | .N => 2
  | .U => 2
  | .P => 3
  | .C => 2
  | .S => 2 + (a.toNat + 3) / 4
  | .B => 4

/-- The length R67 gives a packet with this header. For a reserved opcode, which no length belongs
to, the header alone. -/
def packetLength (h : Word) : Nat :=
  match opOfCode (headerOp h) with
  | some op => op.format.words (headerA h)
  | none => 1

/-! ## Bytes and words (R45, R65) -/

/-- The four bytes of a word, bits [7:0] first (20_memory.md R45). -/
def wordBytes (w : Word) : List Byte :=
  [w.extractLsb' 0 8, w.extractLsb' 8 8, w.extractLsb' 16 8, w.extractLsb' 24 8]

/-- The word of four bytes, the first in bits [7:0]. -/
def wordOfBytes (b0 b1 b2 b3 : Byte) : Word := (b3 ++ b2 ++ b1 ++ b0 : BitVec 32)

/-- A packet's bytes on a byte channel. -/
def bytesOfWords (ws : List Word) : List Byte := ws.flatMap wordBytes

/-- Bytes packed four to a word, low byte first, the unused high bytes of the last word 0 (R65). -/
def packBytes : List Byte → List Word
  | [] => []
  | [a] => [wordOfBytes a 0 0 0]
  | [a, b] => [wordOfBytes a b 0 0]
  | [a, b, c] => [wordOfBytes a b c 0]
  | a :: b :: c :: d :: rest => wordOfBytes a b c d :: packBytes rest

/-- The words a byte channel carried; none if it stopped inside a word (log entry 18). -/
def wordsOfBytes (bs : List Byte) : Option (List Word) :=
  if bs.length % 4 = 0 then some (packBytes bs) else none

/-- The `LEN` characters of a `PUTS` payload: character k is byte k mod 4 of payload word k div 4. -/
def payloadChars (len : Nat) (payload : List Word) : List Byte := (bytesOfWords payload).take len

/-- The unused high bytes of the last payload word are 0 (R65, R68 step 7). -/
def paddingZero (len : Nat) (payload : List Word) : Bool :=
  ((bytesOfWords payload).drop len).all (· == 0)

/-! ## The decoder (R68) -/

/-- Why a packet is `Illegal`: the steps of R68 by name. The block itself reports all of them as
`IllegalCommand` (R69). -/
inductive Illegal where
  /-- No word 0: such a packet cannot be sent (R60). -/
  | emptyPacket
  /-- Step 1. -/
  | reservedOpcode
  /-- Step 2. -/
  | reservedBits
  /-- Step 3. -/
  | aNotZero
  /-- Step 4. -/
  | dfNotAllowed
  /-- Step 5. -/
  | wrongLength
  /-- Step 6. -/
  | operandWithDefault
  /-- Step 7. -/
  | paddingNotZero
  deriving DecidableEq, Repr, Inhabited

/-- Step 8: the command with its operands read as R62 and R63 type them; `ws` are words 1 and up. -/
def readOperands (op : Op) (h : Word) (ws : List Word) : Instr :=
  match op with
  | .hue2rgb => .hue2rgb (ws.getD 0 0)
  | .configure => .configure (headerDf h) (ws.getD 0 0)
  | .set => .set (ws.getD 0 0) (ws.getD 1 0)
  | .advance => .advance
  | .scroll => .scroll
  | .render => .render
  | .segcfg => .segcfg (ws.getD 0 0)
  | .write => .write (ws.getD 0 0)
  | .clear => .clear
  | .putc => .putc (headerA h) (ws.getD 0 0)
  | .puts => .puts (headerDf h) (ws.getD 0 0) (payloadChars (headerA h).toNat (ws.drop 1))
  | .blinkc => .blinkc (headerA h) (ws.getD 0 0) (ws.getD 1 0) (ws.getD 2 0)
  | .blink => .blink (headerA h) (ws.getD 0 0) (ws.getD 1 0) (ws.getD 2 0)

/-- Decoding, the steps of R68 in order; total on every list of words. -/
def decode : List Word → Except Illegal Instr
  | [] => .error .emptyPacket
  | h :: ws =>
    match opOfCode (headerOp h) with
    | none => .error .reservedOpcode
    | some op =>
      if headerReserved h ≠ 0 then .error .reservedBits
      else if op.format.aMustBeZero = true ∧ headerA h ≠ 0 then .error .aNotZero
      else if headerDf h = true ∧ op.dfAllowed = false then .error .dfNotAllowed
      else if ws.length + 1 ≠ op.format.words (headerA h) then .error .wrongLength
      else if headerDf h = true ∧ ws.getD 0 0 ≠ 0 then .error .operandWithDefault
      else if op = .puts ∧ paddingZero (headerA h).toNat (ws.drop 1) = false then
        .error .paddingNotZero
      else .ok (readOperands op h ws)

/-- Decoding a packet that arrives over a byte channel (20_memory.md R45). -/
def decodeBytes (bs : List Byte) : Except Illegal Instr :=
  match wordsOfBytes bs with
  | some ws => decode ws
  | none => .error .wrongLength

/-! ## The encoder -/

/-- The opcode of a command. -/
def Instr.op : Instr → Op
  | .hue2rgb _ => .hue2rgb
  | .configure _ _ => .configure
  | .set _ _ => .set
  | .advance => .advance
  | .scroll => .scroll
  | .render => .render
  | .segcfg _ => .segcfg
  | .write _ => .write
  | .clear => .clear
  | .putc _ _ => .putc
  | .puts _ _ _ => .puts
  | .blinkc _ _ _ _ => .blinkc
  | .blink _ _ _ _ => .blink

/-- The packet of a command (R63, R66). -/
def encode : Instr → List Word
  | .hue2rgb hue => [headerWord Op.hue2rgb.code 0 false, hue]
  | .configure df n => [headerWord Op.configure.code 0 df, n]
  | .set index led => [headerWord Op.set.code 0 false, index, led]
  | .advance => [headerWord Op.advance.code 0 false]
  | .scroll => [headerWord Op.scroll.code 0 false]
  | .render => [headerWord Op.render.code 0 false]
  | .segcfg d => [headerWord Op.segcfg.code 0 false, d]
  | .write v => [headerWord Op.write.code 0 false, v]
  | .clear => [headerWord Op.clear.code 0 false]
  | .putc c d => [headerWord Op.putc.code c false, d]
  | .puts df d cs => headerWord Op.puts.code (BitVec.ofNat 8 cs.length) df :: d :: packBytes cs
  | .blinkc c p q n => [headerWord Op.blinkc.code c false, p, q, n]
  | .blink c p q e => [headerWord Op.blink.code c false, p, q, e]

/-! ## Words numbered as spec/opcode_table.json numbers them -/

/-- Word `k` of the number `w`, whose bit 0 is the least significant bit of word 0. -/
def tableWord (w k : Nat) : Word := BitVec.ofNat 32 (w >>> (32 * k))

/-- How many words the packet has: what its header says, or as many as `nbits` holds if that is more. -/
def tableLength (nbits w : Nat) : Nat := max (packetLength (tableWord w 0)) ((nbits + 31) / 32)

/-- The operand words of the packet, words 1 and up. -/
def tableOperands (nbits w : Nat) : List Word :=
  (List.range (tableLength nbits w - 1)).map (fun k => tableWord w (k + 1))

/-- The command the decoder reads from a packet whose bits are `w`, the bits above `nbits` being 0. -/
def decodeTableWord (nbits w : Nat) : Option Instr :=
  match decode (tableWord w 0 :: tableOperands nbits w) with
  | .ok i => some i
  | .error _ => none

end Sys2Proof
end

