-- ==== Sys2Proof/Machine/Defaults.lean ====
section
/-! DEFINITION. The default values of the implementation parameters (00_scope.md R5, 42_seven_segment.md
R117), and what R5, R116 and R117 require of any choice of them. -/

namespace Sys2Proof.Machine

/-- The upper-to-lower-case fold of 42_seven_segment.md R116. -/
def foldCase (c : Byte) : Byte :=
  if 0x41 ≤ c.toNat ∧ c.toNat ≤ 0x5A then c + 0x20 else c

/-- The default segment patterns of 42_seven_segment.md R117, keyed by the folded code. -/
def defaultSegTable : List (Byte × Byte) :=
  [(0x30, 0x3F), (0x31, 0x06), (0x32, 0x5B), (0x33, 0x4F), (0x34, 0x66),
   (0x35, 0x6D), (0x36, 0x7D), (0x37, 0x07), (0x38, 0x7F), (0x39, 0x6F)] ++
  [(0x61, 0x77), (0x62, 0x7C), (0x63, 0x39), (0x64, 0x5E), (0x65, 0x79), (0x66, 0x71)] ++
  [(0x20, 0x00), (0x2E, 0x80), (0x2A, 0xFF)]

/-- The eighteen character codes that every implementation's table has besides the "all segments on"
marker (42_seven_segment.md R116). -/
def fixedAlphabet : List Byte :=
  [0x30, 0x31, 0x32, 0x33, 0x34, 0x35, 0x36, 0x37, 0x38, 0x39] ++
  [0x61, 0x62, 0x63, 0x64, 0x65, 0x66] ++ [0x20, 0x2E]

/-- The nineteen codes of the table's domain (42_seven_segment.md R116). -/
def segAlphabet (p : Params) : List Byte := fixedAlphabet ++ [foldCase p.allonChar]

/-- The defaults of 00_scope.md R5. -/
def defaultParams : Params where
  ledCountMax := 1024
  globalBrightness := 31
  initRecord := ⟨0, 0, 0, 0⟩
  segTable := defaultSegTable
  allonChar := 0x2A
  tickHz := 1000
  tPin := 0
  tByte := 0
  spiMode := 0
  spiMsbFirst := true
  spiHz := 1000000
  hueImpl := .logic

/-- What the spec requires of the parameters: the ranges of 00_scope.md R5, the choice of `ALLON_CHAR`
of R116, a table with exactly the nineteen entries of R116 (20_memory.md R42) and the two constraints
of R117. No meaning tests it (log entry 15). -/
def paramsOk (p : Params) : Bool :=
  decide (73 ≤ p.ledCountMax) && decide (0 < p.tickHz) && decide (0 < p.spiHz) &&
  !fixedAlphabet.contains (foldCase p.allonChar) &&
  decide (p.segTable.length = 19) &&
  (segAlphabet p).all (fun c => (p.segTable.lookup c).isSome) &&
  p.segTable.lookup 0x20 == some 0x00 &&
  p.segTable.lookup (foldCase p.allonChar) == some 0xFF

end Sys2Proof.Machine
end

