-- ==== Sys2Proof/Machine/State.lean ====
section
/-! DEFINITION. The machine's state as plain data: everything 10_state.md gives the block, the
parameters of 00_scope.md R5, and beside them the model's own record of the outside world (the inputs
to come, the collaborator's answers, the trace and the responses sent). -/

namespace Sys2Proof.Machine

/-! ## Status -/

/-- The status codes of 60_exceptions.md R155; codes 6 and 7 are never produced. -/
inductive Code where
  /-- 0: the command did everything its rule says. -/
  | ok
  /-- 1: an operand out of range, or a character not in the table (R156). -/
  | invalidArgument
  /-- 2: reserved; no command raises it (R157). -/
  | typeConstraint
  /-- 3: the collaborator failed an event, now or earlier (R160, R161). -/
  | hardwareIO
  /-- 4: the unit was not configured (R158). -/
  | notConfigured
  /-- 5: the packet does not decode (R159). -/
  | illegalCommand
  deriving DecidableEq, Repr, Inhabited

/-- The fields of `STATUS` (10_state.md R17); bits [7:6] are always 0 and have no field (log entry 19). -/
structure Status where
  code : Code
  ledcfg : Bool
  segcfg : Bool
  fatal : Bool
  lastop : Byte
  deriving DecidableEq, Repr, Inhabited

/-! ## Events and the trace (00_scope.md R8) -/

/-- The four output lines. -/
inductive Line where
  | data
  | clock
  | latch
  | clear
  deriving DecidableEq, Repr, Inhabited

/-- One output event. -/
inductive Event where
  /-- `BusMode(m)`. -/
  | busMode (m : Fin 4)
  /-- `BusBitOrder(msb)`. -/
  | busBitOrder (msb : Bool)
  /-- `BusFreq(hz)`. -/
  | busFreq (hz : Nat)
  /-- `Byte(b)`. -/
  | byte (b : Byte)
  /-- `PinDir(line)`: the line becomes an output driven low. -/
  | pinDir (line : Line)
  /-- `Pin(line, level)`. -/
  | pin (line : Line) (level : Bool)
  /-- `Wait(d)`, d ticks. -/
  | wait (d : Nat)
  deriving DecidableEq, Repr, Inhabited

/-- An emitted event with the answer it got: a failed event stands in the trace "marked failed"
(60_exceptions.md R160). `Wait` cannot fail and is entered as done. -/
structure TraceEntry where
  event : Event
  answer : Answer
  deriving DecidableEq, Repr, Inhabited

/-! ## Inputs -/

/-- What the host does next, in the order in which it reaches the block (log entry 2). -/
inductive HostInput where
  /-- It lets this many ticks pass (60_exceptions.md R173: "an arbitrary amount >= 0"). -/
  | idle (ticks : Nat)
  /-- It sends a packet: word 0 and the words after it (30_encoding.md R60: never empty). -/
  | packet (header : Word) (operands : List Word)
  /-- It applies reset (70_reset_and_hazards.md R180: "at any time, including in the middle of a command"):
  at once to a READY block, and to a running command once that many more events have been emitted (log
  entry 8). -/
  | reset (events : Nat)
  deriving DecidableEq, Repr, Inhabited

/-! ## The blink state machine -/

/-- `BL_STATE` (10_state.md R23). -/
inductive BlinkState where
  | off
  | showing
  | idle
  deriving DecidableEq, Repr, Inhabited

/-- `BL_MODE` (10_state.md R24): 0 bounded by cycle count, 1 bounded by elapsed time. -/
inductive BlinkMode where
  | count
  | elapsed
  deriving DecidableEq, Repr, Inhabited

/-! ## The state -/

/-- The strip buffer's contents: pairs of record index and record, indices strictly rising
(20_memory.md R40; log entry 5). -/
abbrev Buffer := List (Nat × LedRecord)

structure State where
  /-- `READY` (R11). -/
  ready : Bool
  /-- `HUE` (R12). -/
  hue : BitVec 11
  /-- `LEDCNT` (R13). -/
  ledcnt : Nat
  /-- `BUF` (R14). -/
  buf : Buffer
  /-- `RES` (R16). -/
  res : BitVec 24
  /-- `STATUS` (R17). -/
  status : Status
  /-- `DEFDELAY` (R19). -/
  defdelay : BitVec 32
  /-- `PIN_DATA` (R20). -/
  pinData : Bool
  /-- `PIN_CLOCK` (R20). -/
  pinClock : Bool
  /-- `PIN_LATCH` (R20). -/
  pinLatch : Bool
  /-- `PIN_CLEAR` (R20). -/
  pinClear : Bool
  /-- `PIN_OE`, bits {CLEAR, LATCH, CLOCK, DATA} (R20). -/
  pinOe : BitVec 4
  /-- `TIME` (R22). -/
  time : BitVec 64
  /-- `BL_STATE` (R23). -/
  blState : BlinkState
  /-- `BL_MODE` (R24). -/
  blMode : BlinkMode
  /-- `BL_CHAR` (R25). -/
  blChar : Byte
  /-- `BL_SHOW` (R25). -/
  blShow : BitVec 31
  /-- `BL_IDLE` (R25). -/
  blIdle : BitVec 31
  /-- `BL_CNT` (R26). -/
  blCnt : BitVec 31
  /-- `BL_T0` (R27). -/
  blT0 : BitVec 64
  /-- `BL_ELAPSE` (R27). -/
  blElapse : BitVec 31
  /-- The events emitted since reset, oldest first (R31). -/
  trace : List TraceEntry
  /-- The response records sent, oldest first (30_encoding.md R70; log entry 12). -/
  responses : List Word
  /-- The implementation's parameters, changed by nothing (00_scope.md R5; log entry 1). -/
  params : Params
  /-- The model's own: the events that left the block before the last reset, oldest first; what a reset
  does not take back (70_reset_and_hazards.md R182; log entry 22). -/
  past : List TraceEntry
  /-- The model's own: what the host does from now on (log entry 2). -/
  inputs : List HostInput
  /-- The model's own: the collaborator's next answers; after them the free answers (log entry 3). -/
  answers : List Answer
  /-- The model's own: the number of the next answered event (log entries 3 and 4). -/
  freeIdx : Nat
  deriving DecidableEq, Repr

/-- Why the machine stops. -/
inductive Fault where
  /-- Raised by `step` when the block is BUSY and `BL_STATE` is OFF: the model cannot tell which
  command is running. No run from a state of the invariant reaches it (10_state.md R23). Safe: the
  model stops where it knows nothing (log entry 10). -/
  | busyWithoutBlink
  deriving DecidableEq, Repr

/-- Why a command has no meaning. -/
inductive Refusal where
  /-- For an arm of `exec` that is not modelled yet; every command is modelled, so nothing raises it.
  Safe. -/
  | notModelled (mnemonic : String)
  deriving DecidableEq, Repr

/-- `STATUS` after reset: 0x0000 (10_state.md R17). -/
def Status.reset : Status where
  code := .ok
  ledcfg := false
  segcfg := false
  fatal := false
  lastop := 0

/-- The block right after reset (10_state.md section 10, 70_reset_and_hazards.md R180), with the default
parameters, no input pending and no answer listed. -/
def State.reset : State where
  ready := true
  hue := 0
  ledcnt := 0
  buf := []
  res := 0
  status := Status.reset
  defdelay := 0
  pinData := false
  pinClock := false
  pinLatch := false
  pinClear := false
  pinOe := 0
  time := 0
  blState := .off
  blMode := .count
  blChar := 0
  blShow := 0
  blIdle := 0
  blCnt := 0
  blT0 := 0
  blElapse := 0
  trace := []
  responses := []
  params := defaultParams
  past := []
  inputs := []
  answers := []
  freeIdx := 0

end Sys2Proof.Machine
end

