-- ==== Sys2Proof/Machine/Operands.lean ====
section
/-! DEFINITION. Operand forms (30_encoding.md R62, R64, R72; 43_blink.md R135 to R138): the values the
commands read from their operand words, and the bit layouts of records and colours. -/

namespace Sys2Proof.Machine

/-- An `int32` operand: the two's-complement value of the whole word (R62, R72). -/
abbrev int32 (w : Word) : Int := w.toInt

/-- A `uint32` operand: the unsigned value of the whole word, in ticks (R62, R72). -/
abbrev uint32 (w : Word) : Nat := w.toNat

/-- The packed LED word of `SET`: bits [28:0] are the record, bits [31:29] are ignored (R64). -/
def ledOfWord (w : Word) : LedRecord where
  brightness := w.extractLsb' 24 5
  blue := w.extractLsb' 16 8
  green := w.extractLsb' 8 8
  red := w.extractLsb' 0 8

/-- The 29 bits of a record (10_state.md R14). -/
def recordBits (r : LedRecord) : BitVec 29 := (r.brightness ++ r.blue ++ r.green ++ r.red : BitVec 29)

/-- The 24 bits of a colour, red in [23:16] (10_state.md R16). -/
def rgbBits (c : Rgb) : BitVec 24 := (c.red ++ c.green ++ c.blue : BitVec 24)

/-- The record `{GLOBAL_BRIGHTNESS, b, g, r}` of `ADVANCE` and `SCROLL` (41_led_strip.md R103, R106). -/
def recordOfColour (brightness : BitVec 5) (c : Rgb) : LedRecord :=
  ⟨brightness, c.blue, c.green, c.red⟩

/-- The hue of `HUE2RGB` is in 0..1535 (40_color_wheel.md R90). -/
def hueOperandOk (w : Word) : Bool := decide (0 ≤ int32 w) && decide (int32 w < Config.hueSteps)

/-- The effective count of `CONFIGURE`: `LED_COUNT_DEFAULT` with `DF` (30_encoding.md R71). -/
def effectiveCount (df : Bool) (w : Word) : Int := if df then Config.ledCountDefault else int32 w

/-- The count is in 0..`LED_COUNT_MAX` (41_led_strip.md R95). -/
def countOk (p : Params) (n : Int) : Bool := decide (0 ≤ n) && decide (n ≤ p.ledCountMax)

/-- The index of `SET` is in 0..`LEDCNT` - 1 (41_led_strip.md R99). -/
def indexOk (ledcnt : Nat) (w : Word) : Bool := decide (0 ≤ int32 w) && decide (int32 w < ledcnt)

/-- The value of `WRITE` is in 0..255 (42_seven_segment.md R119). -/
def byteOperandOk (w : Word) : Bool := decide (0 ≤ int32 w) && decide (int32 w ≤ 255)

/-- `blink_validate` (43_blink.md R138); `last` is `cycles` or `elapse`. -/
def blinkOperandsOk (period dutyQ last : Word) : Bool :=
  decide (0 ≤ int32 period) && decide (0 ≤ int32 dutyQ) && decide (int32 dutyQ ≤ 65536) &&
  decide (0 ≤ int32 last)

/-- `show`, the lit part of a cycle in ticks (43_blink.md R137). -/
def showTicks (period dutyQ : Nat) : Nat := period * dutyQ / 65536

/-- `idle`, the dark part (43_blink.md R137). -/
def idleTicks (period dutyQ : Nat) : Nat := period - showTicks period dutyQ

end Sys2Proof.Machine
end

