-- ==== Sys2Proof/Machine/Flags.lean ====
section
/-! DEFINITION. The block's only flags: the bits of `STATUS` (10_state.md R17, R18), the tests that read
them (41_led_strip.md R97, 42_seven_segment.md R118), how a command's end writes them
(60_exceptions.md R162, R167), and the response word (30_encoding.md R70). -/

namespace Sys2Proof.Machine

/-- The number of a status code (60_exceptions.md R155). -/
def Code.bits : Code → BitVec 3
  | .ok => 0
  | .invalidArgument => 1
  | .typeConstraint => 2
  | .hardwareIO => 3
  | .notConfigured => 4
  | .illegalCommand => 5

/-- `STATUS` as its 16 bits (10_state.md R17). -/
def Status.word (t : Status) : BitVec 16 :=
  (t.lastop ++ 0#2 ++ BitVec.ofBool t.fatal ++ BitVec.ofBool t.segcfg ++ BitVec.ofBool t.ledcfg ++
    t.code.bits : BitVec 16)

/-- `BL_STATE` as its 2 bits (10_state.md R23). -/
def BlinkState.bits : BlinkState → BitVec 2
  | .off => 0
  | .showing => 1
  | .idle => 2

/-- `BL_MODE` as its bit (10_state.md R24). -/
def BlinkMode.bits : BlinkMode → BitVec 1
  | .count => 0
  | .elapsed => 1

/-- What the end of a command writes into `STATUS`: its code and opcode, and `FATAL` if the code is
`HardwareIO`; the other bits stay (60_exceptions.md R162, R167). -/
def Status.ended (t : Status) (op : Byte) (code : Code) : Status :=
  { t with code := code, lastop := op, fatal := t.fatal || code == .hardwareIO }

/-- The response record (30_encoding.md R70). -/
def responseWord (code : Code) (data : BitVec 24) : Word := (data ++ 0#5 ++ code.bits : BitVec 32)

/-- The first test of every legal command: `STATUS.FATAL` = 1 raises `HardwareIO` (60_exceptions.md
R161, R163 step 2). -/
def fatalTest (s : State) : Option Code := if s.status.fatal then some .hardwareIO else none

/-- `led_preamble` (41_led_strip.md R97). -/
def ledPreamble (s : State) : Option Code :=
  if s.status.fatal then some .hardwareIO
  else if s.status.ledcfg then none else some .notConfigured

/-- `seg_preamble` (42_seven_segment.md R118). -/
def segPreamble (s : State) : Option Code :=
  if s.status.fatal then some .hardwareIO
  else if s.status.segcfg then none else some .notConfigured

/-- Operand validation (60_exceptions.md R163 step 4). -/
def argumentTest (ok : Bool) : Option Code := if ok then none else some .invalidArgument

/-- Two tests in order: the first that fails decides (60_exceptions.md R163). -/
def firstFailure (a b : Option Code) : Option Code :=
  match a with
  | some e => some e
  | none => b

end Sys2Proof.Machine
end

