-- ==== Sys2Proof/Machine/Ops.lean ====
section
/-! DEFINITION. The operations the commands share: strip buffer accesses (00_scope.md R7, 20_memory.md
R40), output lines (10_state.md R20), events and their answers (00_scope.md R8, 60_exceptions.md R160,
R173), and the end of a command, with `raise` as the one way an error is taken (60_exceptions.md R162,
R167). -/

namespace Sys2Proof.Machine

/-! ## The strip buffer -/

/-- The canonical form: indices strictly rising (log entry 5). -/
def Buffer.wf : Buffer → Bool
  | [] => true
  | [_] => true
  | a :: b :: rest => decide (a.1 < b.1) && Buffer.wf (b :: rest)

/-- The record `i` the buffer lists, if any. -/
def Buffer.find (i : Nat) : Buffer → Option LedRecord
  | [] => none
  | (j, r) :: rest => if i = j then some r else Buffer.find i rest

/-- The record `i`; an unlisted record is unspecified, a free value (10_state.md R14, log entry 5). -/
def Buffer.read (m : Buffer) (i : Nat) : LedRecord := (Buffer.find i m).getD (Config.freeRecord i)

/-- Writes record `i`, keeping the indices rising. -/
def Buffer.write (i : Nat) (r : LedRecord) : Buffer → Buffer
  | [] => [(i, r)]
  | (j, q) :: rest =>
    if i < j then (i, r) :: (j, q) :: rest
    else if i = j then (i, r) :: rest
    else (j, q) :: Buffer.write i r rest

/-- `MemRead(addr, n)` (00_scope.md R7). -/
def memRead (m : Buffer) (addr n : Nat) : List LedRecord :=
  (List.range n).map (fun k => Buffer.read m (addr + k))

/-- `MemWrite(addr, n, v)` with the `n` records of the list (00_scope.md R7). -/
def memWrite (m : Buffer) (addr : Nat) : List LedRecord → Buffer
  | [] => m
  | r :: rest => Buffer.write addr r (memWrite m (addr + 1) rest)

/-! ## The output lines (10_state.md R20) -/

/-- The bit of `PIN_OE` that belongs to a line: `{CLEAR, LATCH, CLOCK, DATA}`. -/
def oeMask : Line → BitVec 4
  | .data => 0b0001
  | .clock => 0b0010
  | .latch => 0b0100
  | .clear => 0b1000

/-- Sets a line's level register. -/
def setLevel (line : Line) (level : Bool) (s : State) : State :=
  match line with
  | .data => { s with pinData := level }
  | .clock => { s with pinClock := level }
  | .latch => { s with pinLatch := level }
  | .clear => { s with pinClear := level }

/-- Sets a line's `PIN_OE` bit. -/
def setOe (line : Line) (on : Bool) (s : State) : State :=
  { s with pinOe := if on then s.pinOe ||| oeMask line else s.pinOe &&& ~~~(oeMask line) }

/-! ## Events -/

/-- The result of a command's body: it went through, it ended at a `raise`, or it is still running (an
endless `BLINK`, 43_blink.md R148). -/
inductive Result where
  | ok (s : State)
  | raised (e : Code) (s : State)
  | running (s : State)
  deriving DecidableEq, Repr

/-- What stands after a step of the pseudocode: nothing of it is executed after a `raise` (00_scope.md
R7). -/
def Result.bind (r : Result) (next : State → Result) : Result :=
  match r with
  | .ok s => next s
  | .raised e s => .raised e s
  | .running s => .running s

/-- The ticks an event takes (60_exceptions.md R173). -/
def eventTicks (p : Params) : Event → Nat
  | .busMode _ => p.tByte
  | .busBitOrder _ => p.tByte
  | .busFreq _ => p.tByte
  | .byte _ => p.tByte
  | .pinDir _ => p.tPin
  | .pin _ _ => p.tPin
  | .wait d => d

/-- Whether the collaborator answers an event: every event except `Wait` (60_exceptions.md R160). -/
def Event.answered : Event → Bool
  | .busMode _ => true
  | .busBitOrder _ => true
  | .busFreq _ => true
  | .byte _ => true
  | .pinDir _ => true
  | .pin _ _ => true
  | .wait _ => false

/-- The collaborator's answer to the `k`-th answered event from now on: the listed one, and past the
list a free one (log entry 3). -/
def answerAt (s : State) (k : Nat) : Answer :=
  match s.answers[k]? with
  | some a => a
  | none => Config.freeAnswer (s.freeIdx + k)

/-- Takes the next answer off the list. -/
def takeAnswer (s : State) : State :=
  { s with answers := s.answers.tail, freeIdx := s.freeIdx + 1 }

/-- Enters an event in the trace and moves `TIME` (10_state.md R31, 60_exceptions.md R172, R173). -/
def logEvent (e : Event) (a : Answer) (s : State) : State :=
  { s with
    trace := s.trace ++ [⟨e, a⟩]
    time := s.time + BitVec.ofNat 64 (eventTicks s.params e) }

/-- What a done event does to the line registers (10_state.md R20). -/
def performEvent (e : Event) (s : State) : State :=
  match e with
  | .busMode _ => s
  | .busBitOrder _ => s
  | .busFreq _ => s
  | .byte _ => s
  | .pinDir line => setLevel line false (setOe line true s)
  | .pin line level => setLevel line level s
  | .wait _ => s

/-- What a failed event leaves: for `Pin` and `PinDir` the level, and for `PinDir` the `PIN_OE` bit, of
that line "is unspecified from then on" (60_exceptions.md R160; log entry 4). `n` numbers the event. -/
def spoilEvent (e : Event) (n : Nat) (s : State) : State :=
  match e with
  | .busMode _ => s
  | .busBitOrder _ => s
  | .busFreq _ => s
  | .byte _ => s
  | .pinDir line => setLevel line (Config.freeLevel n) (setOe line (Config.freeOe n) s)
  | .pin line _ => setLevel line (Config.freeLevel n) s
  | .wait _ => s

/-- `emit e` (00_scope.md R7, 60_exceptions.md R160). -/
def emit (e : Event) (s : State) : Result :=
  if e.answered then
    match answerAt s 0 with
    | .done => .ok (performEvent e (logEvent e .done (takeAnswer s)))
    | .fail => .raised .hardwareIO (spoilEvent e s.freeIdx (logEvent e .fail (takeAnswer s)))
  else .ok (logEvent e .done s)

/-- Emits events one after the other, stopping at the first that fails. -/
def emitAll : List Event → State → Result
  | [], s => .ok s
  | e :: rest, s => (emit e s).bind (emitAll rest)

/-! ## The end of a command -/

/-- The end of a command with status `code` (60_exceptions.md R162, R167): `STATUS` updated, the
response record sent, `BL_STATE` OFF, the block READY. -/
def endCommand (op : Byte) (code : Code) (data : BitVec 24) (s : State) : State :=
  { s with
    status := s.status.ended op code
    responses := s.responses ++ [responseWord code data]
    blState := .off
    ready := true }

/-- `raise E`, the whole of taking an error (60_exceptions.md R162, R167): `DATA` is 0, nothing is saved
and control goes nowhere. There is no return from it (R169). -/
def raise (op : Byte) (e : Code) (s : State) : State := endCommand op e 0 s

/-- `complete OK` (60_exceptions.md R167). -/
def complete (op : Byte) (data : BitVec 24) (s : State) : State := endCommand op .ok data s

/-- A command's body behind its tests: the first test that fails raises, in the state as it stands
(60_exceptions.md R163). -/
def checked (test : Option Code) (s : State) (body : State → Result) : Result :=
  match test with
  | some e => .raised e s
  | none => body s

/-- The `DATA` of every command but `HUE2RGB`: 0 (30_encoding.md R70). -/
def noData (_ : State) : BitVec 24 := 0

/-- A command as an outcome. A command still running leaves the block BUSY, without a response. -/
def conclude (op : Op) (data : State → BitVec 24) (r : Result) : Host.Outcome State Fault Refusal :=
  .next (match r with
    | .ok s => complete op.code (data s) s
    | .raised e s => raise op.code e s
    | .running s => { s with ready := false })

end Sys2Proof.Machine
end

