-- ==== Sys2Proof/Machine/SevenSegment.lean ====
section
/-! DEFINITION. The seven-segment unit (42_seven_segment.md): `SEGCFG`, `WRITE`, `CLEAR`, `PUTC`, `PUTS`. -/

namespace Sys2Proof.Machine

/-! ## SEGCFG (R115) -/

/-- The four lines in R115's order. -/
def dirEvents : List Event := [.pinDir .data, .pinDir .clock, .pinDir .latch, .pinDir .clear]

/-- The body of `SEGCFG` behind its test. -/
def segcfgBody (defdelay : Word) (s : State) : Result :=
  (emitAll dirEvents s).bind (fun t =>
    .ok { t with defdelay := defdelay, status := { t.status with segcfg := true } })

/-- `SEGCFG defdelay` (R115). -/
def execSegcfg (defdelay : Word) (s : State) : Host.Outcome State Fault Refusal :=
  conclude .segcfg noData (checked (fatalTest s) s (segcfgBody defdelay))

/-! ## The segment table (R116) -/

/-- `seg_lookup(c)`: the pattern of the folded code if it is one of the nineteen, else absent. -/
def segLookup (p : Params) (c : Byte) : Option Byte :=
  if (segAlphabet p).contains (foldCase c) then p.segTable.lookup (foldCase c) else none

/-! ## WRITE (R119) -/

/-- The three events of one bit: the line takes the bit's complement, then one clock pulse. -/
def bitEvents (v : Byte) (i : Nat) : List Event :=
  [.pin .data (!v.getLsbD i), .pin .clock true, .pin .clock false]

/-- The latch pulse. -/
def latchEvents : List Event := [.pin .latch false, .pin .latch true, .pin .latch false]

/-- The events of `shift_out(v)`, most significant bit first. -/
def shiftEvents (v : Byte) : List Event :=
  [7, 6, 5, 4, 3, 2, 1, 0].flatMap (bitEvents v) ++ latchEvents

/-- `shift_out(v)`. -/
def shiftOut (v : Byte) (s : State) : Result := emitAll (shiftEvents v) s

/-- `WRITE value` (R119). -/
def execWrite (value : Word) (s : State) : Host.Outcome State Fault Refusal :=
  conclude .write noData
    (checked (firstFailure (segPreamble s) (argumentTest (byteOperandOk value))) s
      (shiftOut (value.extractLsb' 0 8)))

/-! ## CLEAR (R121) -/

/-- The clear pulse. -/
def clearPulse : List Event := [.pin .clear true, .pin .clear false, .pin .clear true]

/-- `clear_seq()`. -/
def clearSeq (s : State) : Result := (emitAll clearPulse s).bind (shiftOut 0)

/-- `CLEAR` (R121). -/
def execClear (s : State) : Host.Outcome State Fault Refusal :=
  conclude .clear noData (checked (segPreamble s) s clearSeq)

/-! ## PUTC (R123) -/

/-- `putc_seq(c, d)`: the character is looked up before anything is emitted. -/
def putcSeq (c : Byte) (d : Nat) (s : State) : Result :=
  match segLookup s.params c with
  | none => .raised .invalidArgument s
  | some p => (shiftOut p s).bind (emit (.wait d))

/-- `PUTC char, delay` (R123). -/
def execPutc (char : Byte) (delay : Word) (s : State) : Host.Outcome State Fault Refusal :=
  conclude .putc noData (checked (segPreamble s) s (putcSeq char (uint32 delay)))

/-! ## PUTS (R126) -/

/-- `putc_seq` for each character in turn, each checked just before it is shown (90_conflicts.md C3). -/
def putsSeq (d : Nat) : List Byte → State → Result
  | [], s => .ok s
  | c :: rest, s => (putcSeq c d s).bind (putsSeq d rest)

/-- The delay of `PUTS`: `DEFDELAY` with `DF` (30_encoding.md R71). -/
def putsDelay (df : Bool) (delay : Word) (s : State) : Nat :=
  if df then uint32 s.defdelay else uint32 delay

/-- `PUTS string, delay` and `PUTS string` (R126). -/
def execPuts (df : Bool) (delay : Word) (chars : List Byte) (s : State) :
    Host.Outcome State Fault Refusal :=
  conclude .puts noData (checked (segPreamble s) s (putsSeq (putsDelay df delay s) chars))

end Sys2Proof.Machine
end

