-- ==== Sys2Proof/Machine/Blink.lean ====
section
/-! DEFINITION. The blink timer state machine (43_blink.md): its transitions, `BLINKC`, `BLINK`, and how
a blink that does not end goes on (log entry 7). -/

namespace Sys2Proof.Machine

/-! ## The transitions (R142, R145) -/

/-- `SHOWING` on entry: the character is looked up, shifted out and held for `BL_SHOW` ticks. -/
def blinkShow (s : State) : Result :=
  putcSeq s.blChar s.blShow.toNat { s with blState := .showing }

/-- `IDLE` on entry: the display is cleared and stays dark for `BL_IDLE` ticks. -/
def blinkDark (s : State) : Result :=
  (clearSeq { s with blState := .idle }).bind (emit (.wait s.blIdle.toNat))

/-- One cycle: `SHOWING`, then `IDLE`. -/
def blinkCycle (s : State) : Result := (blinkShow s).bind blinkDark

/-- The time since the loop started, `(TIME - BL_T0) mod 2^64`. -/
def blinkElapsed (s : State) : Nat := (s.time - s.blT0).toNat

/-- The end-of-cycle test (R145). -/
def endOfCycle (s : State) : State :=
  match s.blMode with
  | .count =>
    { s with
      blCnt := s.blCnt - 1
      blState := if s.blCnt - 1 = 0 then .off else .showing }
  | .elapsed =>
    { s with blState := if blinkElapsed s ≥ s.blElapse.toNat then .off else .showing }

/-- What follows a cycle: the loop ends, or goes on. -/
def blinkNext (loop : State → Result) (s : State) : Result :=
  if (endOfCycle s).blState = .off then .ok (endOfCycle s) else loop (endOfCycle s)

/-- The loop, at most `n` cycles of it. Past that the blink is still running. -/
def blinkLoop : Nat → State → Result
  | 0, s => .running s
  | n + 1, s => (blinkCycle s).bind (blinkNext (blinkLoop n))

/-- The ticks of one cycle, `C` of R147. -/
def cycleTicks (s : State) : Nat := s.blShow.toNat + s.blIdle.toNat + 57 * s.params.tPin

/-- How many cycles one step of the model runs: all that are left, which is `BL_CNT` or by R147
`max(1, ceil(left / C))`; with `C` = 0 one (log entry 7). -/
def cyclesPerStep (s : State) : Nat :=
  match s.blMode with
  | .count => max 1 s.blCnt.toNat
  | .elapsed =>
    if cycleTicks s = 0 then 1
    else max 1 ((s.blElapse.toNat - blinkElapsed s + (cycleTicks s - 1)) / cycleTicks s)

/-- A blink that has a cycle to run: its registers are loaded, then the loop runs, whose first `SHOWING` looks
the character up (R142, R143; log entry 9). -/
def startBlink (load : State → State) (s : State) : Result :=
  blinkLoop (cyclesPerStep (load s)) (load s)

/-! ## BLINKC (R144) -/

/-- The registers a `BLINKC` loads (R142, R144). -/
def loadBlinkc (char : Byte) (period dutyQ cycles : Word) (s : State) : State :=
  { s with
    blMode := .count
    blChar := char
    blShow := BitVec.ofNat 31 (showTicks (int32 period).toNat (int32 dutyQ).toNat)
    blIdle := BitVec.ofNat 31 (idleTicks (int32 period).toNat (int32 dutyQ).toNat)
    blCnt := BitVec.ofNat 31 (int32 cycles).toNat }

/-- The body of `BLINKC` behind its tests: with no cycle to run it does nothing (R142, R143;
log entry 9). -/
def blinkcBody (char : Byte) (period dutyQ cycles : Word) (s : State) : Result :=
  if cycles = 0 then .ok s else startBlink (loadBlinkc char period dutyQ cycles) s

/-- `BLINKC char, period, duty_q, cycles` (R144). -/
def execBlinkc (char : Byte) (period dutyQ cycles : Word) (s : State) :
    Host.Outcome State Fault Refusal :=
  conclude .blinkc noData
    (checked (firstFailure (segPreamble s) (argumentTest (blinkOperandsOk period dutyQ cycles))) s
      (blinkcBody char period dutyQ cycles))

/-! ## BLINK (R146) -/

/-- The registers a `BLINK` loads; `BL_T0` samples `TIME` (R142, R146). -/
def loadBlink (char : Byte) (period dutyQ elapse : Word) (s : State) : State :=
  { s with
    blMode := .elapsed
    blChar := char
    blShow := BitVec.ofNat 31 (showTicks (int32 period).toNat (int32 dutyQ).toNat)
    blIdle := BitVec.ofNat 31 (idleTicks (int32 period).toNat (int32 dutyQ).toNat)
    blElapse := BitVec.ofNat 31 (int32 elapse).toNat
    blT0 := s.time }

/-- `BLINK char, period, duty_q, elapse` (R146): at least one cycle. -/
def execBlink (char : Byte) (period dutyQ elapse : Word) (s : State) :
    Host.Outcome State Fault Refusal :=
  conclude .blink noData
    (checked (firstFailure (segPreamble s) (argumentTest (blinkOperandsOk period dutyQ elapse))) s
      (startBlink (loadBlink char period dutyQ elapse)))

/-! ## A blink still running -/

/-- The command that is running. -/
def blinkOp (s : State) : Op :=
  match s.blMode with
  | .count => .blinkc
  | .elapsed => .blink

/-- A BUSY block goes on with its blink from the state `BL_STATE` names. -/
def continueBlink (s : State) : Host.Outcome State Fault Refusal :=
  match s.blState with
  | .off => .fault .busyWithoutBlink
  | .showing => conclude (blinkOp s) noData (blinkLoop (cyclesPerStep s) s)
  | .idle =>
    conclude (blinkOp s) noData ((blinkDark s).bind (blinkNext (blinkLoop (cyclesPerStep s))))

end Sys2Proof.Machine
end

