-- ==== Sys2Proof/Machine/ColorWheel.lean ====
section
/-! DEFINITION. The color wheel unit (40_color_wheel.md): the hue function, its ROM form, `HUE2RGB`. -/

namespace Sys2Proof.Machine

/-- The four outputs of the hue function's port (R91). -/
structure HuePort where
  /-- `hue_err`: 1 for a hue of 1536 or more. -/
  err : Bool
  rgb : Rgb
  deriving DecidableEq, Repr

/-- The hue function as logic, the band table of R86 on the slices of R87; on bands 6 and 7 `hue_err` is
1 and the channels are free (R91, log entry 6). -/
def hueLogic (hue : BitVec 11) : HuePort :=
  let x : Byte := hue.extractLsb' 0 8
  let up := x
  let down := 255 - x
  match (hue.extractLsb' 8 3).toNat with
  | 0 => ⟨false, ⟨255, up, 0⟩⟩
  | 1 => ⟨false, ⟨down, 255, 0⟩⟩
  | 2 => ⟨false, ⟨0, 255, up⟩⟩
  | 3 => ⟨false, ⟨0, down, 255⟩⟩
  | 4 => ⟨false, ⟨up, 0, 255⟩⟩
  | 5 => ⟨false, ⟨255, 0, down⟩⟩
  | _ => ⟨true, Config.freeHueRgb hue⟩

/-- Entries `256 * band` to `256 * band + 255` of the hue ROM. -/
def hueRomBand (band : Nat) : List Rgb :=
  (List.range 256).map (fun x => (hueLogic (BitVec.ofNat 11 (256 * band + x))).rgb)

/-- The hue ROM: 1536 entries, entry h the triple of hue h (20_memory.md R43). -/
def hueRom : List Rgb := (List.range 6).flatMap hueRomBand

/-- The hue function as a table read. -/
def hueTable (hue : BitVec 11) : HuePort :=
  match hueRom[hue.toNat]? with
  | some c => ⟨false, c⟩
  | none => ⟨true, Config.freeHueRgb hue⟩

/-- The hue function of an implementation (R89: not semantic). -/
def huePort (p : Params) (hue : BitVec 11) : HuePort :=
  match p.hueImpl with
  | .logic => hueLogic hue
  | .lut => hueTable hue

/-- `hue_to_rgb`: a colour for a hue in 0..1535, and none outside (R85, R91, U1). -/
def hueToRgb (p : Params) (hue : BitVec 11) : Option Rgb :=
  if (huePort p hue).err then none else some (huePort p hue).rgb

/-- The colour `ADVANCE` and `SCROLL` apply (R92). -/
def colourOf (p : Params) (hue : BitVec 11) : Rgb := (huePort p hue).rgb

/-- The body of `HUE2RGB` behind its tests. -/
def hue2rgbBody (hue : Word) (s : State) : Result :=
  .ok { s with res := rgbBits (colourOf s.params (BitVec.ofNat 11 (int32 hue).toNat)) }

/-- `HUE2RGB hue` (R90). -/
def execHue2rgb (hue : Word) (s : State) : Host.Outcome State Fault Refusal :=
  conclude .hue2rgb (fun t => t.res)
    (checked (firstFailure (fatalTest s) (argumentTest (hueOperandOk hue))) s (hue2rgbBody hue))

end Sys2Proof.Machine
end

