-- ==== Sys2Proof/Machine/LedStrip.lean ====
section
/-! DEFINITION. The LED strip unit (41_led_strip.md): `CONFIGURE`, `SET`, `ADVANCE`, `SCROLL`, `RENDER`. -/

namespace Sys2Proof.Machine

/-! ## CONFIGURE (R95, R96) -/

/-- The three bus events, in R95's order. -/
def busEvents (p : Params) : List Event :=
  [.busMode p.spiMode, .busBitOrder p.spiMsbFirst, .busFreq p.spiHz]

/-- What `CONFIGURE` writes once its events are done: the buffer is built anew, and the records at and
above the new `LEDCNT` become unspecified (R95, R96). -/
def buildStrip (n : Nat) (s : State) : State :=
  { s with
    ledcnt := n
    hue := 0
    buf := memWrite [] 0 (List.replicate n s.params.initRecord)
    status := { s.status with ledcfg := true } }

/-- The body of `CONFIGURE` behind its tests. -/
def configureBody (n : Nat) (s : State) : Result :=
  (emitAll (busEvents s.params) s).bind (fun t => .ok (buildStrip n t))

/-- `CONFIGURE led_count` and `CONFIGURE default` (R95). -/
def execConfigure (df : Bool) (ledCount : Word) (s : State) : Host.Outcome State Fault Refusal :=
  conclude .configure noData
    (checked (firstFailure (fatalTest s) (argumentTest (countOk s.params (effectiveCount df ledCount)))) s
      (configureBody (effectiveCount df ledCount).toNat))

/-! ## SET (R99) -/

/-- The body of `SET` behind its tests. -/
def setBody (index : Nat) (led : Word) (s : State) : Result :=
  .ok { s with buf := memWrite s.buf index [ledOfWord led] }

/-- `SET index, w` (R99). -/
def execSet (index led : Word) (s : State) : Host.Outcome State Fault Refusal :=
  conclude .set noData
    (checked (firstFailure (ledPreamble s) (argumentTest (indexOk s.ledcnt index))) s
      (setBody (int32 index).toNat led))

/-! ## ADVANCE and SCROLL (R103, R106) -/

/-- `HUE` + 6, or the wrap target when the sum exceeds 1535: an exact sum, a test, an assignment
(00_scope.md R6, 90_conflicts.md C4). -/
def nextHue (wrap : Nat) (hue : BitVec 11) : BitVec 11 :=
  let h := hue.toNat + Config.hueInc
  BitVec.ofNat 11 (if h > Config.hueSteps - 1 then wrap else h)

/-- The record of the current hue. -/
def hueRecord (s : State) : LedRecord :=
  recordOfColour s.params.globalBrightness (colourOf s.params s.hue)

/-- Every record in use takes the current hue's colour. -/
def fillStrip (s : State) : State :=
  { s with buf := memWrite s.buf 0 (List.replicate s.ledcnt (hueRecord s)) }

/-- The records in use move up by one, the last is lost, the current hue's record comes to the front;
nothing moves in an empty strip (R106). -/
def shiftStrip (s : State) : State :=
  if s.ledcnt = 0 then s
  else { s with buf := memWrite s.buf 0 (hueRecord s :: memRead s.buf 0 (s.ledcnt - 1)) }

/-- `ADVANCE` (R103). -/
def execAdvance (s : State) : Host.Outcome State Fault Refusal :=
  conclude .advance noData
    (checked (ledPreamble s) s
      (fun t => .ok (fillStrip { t with hue := nextHue Config.wrapAdvance t.hue })))

/-- `SCROLL` (R106). -/
def execScroll (s : State) : Host.Outcome State Fault Refusal :=
  conclude .scroll noData
    (checked (ledPreamble s) s
      (fun t => .ok (shiftStrip { t with hue := nextHue Config.wrapScroll t.hue })))

/-! ## RENDER (R109) -/

/-- The four bytes of one LED: header, blue, green, red. -/
def ledBytes (r : LedRecord) : List Byte :=
  [(0b111#3 ++ r.brightness : BitVec 8), r.blue, r.green, r.red]

/-- The bytes of a frame. -/
def frameBytes (records : List LedRecord) : List Byte :=
  [0x00, 0x00, 0x00, 0x00] ++ records.flatMap ledBytes ++ [0xFF, 0xFF, 0xFF, 0xFF]

/-- `RENDER` (R109). -/
def execRender (s : State) : Host.Outcome State Fault Refusal :=
  conclude .render noData
    (checked (ledPreamble s) s
      (emitAll ((frameBytes (memRead s.buf 0 s.ledcnt)).map Event.byte)))

end Sys2Proof.Machine
end

