-- ==== Sys2Proof/Machine/Dispatch.lean ====
section
/-! DEFINITION. One arm per command (30_encoding.md R66). -/

namespace Sys2Proof.Machine

def exec (i : Instr) (s : State) : Host.Outcome State Fault Refusal :=
  match i with
  | .hue2rgb hue => Sys2Proof.Machine.execHue2rgb hue s
  | .configure df ledCount => Sys2Proof.Machine.execConfigure df ledCount s
  | .set index led => Sys2Proof.Machine.execSet index led s
  | .advance => Sys2Proof.Machine.execAdvance s
  | .scroll => Sys2Proof.Machine.execScroll s
  | .render => Sys2Proof.Machine.execRender s
  | .segcfg defdelay => Sys2Proof.Machine.execSegcfg defdelay s
  | .write value => Sys2Proof.Machine.execWrite value s
  | .clear => Sys2Proof.Machine.execClear s
  | .putc char delay => Sys2Proof.Machine.execPutc char delay s
  | .puts df delay chars => Sys2Proof.Machine.execPuts df delay chars s
  | .blinkc char period dutyQ cycles => Sys2Proof.Machine.execBlinkc char period dutyQ cycles s
  | .blink char period dutyQ elapse => Sys2Proof.Machine.execBlink char period dutyQ elapse s

end Sys2Proof.Machine
end

