-- ==== Sys2Proof/Machine/Port.lean ====
section
/-! DEFINITION. The block's inputs: taking a packet from the command port (10_state.md R11, 70_reset_and_hazards.md
R188), a packet that does not decode (60_exceptions.md R159), time between commands (R173), and reset, between
commands and in the middle of one (70_reset_and_hazards.md R180, R182, R190). -/

namespace Sys2Proof.Machine

/-- The block takes the packet at the command port and is BUSY (10_state.md R11). -/
def acceptPacket (rest : List HostInput) (s : State) : State :=
  { s with ready := false, inputs := rest }

/-- A packet that decodes to `Illegal`: `IllegalCommand` before every other test; `LASTOP` takes bits
[7:0] of word 0 whatever they are (60_exceptions.md R159). -/
def rejectPacket (header : Word) (s : State) : State := raise (headerOp header) .illegalCommand s

/-- The host lets ticks pass between two commands (60_exceptions.md R173). -/
def idleFor (ticks : Nat) (rest : List HostInput) (s : State) : State :=
  { s with inputs := rest, time := s.time + BitVec.ofNat 64 ticks }

/-! ## Reset -/

/-- Reset: every register takes its reset value and the trace is emptied (70_reset_and_hazards.md R180). The
implementation's parameters stay, what was sent stays sent (R182), and the environment goes on (log entries
1, 2, 3, 12, 22). -/
def resetBlock (rest : List HostInput) (s : State) : State :=
  { State.reset with
    params := s.params
    past := s.past ++ s.trace
    responses := s.responses
    inputs := rest
    answers := s.answers
    freeIdx := s.freeIdx }

/-- How many events still come before the next reset, if the host applies one: reset is no packet and does
not wait behind one at the command port. -/
def nextReset : List HostInput → Option Nat
  | [] => none
  | .reset n :: _ => some n
  | .idle _ :: rest => nextReset rest
  | .packet _ _ :: rest => nextReset rest

/-- How many events of the command just taken come before a reset: only a reset directly behind the packet
can cut the command short (log entry 8). -/
def resetBehind : List HostInput → Option Nat
  | .reset n :: _ => some n
  | _ => none

/-- The next reset after `m` events. -/
def delayReset (m : Nat) : List HostInput → List HostInput
  | [] => []
  | .reset n :: rest => .reset (n - m) :: rest
  | x :: rest => x :: delayReset m rest

/-- The inputs without the next reset. -/
def dropReset : List HostInput → List HostInput
  | [] => []
  | .reset _ :: rest => rest
  | x :: rest => x :: dropReset rest

/-- The answered events of a list. -/
def answeredIn (new : List TraceEntry) : Nat := (new.filter (fun e => e.event.answered)).length

/-- What a command that would take the block from `s` to `t` leaves of itself when it is abandoned after `n`
events: those events, and the answers they got. Nothing else of it survives the reset. -/
def cutShort (n : Nat) (s t : State) : State :=
  let new := (t.trace.drop s.trace.length).take n
  { s with
    trace := s.trace ++ new
    answers := s.answers.drop (answeredIn new)
    freeIdx := s.freeIdx + answeredIn new }

/-- How many events a run from `s` to `t` emits. -/
def emittedBetween (s t : State) : Nat := t.trace.length - s.trace.length

/-- The block runs from `s` and would arrive at `t`; a reset after `n` events finds it still at work, which
abandons the command without a response, or comes later. -/
def meetReset (n : Nat) (s t : State) : State :=
  if n ≤ emittedBetween s t then resetBlock (dropReset s.inputs) (cutShort n s t)
  else { t with inputs := delayReset (emittedBetween s t) t.inputs }

/-- A command running from `s`, against the reset that may come while it runs (70_reset_and_hazards.md
R180, R190). -/
def raceReset (reset : Option Nat) (s : State) (o : Host.Outcome State Fault Refusal) :
    Host.Outcome State Fault Refusal :=
  match reset, o with
  | none, o => o
  | some 0, _ => .next (resetBlock (dropReset s.inputs) s)
  | some (n + 1), .next t => .next (meetReset (n + 1) s t)
  | some (_ + 1), .fault f => .fault f
  | some (_ + 1), .refused r => .refused r

end Sys2Proof.Machine
end

