-- ==== Sys2Proof/Machine/Step.lean ====
section
/-! DEFINITION. One step of the block: one input of the host taken when READY, one command run (10_state.md
R11) unless a reset cuts it short; while BUSY with a blink, more of that blink (log entry 7). -/

namespace Sys2Proof.Machine

/-- The command of a packet runs; a packet that does not decode is rejected. -/
def runPacket (header : Word) (operands : List Word) (s : State) : Host.Outcome State Fault Refusal :=
  match decode (header :: operands) with
  | .ok i => exec i s
  | .error _ => .next (rejectPacket header s)

/-- A BUSY block goes on, or is reset. -/
def busyStep (s : State) : Host.Outcome State Fault Refusal :=
  raceReset (nextReset s.inputs) s (continueBlink s)

def step (s : State) : Host.Outcome State Fault Refusal :=
  if s.ready then
    match s.inputs with
    | [] => .next s
    | .idle ticks :: rest => .next (idleFor ticks rest s)
    | .reset _ :: rest => .next (resetBlock rest s)
    | .packet header operands :: rest =>
      raceReset (resetBehind rest) (acceptPacket rest s)
        (runPacket header operands (acceptPacket rest s))
  else
    match s.inputs with
    | .idle _ :: rest => busyStep { s with inputs := rest }
    | _ => busyStep s

/-- Inputs that follow a packet whose command is to run to its end: a reset right behind it would cut it
short, so a wait of no ticks goes before one. -/
def behindPacket (inputs : List HostInput) : List HostInput :=
  match inputs with
  | .reset n :: rest => .idle 0 :: .reset n :: rest
  | rest => rest

/-- `s` with the packet of spec/opcode_table.json's number `w` standing at the command port of a READY
block, before the inputs that are already there (log entry 2). -/
def State.withFetchWord (s : State) (nbits w : Nat) : State :=
  { s with
    ready := true
    blState := .off
    inputs := .packet (tableWord w 0) (tableOperands nbits w) :: behindPacket s.inputs }

end Sys2Proof.Machine
end

