-- ==== Sys2Proof/Machine/Assembler.lean ====
section
/-! DEFINITION. The assembler syntax (30_encoding.md R75 to R77), a host tool beside the block: from one
line of text to a command. Conventions R75 leaves open are in log entry 17. -/

namespace Sys2Proof.Machine

/-! ## Splitting a line -/

/-- Where a scan of the text stands: outside quotes, after the opening quote of a character, after that
character, inside a string. -/
inductive Quote where
  | outside
  | charBody
  | charEnd
  | inString
  deriving DecidableEq, Repr

/-- The scan's place after one more character. -/
def Quote.next (q : Quote) (c : Char) : Quote :=
  match q with
  | .outside => if c.toNat = 39 then .charBody else if c.toNat = 34 then .inString else .outside
  | .charBody => .charEnd
  | .charEnd => .outside
  | .inString => if c.toNat = 34 then .outside else .inString

/-- The line without its comment, which starts at a `;` outside quotes. -/
def stripComment : Quote → List Char → List Char
  | _, [] => []
  | q, c :: rest =>
    if q = .outside ∧ c = ';' then [] else c :: stripComment (q.next c) rest

/-- The operands: the parts between the commas outside quotes; `acc` is the current part, reversed. -/
def splitOperands : Quote → List Char → List Char → List (List Char)
  | _, acc, [] => [acc.reverse]
  | q, acc, c :: rest =>
    if q = .outside ∧ c = ',' then acc.reverse :: splitOperands .outside [] rest
    else splitOperands (q.next c) (c :: acc) rest

/-- Space, tab and carriage return. -/
def isBlank (c : Char) : Bool := c.toNat == 32 || c.toNat == 9 || c.toNat == 13

/-- A part without the blanks around it. -/
def trimBlanks (t : List Char) : List Char :=
  ((t.dropWhile isBlank).reverse.dropWhile isBlank).reverse

/-- Lower case, for the case-insensitive mnemonics. -/
def lowerChar (c : Char) : Char :=
  if 65 ≤ c.toNat ∧ c.toNat ≤ 90 then Char.ofNat (c.toNat + 32) else c

/-! ## Numbers -/

/-- The value of a digit, 0 to 15. -/
def digitValue (c : Char) : Option Nat :=
  if 48 ≤ c.toNat ∧ c.toNat ≤ 57 then some (c.toNat - 48)
  else if 97 ≤ c.toNat ∧ c.toNat ≤ 102 then some (c.toNat - 87)
  else if 65 ≤ c.toNat ∧ c.toNat ≤ 70 then some (c.toNat - 55)
  else none

/-- Digits of a base, after the value `acc` already read. -/
def digitsFrom (base : Nat) : Nat → List Char → Option Nat
  | acc, [] => some acc
  | acc, c :: rest =>
    match digitValue c with
    | some v => if v < base then digitsFrom base (acc * base + v) rest else none
    | none => none

/-- At least one digit of a base. -/
def digits (base : Nat) (t : List Char) : Option Nat :=
  if t.isEmpty then none else digitsFrom base 0 t

/-- An unsigned integer: decimal, `0x` hexadecimal or `0b` binary. -/
def unsignedInteger (t : List Char) : Option Nat :=
  match t with
  | '0' :: 'x' :: rest => digits 16 rest
  | '0' :: 'b' :: rest => digits 2 rest
  | _ => digits 10 t

/-- An integer with an optional leading `-`, which R75 names for `int32` operands: it is read before any integer,
and the range of the operand decides, so that elsewhere only a zero can carry it (log entry 17). -/
def integer (t : List Char) : Option Int :=
  match t with
  | '-' :: rest => (unsignedInteger rest).map (fun n => -(n : Int))
  | _ => (unsignedInteger t).map (fun n => (n : Int))

/-- An unsigned decimal number as numerator and denominator. -/
def decimal (t : List Char) : Option (Nat × Nat) :=
  let whole := t.takeWhile (· ≠ '.')
  match t.dropWhile (· ≠ '.') with
  | [] => (digits 10 whole).map (fun n => (n, 1))
  | _ :: frac =>
    match digits 10 (whole ++ frac), whole.isEmpty || frac.isEmpty with
    | some n, false => some (n, 10 ^ frac.length)
    | _, _ => none

/-- `round(x * scale)` of the number `n / d`, halves away from zero (R76). -/
def roundScaled (n d scale : Nat) : Nat := (2 * n * scale + d) / (2 * d)

/-- A number with a unit suffix, scaled and rounded (R76); a leading `-` is read as in `integer` (log entry 17). -/
def scaledNumber (suffix : Char) (scale : Nat) (t : List Char) : Option Int :=
  match t.reverse with
  | c :: rest =>
    if c = suffix then
      match rest.reverse with
      | '-' :: body => (decimal body).map (fun q => -(roundScaled q.1 q.2 scale : Int))
      | body => (decimal body).map (fun q => (roundScaled q.1 q.2 scale : Int))
    else none
  | [] => none

/-- A plain integer, or a number with the suffix. -/
def integerOr (suffix : Char) (scale : Nat) (t : List Char) : Option Int :=
  match integer t with
  | some n => some n
  | none => scaledNumber suffix scale t

/-! ## Operand words -/

/-- The word of an `int32` operand, if the value is one. -/
def int32Word (n : Int) : Option Word :=
  if -2147483648 ≤ n ∧ n < 2147483648 then some (BitVec.ofInt 32 n) else none

/-- The word of a `uint32` operand, if the value is one. -/
def uint32Word (n : Int) : Option Word :=
  if 0 ≤ n ∧ n < 4294967296 then some (BitVec.ofInt 32 n) else none

/-- A byte operand, if the value is in 0..255. -/
def byteValue (n : Int) : Option Byte :=
  if 0 ≤ n ∧ n ≤ 255 then some (BitVec.ofInt 8 n) else none

/-- An `int32` operand. -/
def int32Operand (t : List Char) : Option Word := (integer t).bind int32Word

/-- An `int32` operand in ticks: an integer, or seconds with the suffix `s`. -/
def int32Ticks (p : Params) (t : List Char) : Option Word := (integerOr 's' p.tickHz t).bind int32Word

/-- A `uint32` operand in ticks: an integer, or seconds with the suffix `s`. -/
def uint32Ticks (p : Params) (t : List Char) : Option Word := (integerOr 's' p.tickHz t).bind uint32Word

/-- A duty operand: an integer, or a fraction with the suffix `d`. -/
def dutyOperand (t : List Char) : Option Word := (integerOr 'd' 65536 t).bind int32Word

/-- A character operand: a single character in single quotes, or an integer 0..255. The code of a quoted
character outside ASCII is its Unicode code point if that is at most 255 (log entry 17). -/
def charOperand (t : List Char) : Option Byte :=
  match t with
  | [q, c, r] =>
    if q.toNat = 39 ∧ r.toNat = 39 then byteValue (c.toNat : Int) else (integer t).bind byteValue
  | _ => (integer t).bind byteValue

/-- The bytes of characters, if every code is in 0..255 (R77). -/
def charBytes : List Char → Option (List Byte)
  | [] => some []
  | c :: rest =>
    match byteValue (c.toNat : Int), charBytes rest with
    | some b, some bs => some (b :: bs)
    | _, _ => none

/-- The text between the double quotes at its two ends; a double quote between them is part of the text (log
entry 17). -/
def unquote (t : List Char) : Option (List Char) :=
  match t with
  | q :: rest =>
    match rest.reverse with
    | r :: body => if q.toNat = 34 ∧ r.toNat = 34 then some body.reverse else none
    | [] => none
  | [] => none

/-- A string operand: double quotes around at most `STR_MAX` characters. -/
def stringOperand (t : List Char) : Option (List Byte) :=
  match (unquote t).bind charBytes with
  | some bs => if stringLengthOk bs then some bs else none
  | none => none

/-- The packed LED word of `set`: the low 8 bits of the brightness number in [31:24], then b, g, r in
0..255 (R64, R75). For a negative brightness, where 00_scope.md R6 defines no `mod`, these are the low 8 bits of
its two's complement (log entry 17). -/
def ledOperand (brightness r g b : Int) : Option Word :=
  match byteValue r, byteValue g, byteValue b with
  | some r8, some g8, some b8 => some (wordOfBytes r8 g8 b8 (BitVec.ofInt 8 brightness))
  | _, _, _ => none

/-! ## Commands -/

/-- The mnemonics and aliases, case-insensitive (R75, R76). -/
def mnemonicOf (t : List Char) : Option Op :=
  let m := t.map lowerChar
  if m = "hue2rgb".toList ∨ m = "hue_to_rgb".toList then some .hue2rgb
  else if m = "configure".toList then some .configure
  else if m = "set".toList then some .set
  else if m = "advance".toList ∨ m = "advance_wheel".toList then some .advance
  else if m = "scroll".toList ∨ m = "scroll_wheel".toList then some .scroll
  else if m = "render".toList then some .render
  else if m = "segcfg".toList then some .segcfg
  else if m = "write".toList then some .write
  else if m = "clear".toList then some .clear
  else if m = "putc".toList then some .putc
  else if m = "puts".toList then some .puts
  else if m = "blinkc".toList then some .blinkc
  else if m = "blink".toList then some .blink
  else none

/-- The command of a mnemonic and its operands (R75, R76). The word `default` is accepted in any case (log
entry 17). -/
def assembleOperands (p : Params) (op : Op) (args : List (List Char)) : Option Instr :=
  match op, args with
  | .hue2rgb, [h] => (int32Operand h).map .hue2rgb
  | .configure, [n] =>
    if n.map lowerChar = "default".toList then some (.configure true 0)
    else (int32Operand n).map (.configure false)
  | .set, [i, l, r, g, b] =>
    match int32Operand i, integer l, integer r, integer g, integer b with
    | some iw, some ln, some rn, some gn, some bn => (ledOperand ln rn gn bn).map (.set iw)
    | _, _, _, _, _ => none
  | .advance, [] => some .advance
  | .scroll, [] => some .scroll
  | .render, [] => some .render
  | .segcfg, [d] => (uint32Ticks p d).map .segcfg
  | .write, [v] => (int32Operand v).map .write
  | .clear, [] => some .clear
  | .putc, [c] => (charOperand c).map (fun k => .putc k 0)
  | .putc, [c, d] =>
    match charOperand c, uint32Ticks p d with
    | some k, some w => some (.putc k w)
    | _, _ => none
  | .puts, [t] => (stringOperand t).map (.puts true 0)
  | .puts, [t, d] =>
    match stringOperand t, uint32Ticks p d with
    | some cs, some w => some (.puts false w cs)
    | _, _ => none
  | .blinkc, [c, t, q, n] =>
    match charOperand c, int32Ticks p t, dutyOperand q, int32Operand n with
    | some k, some tw, some qw, some nw => some (.blinkc k tw qw nw)
    | _, _, _, _ => none
  | .blink, [c, t, q, e] =>
    match charOperand c, int32Ticks p t, dutyOperand q, int32Ticks p e with
    | some k, some tw, some qw, some ew => some (.blink k tw qw ew)
    | _, _, _, _ => none
  | _, _ => none

/-- What a line of text is. -/
inductive AsmLine where
  /-- Nothing but blanks and a comment. -/
  | blank
  /-- A command. -/
  | command (i : Instr)
  /-- No line of R75's syntax. -/
  | error
  deriving DecidableEq, Repr

/-- Assembles one line (R75). -/
def assembleLine (p : Params) (line : List Char) : AsmLine :=
  let text := trimBlanks (stripComment .outside line)
  let name := text.takeWhile (fun c => !isBlank c)
  let rest := trimBlanks (text.dropWhile (fun c => !isBlank c))
  let args := if rest.isEmpty then [] else (splitOperands .outside [] rest).map trimBlanks
  if text.isEmpty then .blank
  else
    match (mnemonicOf name).bind (fun op => assembleOperands p op args) with
    | some i => .command i
    | none => .error

end Sys2Proof.Machine
end

