-- ==== Sys2Proof/Machine/Observe.lean ====
section
/-! DEFINITION. The observation of a command and when two traces are the same observation (00_scope.md
R8), and what of a state means something (10_state.md R28). -/

namespace Sys2Proof.Machine

/-- The observation of a command: the state after it, the events it emitted, its status code. -/
structure Observation where
  state : State
  events : List TraceEntry
  code : Code
  deriving DecidableEq, Repr

/-- The observation of what ran from `before` to `after`; the trace stands in `events`, so the state is
shown without it. -/
def observe (before after : State) : Observation where
  state := { after with trace := [] }
  events := after.trace.drop before.trace.length
  code := after.status.code

/-- What of a state means something: the registers of 10_state.md R24 to R27 "hold meaningful values only while
`BL_STATE` is not `OFF`" (R28), so while it is OFF they are shown as 0. -/
def meaningful (s : State) : State :=
  if s.blState = .off then
    { s with
      blMode := .count
      blChar := 0
      blShow := 0
      blIdle := 0
      blCnt := 0
      blT0 := 0
      blElapse := 0 }
  else s

/-- Puts a wait in front of a trace: nothing for `Wait(0)`, one longer wait before another wait. -/
def consWait (d : Nat) (t : List TraceEntry) : List TraceEntry :=
  if d = 0 then t
  else
    match t with
    | ⟨.wait k, _⟩ :: rest => ⟨.wait (d + k), .done⟩ :: rest
    | rest => ⟨.wait d, .done⟩ :: rest

/-- A trace with no `Wait(0)` and no two waits in a row. -/
def normalizeTrace : List TraceEntry → List TraceEntry
  | [] => []
  | e :: rest =>
    match e.event with
    | .wait d => consWait d (normalizeTrace rest)
    | _ => e :: normalizeTrace rest

/-- "Two traces are the same observation if they differ only in `Wait(0)` events or in splitting one
`Wait(a+b)` into `Wait(a), Wait(b)`" (00_scope.md R8). -/
def sameTrace (t u : List TraceEntry) : Bool := normalizeTrace t == normalizeTrace u

end Sys2Proof.Machine
end

