-- ==== Sys2Proof/Safety.lean ====
section
/-! DEFINITION. What counts as a safe state and a safe run: the invariants of 10_state.md R33 and of
the rules they rest on, and a step that does not stop. -/

namespace Sys2Proof.Machine

/-- The step goes on. -/
def Continues (s : State) : Prop := ∃ t, step s = .next t

/-- What holds between two steps. -/
structure Inv (s : State) : Prop where
  /-- `HUE` is a multiple of 6 and at most 1530 (R33 (a)). -/
  hue : s.hue.toNat % 6 = 0 ∧ s.hue.toNat ≤ 1530
  /-- `LEDCNT` is at most `LED_COUNT_MAX` (R33 (b)). -/
  countMax : s.ledcnt ≤ s.params.ledCountMax
  /-- `LEDCNT` is 0 while `LEDCFG` is 0 (R33 (b)). -/
  countUnconfigured : s.status.ledcfg = false → s.ledcnt = 0
  /-- The buffer lists exactly the records 0 to `LEDCNT` - 1 (R14). -/
  records : s.buf.map Prod.fst = List.range s.ledcnt
  /-- `BL_STATE` is OFF whenever the block is READY (R23, R33 (d)). -/
  readyOff : s.ready = true → s.blState = .off
  /-- A BUSY block shows, in a blink bounded by elapsed time, a character of the table (43_blink.md R148:
  the only command that can fail to end). The model's choice, because one step runs a whole command; the
  hardware may be BUSY with any command (log entries 7 and 10). -/
  busyBlink : s.ready = false → s.blState = .showing ∧ s.blMode = .elapsed ∧
    (s.status.segcfg = true ∧ s.status.fatal = false) ∧ s.blElapse ≠ 0
  /-- The lines are outputs exactly once `SEGCFG` has ended OK, while nothing has failed (R33 (f); log
  entry 13). -/
  outputs : s.status.fatal = false → s.pinOe = if s.status.segcfg then 0b1111 else 0b0000
  /-- `CLOCK` and `LATCH` rest low while nothing has failed (42_seven_segment.md R128). -/
  pulsesLow : s.status.fatal = false → s.pinClock = false ∧ s.pinLatch = false
  /-- Lines that are not driven have level registers 0 while nothing has failed (R20). -/
  undriven : s.status.fatal = false → s.status.segcfg = false →
    s.pinData = false ∧ s.pinClear = false
  /-- No command ends with code 2 (60_exceptions.md R157). -/
  codeProduced : s.status.code ≠ .typeConstraint
  /-- `FATAL` is 1 exactly if an event has failed since reset (60_exceptions.md R161). -/
  fatalIff : s.status.fatal = s.trace.any (fun e => e.answer == .fail)
  /-- Nothing was emitted after a failed event (60_exceptions.md R160, R161). -/
  failedLast : s.trace.dropLast.all (fun e => e.answer == .done) = true
  /-- `Wait` cannot fail (60_exceptions.md R160). -/
  waitsDone : ∀ e ∈ s.trace, e.event.answered = false → e.answer = .done

/-- The collaborator answers done to the next `n` events: the premise every claim about a complete trace
needs (60_exceptions.md R160). -/
def AnswersDone (s : State) (n : Nat) : Prop := ∀ k, k < n → answerAt s k = .done

/-- A run of `n` steps that does not stop, and where it arrives. -/
def RunsTo : Nat → State → State → Prop
  | 0, s, t => t = s
  | n + 1, s, t => ∃ u, step s = .next u ∧ RunsTo n u t

end Sys2Proof.Machine
end

