-- ==== Sys2Proof/Certificates/Slice0/Obligations.lean ====
section
/-! DEFINITION. The statements for the provers. What a rule says is written out here in the rule's own
terms, not through the functions the meanings are made of. -/

namespace Sys2Proof.Claims

open Sys2Proof.Machine

/-- The block without the model's own numbering of the collaborator's answers (log entry 3): what the
rules speak of. -/
def block (s : State) : State := { s with answers := [], freeIdx := 0 }

/-- The end of a command with a code (60_exceptions.md R162, R167; 30_encoding.md R70): `STATUS.CODE` and
`LASTOP`, the response word, `BL_STATE` OFF, the block READY. -/
def ended (op : Byte) (c : Code) (response : Word) (s : State) : State :=
  { s with
    status := { s.status with code := c, lastop := op }
    responses := s.responses ++ [response]
    blState := .off
    ready := true }

/-- The end with `OK` and `DATA` 0. -/
def endedOk (op : Byte) (s : State) : State := ended op .ok 0 s

/-- Events as the trace shows them when each was answered done (60_exceptions.md R160). -/
def sent (evs : List Event) : List TraceEntry := evs.map (fun e => ⟨e, .done⟩)

/-- The state after those events, `ticks` ticks later (60_exceptions.md R173). -/
def emitted (evs : List Event) (ticks : Nat) (s : State) : State :=
  { s with
    trace := s.trace ++ sent evs
    time := s.time + BitVec.ofNat 64 ticks }

/-- The levels of `shift_out(v)` on the three lines, written out (42_seven_segment.md R119). -/
def shifted (v : Byte) : List Event :=
  [.pin .data (!v.getLsbD 7), .pin .clock true, .pin .clock false,
   .pin .data (!v.getLsbD 6), .pin .clock true, .pin .clock false,
   .pin .data (!v.getLsbD 5), .pin .clock true, .pin .clock false,
   .pin .data (!v.getLsbD 4), .pin .clock true, .pin .clock false,
   .pin .data (!v.getLsbD 3), .pin .clock true, .pin .clock false,
   .pin .data (!v.getLsbD 2), .pin .clock true, .pin .clock false,
   .pin .data (!v.getLsbD 1), .pin .clock true, .pin .clock false,
   .pin .data (!v.getLsbD 0), .pin .clock true, .pin .clock false,
   .pin .latch false, .pin .latch true, .pin .latch false]

/-- The events of `clear_seq()` (42_seven_segment.md R121). -/
def cleared : List Event :=
  [.pin .clear true, .pin .clear false, .pin .clear true] ++ shifted 0

/-- The events of `putc_seq` for a pattern and a delay (42_seven_segment.md R123). -/
def shown (p : Byte) (d : Nat) : List Event := shifted p ++ [.wait d]

/-- The events of one blink cycle (43_blink.md R147). -/
def blinkCycleEvents (p : Byte) (lit dark : Nat) : List Event :=
  shifted p ++ [.wait lit] ++ cleared ++ [.wait dark]

/-- `n` cycles. -/
def blinkCycles (p : Byte) (lit dark : Nat) : Nat → List Event
  | 0 => []
  | n + 1 => blinkCycleEvents p lit dark ++ blinkCycles p lit dark n

/-- The colour of hue `h`, the table of 40_color_wheel.md R86, for `h` at most 1535. -/
def wheel (h : Nat) : Rgb :=
  let up : Byte := BitVec.ofNat 8 (h % 256)
  let down : Byte := BitVec.ofNat 8 (255 - h % 256)
  if h < 256 then ⟨255, up, 0⟩
  else if h < 512 then ⟨down, 255, 0⟩
  else if h < 768 then ⟨0, 255, up⟩
  else if h < 1024 then ⟨0, down, 255⟩
  else if h < 1280 then ⟨up, 0, 255⟩
  else ⟨255, 0, down⟩

/-- The record `{GLOBAL_BRIGHTNESS, b, g, r}` of hue `h` (41_led_strip.md R103). -/
def wheelRecord (p : Params) (h : Nat) : LedRecord :=
  ⟨p.globalBrightness, (wheel h).blue, (wheel h).green, (wheel h).red⟩

/-- The four bytes of one LED in a frame (41_led_strip.md R109). -/
def ledGroup (r : LedRecord) : List Event :=
  [.byte (0xE0 ||| r.brightness.setWidth 8), .byte r.blue, .byte r.green, .byte r.red]

/-- The groups of records `i` to `i + n - 1`. -/
def ledGroups (m : Buffer) (i : Nat) : Nat → List Event
  | 0 => []
  | n + 1 => ledGroup (Buffer.read m i) ++ ledGroups m (i + 1) n

/-- The events of a frame of `n` LEDs (41_led_strip.md R109). -/
def frame (m : Buffer) (n : Nat) : List Event :=
  [.byte 0, .byte 0, .byte 0, .byte 0] ++ ledGroups m 0 n ++
  [.byte 0xFF, .byte 0xFF, .byte 0xFF, .byte 0xFF]

/-- A run of `k` commands of one kind, each ending in a next state. -/
def RepeatsTo (i : Instr) : Nat → State → State → Prop
  | 0, s, t => t = s
  | k + 1, s, t => ∃ u, exec i s = .next u ∧ RepeatsTo i k u t

/-- `FATAL` = 1: the command ends with `HardwareIO` at its first test (60_exceptions.md R161). -/
def FatalRefuses (i : Instr) (op : Byte) : Prop :=
  ∀ s : State, s.status.fatal = true → exec i s = .next (ended op .hardwareIO 3 s)

/-- `led_preamble` (41_led_strip.md R97). -/
def LedPreamble (i : Instr) (op : Byte) : Prop :=
  FatalRefuses i op ∧
  ∀ s : State, s.status.fatal = false → s.status.ledcfg = false →
    exec i s = .next (ended op .notConfigured 4 s)

/-- `seg_preamble` (42_seven_segment.md R118). -/
def SegPreamble (i : Instr) (op : Byte) : Prop :=
  FatalRefuses i op ∧
  ∀ s : State, s.status.fatal = false → s.status.segcfg = false →
    exec i s = .next (ended op .notConfigured 4 s)

/-- The seven-segment unit can run a command. -/
def SegUsable (s : State) : Prop := s.status.fatal = false ∧ s.status.segcfg = true

/-- The LED unit can run a command. -/
def LedUsable (s : State) : Prop := s.status.fatal = false ∧ s.status.ledcfg = true

/-- What a failed event leaves of a command that was to emit `evs`: the events before it done, it alone
marked failed and the last of the trace, the rest not sent; `HardwareIO`, `FATAL` set, the response sent,
the block READY (60_exceptions.md R160, R161, R162). -/
def FailedAt (evs : List Event) (k : Nat) (op : Byte) (s t : State) : Prop :=
  (∃ e, evs[k]? = some e ∧ t.trace = s.trace ++ sent (evs.take k) ++ [⟨e, .fail⟩]) ∧
  t.status = ⟨.hardwareIO, s.status.ledcfg, s.status.segcfg, true, op⟩ ∧
  t.responses = s.responses ++ [3] ∧ t.blState = .off ∧ t.ready = true

/-- Every architectural state but the trace, `TIME`, the line registers, `STATUS`, the response and the
blink registers is as it was. -/
def SameStores (s t : State) : Prop :=
  t.hue = s.hue ∧ t.ledcnt = s.ledcnt ∧ t.buf = s.buf ∧ t.res = s.res ∧ t.defdelay = s.defdelay ∧
  t.params = s.params ∧ t.past = s.past ∧ t.inputs = s.inputs

/-- The line registers are as they were. -/
def SameLines (s t : State) : Prop :=
  t.pinData = s.pinData ∧ t.pinClock = s.pinClock ∧ t.pinLatch = s.pinLatch ∧
  t.pinClear = s.pinClear ∧ t.pinOe = s.pinOe

/-- The blink registers of 10_state.md R24 to R27 are as they were. -/
def SameBlink (s t : State) : Prop :=
  t.blMode = s.blMode ∧ t.blChar = s.blChar ∧ t.blShow = s.blShow ∧ t.blIdle = s.blIdle ∧
  t.blCnt = s.blCnt ∧ t.blT0 = s.blT0 ∧ t.blElapse = s.blElapse

/-- The blink operands are legal (43_blink.md R138). -/
def BlinkLegal (period dutyQ last : Word) : Prop :=
  0 ≤ period.toInt ∧ 0 ≤ dutyQ.toInt ∧ dutyQ.toInt ≤ 65536 ∧ 0 ≤ last.toInt

/-- A `BLINKC` or `BLINK` with legal operands and an unknown character. -/
def UnknownBlink (i : Instr) (s : State) : Prop :=
  ∃ c p q n, (i = .blinkc c p q n ∨ i = .blink c p q n) ∧ BlinkLegal p q n ∧
    segLookup s.params c = none

/-- `show` of 43_blink.md R137. -/
def lit (period dutyQ : Word) : Nat := period.toNat * dutyQ.toNat / 65536

/-- `idle` of 43_blink.md R137. -/
def dark (period dutyQ : Word) : Nat := period.toNat - lit period dutyQ

/-- The packets among the inputs, in order. -/
def packets (inputs : List HostInput) : List HostInput :=
  inputs.filter (fun x => match x with
    | .packet _ _ => true
    | .idle _ => false
    | .reset _ => false)

/-- The host only waits with packets. -/
def OnlyPackets (inputs : List HostInput) : Prop := packets inputs = inputs

/-- No reset is to come directly: a packet in front of these inputs runs undisturbed. -/
def NoResetBehind (inputs : List HostInput) : Prop := ∀ n rest, inputs ≠ .reset n :: rest

/-- The block after reset (10_state.md section 10, 70_reset_and_hazards.md R180), applied to `s`: every
register at its reset value, the trace empty, the block READY; no response was sent and no parameter changed
(log entries 1 and 12). -/
def AfterReset (s t : State) : Prop :=
  t.ready = true ∧ t.hue = 0 ∧ t.ledcnt = 0 ∧ t.res = 0 ∧ t.status.word = 0x0000 ∧ t.defdelay = 0 ∧
  t.pinData = false ∧ t.pinClock = false ∧ t.pinLatch = false ∧ t.pinClear = false ∧
  t.pinOe = 0b0000 ∧ t.time = 0 ∧ t.blState = .off ∧ t.blMode.bits = 0 ∧ t.blChar = 0 ∧ t.blShow = 0 ∧
  t.blIdle = 0 ∧ t.blCnt = 0 ∧ t.blT0 = 0 ∧ t.blElapse = 0 ∧ t.trace = [] ∧
  t.responses = s.responses ∧ t.params = s.params

/-- The characters all have a pattern, in order these. -/
def Patterns (p : Params) : List Byte → List Byte → Prop
  | [], [] => True
  | c :: cs, v :: vs => segLookup p c = some v ∧ Patterns p cs vs
  | _, _ => False

/-- The events of a string (42_seven_segment.md R126). -/
def stringShown (d : Nat) : List Byte → List Event
  | [] => []
  | v :: vs => shown v d ++ stringShown d vs

end Sys2Proof.Claims

open Sys2Proof Sys2Proof.Machine Sys2Proof.Claims

/-! ## Encoding -/

/-- Words written out from 30_encoding.md R61 to R66 (the packets of 95_test_vectors.md 2.5 and Part 3)
decode to the commands they stand for, and malformed ones are rejected by name. -/
def Obligations.SpecPacketsDecode : Prop :=
  decode [0x00000001, 0x00000280] = .ok (.hue2rgb 640) ∧
  decode [0x00010010, 0x00000000] = .ok (.configure true 0) ∧
  decode [0x00000011, 0x00000001, 0x1F0000FF] = .ok (.set 1 0x1F0000FF) ∧
  decode [0x00000012] = .ok .advance ∧
  decode [0x00000013] = .ok .scroll ∧
  decode [0x00000014] = .ok .render ∧
  decode [0x00000020, 0x000001F4] = .ok (.segcfg 500) ∧
  decode [0x00000021, 0xFFFFFFFF] = .ok (.write 0xFFFFFFFF) ∧
  decode [0x00000022] = .ok .clear ∧
  decode [0x00004623, 0x00000007] = .ok (.putc 0x46 7) ∧
  decode [0x00000224, 0x0000000A, 0x00006631] = .ok (.puts false 10 [0x31, 0x66]) ∧
  decode [0x00003830, 0x00000064, 0x00008000, 0x00000003] = .ok (.blinkc 0x38 100 32768 3) ∧
  decode [0x00003831, 0x00000064, 0x00010000, 0x000000FA] = .ok (.blink 0x38 100 65536 250) ∧
  decode [0x00010012] = .error .dfNotAllowed ∧
  decode [0x00020012] = .error .reservedBits ∧
  decode [0x00000112] = .error .aNotZero ∧
  decode [0x00000012, 0] = .error .wrongLength ∧
  decode [0x00000015] = .error .reservedOpcode ∧
  decode [0x00010010, 5] = .error .operandWithDefault ∧
  decode [0x00000324, 0, 0x01616161] = .error .paddingNotZero

/-- Decoding the encoding of a well-formed command gives the command back, every operand at every value
the encoding admits (92_eei_decisions.md D27: "decode and encode are inverse"). -/
def Obligations.DecodeOfEncodeIsTheCommand : Prop :=
  ∀ i : Instr, i.wellFormed = true → decode (encode i) = .ok i

/-- A packet that decodes is the encoding of its command, bit for bit: no bit of a legal packet is
dropped (93_implementation_defined.md U15: "if the decoded command keeps the whole word, `decode` and
`encode` are exact inverses"). -/
def Obligations.EncodeOfDecodeIsThePacket : Prop :=
  ∀ (p : List Word) (i : Instr), decode p = .ok i → i.wellFormed = true ∧ encode i = p

/-- Which packets are legal: the seven steps of 30_encoding.md R68 in plain arithmetic on the words. -/
def Obligations.LegalPacketsAreExactlyThese : Prop :=
  ∀ (h : Word) (ws : List Word),
    let op := h.toNat % 256
    let a := h.toNat / 256 % 256
    let df := h.toNat / 65536 % 2
    (∃ i, decode (h :: ws) = .ok i) ↔
      (op ∈ [0x01, 0x10, 0x11, 0x12, 0x13, 0x14, 0x20, 0x21, 0x22, 0x23, 0x24, 0x30, 0x31] ∧
       h.toNat / 131072 = 0 ∧
       (a = 0 ∨ op ∈ [0x23, 0x24, 0x30, 0x31]) ∧
       (df = 0 ∨ op ∈ [0x10, 0x24]) ∧
       (op ∈ [0x12, 0x13, 0x14, 0x22] → ws.length = 0) ∧
       (op ∈ [0x01, 0x10, 0x20, 0x21, 0x23] → ws.length = 1) ∧
       (op = 0x11 → ws.length = 2) ∧
       (op ∈ [0x30, 0x31] → ws.length = 3) ∧
       (op = 0x24 → ws.length = 1 + (a + 3) / 4) ∧
       (df = 1 → ws.getD 0 0 = 0) ∧
       (op = 0x24 → ∀ k, a ≤ k → k < 4 * (ws.length - 1) →
         (ws.getD (1 + k / 4) 0).toNat / 2 ^ (8 * (k % 4)) % 256 = 0))

/-- The length of a packet that decodes is a function of its header alone, between 1 and 66 words, and
only `PUTS` varies (30_encoding.md R67). -/
def Obligations.PacketLengthComesFromTheHeader : Prop :=
  ∀ (h : Word) (ws : List Word) (i : Instr), decode (h :: ws) = .ok i →
    ws.length + 1 = packetLength h ∧ 1 ≤ packetLength h ∧ packetLength h ≤ 66 ∧
    packetLength h =
      match i with
      | .advance => 1
      | .scroll => 1
      | .render => 1
      | .clear => 1
      | .hue2rgb _ => 2
      | .write _ => 2
      | .configure _ _ => 2
      | .segcfg _ => 2
      | .putc _ _ => 2
      | .set _ _ => 3
      | .blinkc _ _ _ _ => 4
      | .blink _ _ _ _ => 4
      | .puts _ _ cs => 2 + (cs.length + 3) / 4

/-- A byte channel carries each word with bits [7:0] first, gives the words back, and carries the
characters of a `PUTS` in reading order from byte 8 on (20_memory.md R45). -/
def Obligations.ByteChannelIsLittleEndian : Prop :=
  (∀ ws : List Word, wordsOfBytes (bytesOfWords ws) = some ws) ∧
  (∀ (ws : List Word) (k : Nat), k < 4 * ws.length →
    ((bytesOfWords ws).getD k 0).toNat = (ws.getD (k / 4) 0).toNat / 2 ^ (8 * (k % 4)) % 256) ∧
  (∀ (df : Bool) (d : Word) (cs : List Byte) (k : Nat), k < cs.length →
    (bytesOfWords (encode (.puts df d cs))).getD (8 + k) 0 = cs.getD k 0)

/-! ## The step -/

/-- A READY block with a packet at its command port that decodes to a command takes the packet and runs
exactly that command, BUSY while it runs (10_state.md R11), unless a reset comes directly behind the packet,
which `ResetCutsACommandShort` speaks of. -/
def Obligations.StepRunsTheDecodedCommand : Prop :=
  ∀ (s : State) (h : Word) (ws : List Word) (rest : List HostInput) (i : Instr),
    s.ready = true → s.inputs = .packet h ws :: rest → NoResetBehind rest → decode (h :: ws) = .ok i →
    step s = exec i { s with ready := false, inputs := rest }

/-- A packet that does not decode ends with `IllegalCommand` whatever the block's state, `FATAL` or not:
`STATUS.CODE` and `LASTOP` (bits [7:0] of word 0), the response 5, nothing else (60_exceptions.md R159). -/
def Obligations.IllegalPacketChangesOnlyStatus : Prop :=
  ∀ (s : State) (h : Word) (ws : List Word) (rest : List HostInput) (r : Illegal),
    s.ready = true → s.blState = .off → s.inputs = .packet h ws :: rest → NoResetBehind rest →
    decode (h :: ws) = .error r →
    step s = .next { s with
      inputs := rest
      status := { s.status with code := .illegalCommand, lastop := BitVec.ofNat 8 (h.toNat % 256) }
      responses := s.responses ++ [5] }

/-- Reset (70_reset_and_hazards.md R180, R182): applied to a READY block, and to a BUSY one whatever packets
wait at the command port, it gives every register its reset value, empties the trace, sends no response and
no event, takes nothing back of what was sent, and leaves the block READY. That the parameters, the responses
already sent and the host's later inputs stay is the model's own (log entries 1, 2, 12, 22). -/
def Obligations.ResetRestoresEveryRegister : Prop :=
  ∀ s : State,
    (s.ready = true → ∀ n rest, s.inputs = .reset n :: rest →
      ∃ t, step s = .next t ∧ AfterReset s t ∧ t.past = s.past ++ s.trace ∧ t.inputs = rest) ∧
    (s.ready = false → ∀ waiting rest, s.inputs = waiting ++ .reset 0 :: rest → OnlyPackets waiting →
      ∃ t, step s = .next t ∧ AfterReset s t ∧ t.past = s.past ++ s.trace ∧ t.inputs = waiting ++ rest)

/-- A reset in the middle of a command (70_reset_and_hazards.md R180, R182, R190), whichever the command: let
it come after `n` more events. If the command emits that many, it is abandoned there: the events up to the
`n`-th have left the block and no later one, no response is sent, every register takes its reset value. If
it ends with fewer, it has ended as if nothing had come and the reset follows. Counting the place of a reset
in events is the model's own (log entries 8 and 22). -/
def Obligations.ResetCutsACommandShort : Prop :=
  ∀ (s u : State) (h : Word) (ws : List Word) (n : Nat) (rest : List HostInput) (i : Instr),
    s.ready = true → s.inputs = .packet h ws :: .reset n :: rest → decode (h :: ws) = .ok i →
    exec i { s with ready := false, inputs := .reset n :: rest } = .next u →
    (s.trace.length + n ≤ u.trace.length →
      ∃ t, step s = .next t ∧ AfterReset s t ∧
        t.past = s.past ++ u.trace.take (s.trace.length + n) ∧ t.inputs = rest) ∧
    (u.trace.length < s.trace.length + n →
      step s = .next { u with inputs := .reset (s.trace.length + n - u.trace.length) :: rest })

/-- The same for a blink that has already run over several steps (70_reset_and_hazards.md R190; log entries 7
and 8), whatever packets wait at the command port: `u` is where the block would be without the reset. -/
def Obligations.ResetCutsABusyBlockShort : Prop :=
  ∀ (s u : State) (n : Nat) (waiting rest : List HostInput),
    s.ready = false → s.inputs = waiting ++ .reset n :: rest → OnlyPackets waiting →
    step { s with inputs := waiting } = .next u →
    (s.trace.length + n ≤ u.trace.length →
      ∃ t, step s = .next t ∧ AfterReset s t ∧
        t.past = s.past ++ u.trace.take (s.trace.length + n) ∧ t.inputs = waiting ++ rest) ∧
    (u.trace.length < s.trace.length + n →
      step s =
        .next { u with inputs := waiting ++ .reset (s.trace.length + n - u.trace.length) :: rest })

/-- Between commands only `TIME` moves, by what the host lets pass, modulo 2^64 (60_exceptions.md R173;
log entry 2); with nothing from the host the block waits for a command, unchanged (log entry 14). -/
def Obligations.WaitingBlockOnlyLetsTimePass : Prop :=
  ∀ s : State, s.ready = true →
    (s.inputs = [] → step s = .next s) ∧
    ∀ (d : Nat) (rest : List HostInput), s.inputs = .idle d :: rest →
      step s = .next { s with inputs := rest, time := s.time + BitVec.ofNat 64 d }

/-- A BUSY block takes no packet: after a step of it every packet is still at the command port, whether or
not a reset came (70_reset_and_hazards.md R188, R190). -/
def Obligations.BusyBlockTakesNoPacket : Prop :=
  ∀ s : State, s.ready = false → s.blState ≠ .off →
    ∃ t, step s = .next t ∧ packets t.inputs = packets s.inputs

/-! ## Invariants -/

/-- Every step, whatever the host does and the collaborator answers, keeps the invariant `Machine.Inv`: `HUE`
a multiple of 6 up to 1530; `LEDCNT` at most `LED_COUNT_MAX` and 0 while not configured; the buffer lists
exactly the records in use; `BL_STATE` OFF when READY; while nothing has
failed the lines are outputs exactly if `SEGCFG` is 1, `CLOCK` and `LATCH` rest low and undriven lines read 0
(log entry 13); no code 2; `FATAL` exactly if an event has failed, nothing emitted after a failed event, and
no failed wait (10_state.md R14, R20, R23, R33; 42_seven_segment.md R128; 60_exceptions.md R157, R160, R161). One
clause is no rule of the spec but the model's choice, because one step runs a whole command (log entries 7
and 10): a BUSY block, which in hardware may run any command, shows in a `BLINK` with time left, with `SEGCFG`
1 and `FATAL` 0. -/
def Obligations.EveryStepKeepsTheInvariant : Prop :=
  ∀ s t : State, Inv s → step s = .next t → Inv t

/-- The reset state meets the invariant. -/
def Obligations.ResetMeetsTheInvariant : Prop := Inv State.reset

/-- From a state of the invariant a step never stops: no fault, no refusal. -/
def Obligations.InvariantStatesContinue : Prop := ∀ s : State, Inv s → Continues s

/-- The parameters never change (00_scope.md R5: "fixed per implementation"; that they stand in the state
is log entry 1), and the packets are taken in the order they arrive, at most one a step (10_state.md R11). -/
def Obligations.ParametersNeverChange : Prop :=
  ∀ s t : State, step s = .next t →
    t.params = s.params ∧
    (packets s.inputs = packets t.inputs ∨ ∃ x, packets s.inputs = x :: packets t.inputs)

/-! ## Errors -/

/-- `HardwareIO` is sticky: with `FATAL` = 1 every command ends with it at its first test, without any
event or state change; a command that ends with it sets `FATAL`; no step but a reset clears it
(60_exceptions.md R161). -/
def Obligations.HardwareIOIsSticky : Prop :=
  (∀ (i : Instr) (s : State), s.status.fatal = true →
    exec i s = .next (ended i.op.code .hardwareIO 3 s)) ∧
  (∀ (i : Instr) (s t : State), exec i s = .next t → t.ready = true →
    t.status.code = .hardwareIO → t.status.fatal = true) ∧
  (∀ s t : State, s.status.fatal = true → step s = .next t →
    t.status.fatal = true ∨ ((∃ n, .reset n ∈ s.inputs) ∧ AfterReset s t))

/-- `NotConfigured`: which commands end with it, before any operand is looked at, changing nothing; and
the three that never do (60_exceptions.md R158). -/
def Obligations.UnconfiguredUnitsRefuse : Prop :=
  (∀ (i : Instr) (s : State), i.op ∈ [Op.set, .advance, .scroll, .render] →
    s.status.fatal = false → s.status.ledcfg = false →
    exec i s = .next (ended i.op.code .notConfigured 4 s)) ∧
  (∀ (i : Instr) (s : State), i.op ∈ [Op.write, .clear, .putc, .puts, .blinkc, .blink] →
    s.status.fatal = false → s.status.segcfg = false →
    exec i s = .next (ended i.op.code .notConfigured 4 s)) ∧
  (∀ (i : Instr) (s t : State), i.op ∈ [Op.hue2rgb, .configure, .segcfg] → exec i s = .next t →
    t.status.code ≠ .notConfigured)

/-- Which codes a command can end with (60_exceptions.md R155, R156, R157): never `TypeConstraint`, never
`IllegalCommand`, and `InvalidArgument` never from a command without an operand that can be invalid. -/
def Obligations.CodesACommandCanEndWith : Prop :=
  ∀ (i : Instr) (s t : State), exec i s = .next t → t.ready = true →
    t.status.code ≠ .typeConstraint ∧ t.status.code ≠ .illegalCommand ∧
    (i.op ∈ [Op.advance, .scroll, .render, .clear, .segcfg] → t.status.code ≠ .invalidArgument)

/-- Every command that ends produces exactly one response record (30_encoding.md R70): `CODE` in [2:0],
0 in [7:3], and `DATA` the new `RES` for a `HUE2RGB` ending OK, else 0. A command that does not end is a
`BLINK`, and it has sent none (43_blink.md R148). -/
def Obligations.OneResponsePerCommand : Prop :=
  ∀ (i : Instr) (s t : State), exec i s = .next t →
    (t.ready = true ∧ ∃ w : Word, t.responses = s.responses ++ [w] ∧
      w.extractLsb' 0 3 = t.status.code.bits ∧ w.extractLsb' 3 5 = 0 ∧
      w.extractLsb' 8 24 =
        (if i.op = .hue2rgb ∧ t.status.code = .ok then t.res else 0)) ∨
    (t.ready = false ∧ i.op = .blink ∧ t.responses = s.responses)

/-- What the end of a command writes into `STATUS` (10_state.md R17, 60_exceptions.md R162, R167):
`LASTOP` is the opcode, `FATAL` is set by `HardwareIO` and by nothing else, `LEDCFG` and `SEGCFG` are set by
their commands ending OK and by nothing else, and bits [7:6] read 0. -/
def Obligations.StatusAfterACommand : Prop :=
  ∀ (i : Instr) (s t : State), exec i s = .next t → t.ready = true →
    t.status.lastop = i.op.code ∧
    t.status.fatal = (s.status.fatal || decide (t.status.code = .hardwareIO)) ∧
    t.status.ledcfg = (s.status.ledcfg || decide (i.op = .configure ∧ t.status.code = .ok)) ∧
    t.status.segcfg = (s.status.segcfg || decide (i.op = .segcfg ∧ t.status.code = .ok)) ∧
    t.status.word.extractLsb' 6 2 = 0 ∧ t.status.word.extractLsb' 8 8 = i.op.code ∧
    t.status.word.extractLsb' 0 3 = t.status.code.bits

/-- What a command does to the trace, and the answers it takes (60_exceptions.md R160): events are only
added, each answered one takes the next answer, at most the last one is failed, and then, and only then,
a command that was not refused at its first test ends with `HardwareIO`. The counting of answers is the
model's own (log entry 3). -/
def Obligations.EventsTakeTheAnswersInOrder : Prop :=
  ∀ (i : Instr) (s t : State), exec i s = .next t →
    ∃ new : List TraceEntry, t.trace = s.trace ++ new ∧
      t.answers = s.answers.drop (new.filter (fun e => e.event.answered)).length ∧
      t.freeIdx = s.freeIdx + (new.filter (fun e => e.event.answered)).length ∧
      (new.filter (fun e => e.event.answered)).map TraceEntry.answer =
        (List.range (new.filter (fun e => e.event.answered)).length).map (answerAt s) ∧
      (∀ e ∈ new.dropLast, e.answer = .done) ∧
      (∀ e ∈ new, e.event.answered = false → e.answer = .done) ∧
      (s.status.fatal = false → t.ready = true →
        (t.status.code = .hardwareIO ↔ ∃ e ∈ new, e.answer = .fail))

/-- `TIME` moves by the events of a command and by nothing else, modulo 2^64 (60_exceptions.md R172, R173;
that a failed event takes its ticks too is log entry 11). -/
def Obligations.TimeMovesByTheEvents : Prop :=
  ∀ (i : Instr) (s t : State), exec i s = .next t →
    ∃ new : List TraceEntry, t.trace = s.trace ++ new ∧
      t.time = s.time + BitVec.ofNat 64 ((new.map (fun e =>
        match e.event with
        | .wait d => d
        | .pin _ _ => s.params.tPin
        | .pinDir _ => s.params.tPin
        | .byte _ => s.params.tByte
        | .busMode _ => s.params.tByte
        | .busBitOrder _ => s.params.tByte
        | .busFreq _ => s.params.tByte)).sum)

/-- Operands out of range are refused with `InvalidArgument` before any event or write
(60_exceptions.md R156, R164; 43_blink.md R138). -/
def Obligations.OperandsOutOfRangeAreRefused : Prop :=
  (∀ (hue : Word) (s : State), s.status.fatal = false → (hue.toInt < 0 ∨ 1535 < hue.toInt) →
    exec (.hue2rgb hue) s = .next (ended 0x01 .invalidArgument 1 s)) ∧
  (∀ (n : Word) (s : State), s.status.fatal = false →
    (n.toInt < 0 ∨ (s.params.ledCountMax : Int) < n.toInt) →
    exec (.configure false n) s = .next (ended 0x10 .invalidArgument 1 s)) ∧
  (∀ (index led : Word) (s : State), LedUsable s →
    (index.toInt < 0 ∨ (s.ledcnt : Int) ≤ index.toInt) →
    exec (.set index led) s = .next (ended 0x11 .invalidArgument 1 s)) ∧
  (∀ (v : Word) (s : State), SegUsable s → (v.toInt < 0 ∨ 255 < v.toInt) →
    exec (.write v) s = .next (ended 0x21 .invalidArgument 1 s)) ∧
  (∀ (c : Byte) (p q n : Word) (s : State), SegUsable s →
    (p.toInt < 0 ∨ q.toInt < 0 ∨ 65536 < q.toInt ∨ n.toInt < 0) →
    exec (.blinkc c p q n) s = .next (ended 0x30 .invalidArgument 1 s) ∧
    exec (.blink c p q n) s = .next (ended 0x31 .invalidArgument 1 s))

/-- A rejected command has no side effect (60_exceptions.md R164): a command that ends with `NotConfigured`, with
`HardwareIO` because `FATAL` is 1, or with `InvalidArgument` (except a `PUTS` whose first character is known)
changes nothing but `STATUS.CODE` and `LASTOP` and emits nothing, and so does a packet that does not decode. Of a
blink refused for its character this holds of the state that means something, without the blink registers that
10_state.md R28 calls meaningless when `BL_STATE` is OFF (log entry 9). -/
def Obligations.RejectedCommandsHaveNoSideEffect : Prop :=
  (∀ (i : Instr) (s t : State), exec i s = .next t → t.ready = true →
    (t.status.code = .notConfigured ∨
     (t.status.code = .hardwareIO ∧ s.status.fatal = true) ∨
     (t.status.code = .invalidArgument ∧
       ∀ df d c cs, i = .puts df d (c :: cs) → segLookup s.params c = none)) →
    (¬ (t.status.code = .invalidArgument ∧ UnknownBlink i s) →
      t = ended i.op.code t.status.code (t.status.code.bits.setWidth 32) s) ∧
    meaningful t =
      meaningful (ended i.op.code t.status.code (t.status.code.bits.setWidth 32) s)) ∧
  (∀ (s : State) (h : Word) (ws : List Word) (rest : List HostInput) (r : Illegal),
    s.ready = true → s.inputs = .packet h ws :: rest → NoResetBehind rest →
    decode (h :: ws) = .error r →
    step s = .next (ended (BitVec.ofNat 8 (h.toNat % 256)) .illegalCommand 5 { s with inputs := rest }))

/-- What each command may write, whatever it ends with (the "written by" of 10_state.md R12 to R27 and
the table of 20_memory.md R41): everything else is unchanged. `SET` writes the record its index names and
no other; `ADVANCE` and `SCROLL` write no record at or above `LEDCNT`. -/
def Obligations.FrameOfEveryCommand : Prop :=
  ∀ (i : Instr) (s t : State), exec i s = .next t →
    (i.op ∉ [Op.configure, .advance, .scroll] → t.hue = s.hue) ∧
    (i.op ≠ .configure → t.ledcnt = s.ledcnt) ∧
    (i.op ∉ [Op.configure, .set, .advance, .scroll] → t.buf = s.buf) ∧
    (∀ index led, i = .set index led → ∀ j, j ≠ index.toInt.toNat →
      Buffer.read t.buf j = Buffer.read s.buf j) ∧
    (i.op ∈ [Op.advance, .scroll] → ∀ j, s.ledcnt ≤ j →
      Buffer.read t.buf j = Buffer.read s.buf j) ∧
    (¬ (i.op = .hue2rgb ∧ t.status.code = .ok) → t.res = s.res) ∧
    (¬ (i.op = .segcfg ∧ t.status.code = .ok) → t.defdelay = s.defdelay) ∧
    (i.op ∈ [Op.hue2rgb, .configure, .set, .advance, .scroll, .render] → SameLines s t) ∧
    (i.op ≠ .segcfg → t.pinOe = s.pinOe) ∧
    (i.op ∈ [Op.write, .putc, .puts] → t.pinClear = s.pinClear) ∧
    (i.op ∉ [Op.blinkc, .blink] → SameBlink s t) ∧
    (i.op ∈ [Op.hue2rgb, .set, .advance, .scroll] → t.trace = s.trace ∧ t.time = s.time) ∧
    t.params = s.params ∧ t.past = s.past ∧ t.inputs = s.inputs

/-! ## Color wheel -/

/-- The hue function is the band table of 40_color_wheel.md R86 on 0..1535, in either implementation, and
`hue_err` is raised exactly above (R91). -/
def Obligations.HueFunctionIsTheBandTable : Prop :=
  ∀ (p : Params) (h : Nat), h < 2048 →
    hueToRgb p (BitVec.ofNat 11 h) = if h < 1536 then some (wheel h) else none

/-- Properties of the wheel (40_color_wheel.md R88): (a) largest channel 255 and smallest 0, with exactly one
channel 0 and exactly one 255 at every hue but the twelve at the band edges; (b) equal
colours at the band edges and across the end of the wheel, elsewhere exactly one channel changes, by 1;
(c) two hues share a colour only across an edge; (d) the values at 0, 255 and 256. -/
def Obligations.WheelIsSaturatedAndContinuous : Prop :=
  ∀ p : Params, ∃ f : Nat → Rgb,
    (∀ h, h < 1536 → hueToRgb p (BitVec.ofNat 11 h) = some (f h)) ∧
    (∀ h, h < 1536 →
      max (f h).red.toNat (max (f h).green.toNat (f h).blue.toNat) = 255 ∧
      min (f h).red.toNat (min (f h).green.toNat (f h).blue.toNat) = 0) ∧
    (∀ h, h < 1536 →
      (([(f h).red.toNat, (f h).green.toNat, (f h).blue.toNat].count 0 = 1 ∧
        [(f h).red.toNat, (f h).green.toNat, (f h).blue.toNat].count 255 = 1) ↔
       (h % 256 ≠ 0 ∧ h % 256 ≠ 255))) ∧
    (∀ h, h < 1536 → h % 256 = 255 → f h = f ((h + 1) % 1536)) ∧
    (∀ h, h < 1536 → h % 256 ≠ 255 →
      ((f h).red.toNat : Int) - (f (h + 1)).red.toNat +
        (((f h).green.toNat : Int) - (f (h + 1)).green.toNat) +
        (((f h).blue.toNat : Int) - (f (h + 1)).blue.toNat) ∈ [(1 : Int), -1] ∧
      (((f h).red = (f (h + 1)).red ∧ (f h).green = (f (h + 1)).green) ∨
       ((f h).red = (f (h + 1)).red ∧ (f h).blue = (f (h + 1)).blue) ∨
       ((f h).green = (f (h + 1)).green ∧ (f h).blue = (f (h + 1)).blue))) ∧
    (∀ h k, h < k → k < 1536 → f h = f k →
      (h % 256 = 255 ∧ k = h + 1) ∨ (h = 0 ∧ k = 1535)) ∧
    f 0 = ⟨255, 0, 0⟩ ∧ f 255 = ⟨255, 255, 0⟩ ∧ f 256 = ⟨255, 255, 0⟩

/-- `HUE_IMPL` is not semantic (40_color_wheel.md R89, 20_memory.md R43): a block with the hue ROM and a
block with logic run every command alike. -/
def Obligations.HueTableAndLogicRunAlike : Prop :=
  ∀ (i : Instr) (s t : State) (u : HueImpl), exec i s = .next t →
    exec i { s with params := { s.params with hueImpl := u } } =
      .next { t with params := { t.params with hueImpl := u } }

/-- `HUE2RGB` (40_color_wheel.md R90): `FATAL` first, then the range, then `RES` and the response data
take the colour; it needs neither unit and emits nothing. -/
def Obligations.Hue2rgbReturnsTheColour : Prop :=
  ∀ hue : Word, FatalRefuses (.hue2rgb hue) 0x01 ∧
    ∀ s : State, s.status.fatal = false →
      ((hue.toInt < 0 ∨ 1535 < hue.toInt) →
        exec (.hue2rgb hue) s = .next (ended 0x01 .invalidArgument 1 s)) ∧
      (0 ≤ hue.toInt → hue.toInt ≤ 1535 →
        exec (.hue2rgb hue) s = .next (ended 0x01 .ok
          (((wheel hue.toNat).red ++ (wheel hue.toNat).green ++ (wheel hue.toNat).blue ++ 0#8 : BitVec 32))
          { s with res :=
              ((wheel hue.toNat).red ++ (wheel hue.toNat).green ++ (wheel hue.toNat).blue : BitVec 24) }))

/-! ## LED strip -/

/-- `CONFIGURE` (41_led_strip.md R95): the first test, the effective count and its range, the three bus
events in order, then `LEDCNT`, `HUE`, the records and `LEDCFG`; a failed bus event leaves `LEDCNT`, `HUE`,
`BUF` and `LEDCFG` unchanged. -/
def Obligations.ConfigureBuildsTheStrip : Prop :=
  ∀ (df : Bool) (w : Word), FatalRefuses (.configure df w) 0x10 ∧
    ∀ s : State, s.status.fatal = false →
      let n : Int := if df then 73 else w.toInt
      let evs : List Event :=
        [.busMode s.params.spiMode, .busBitOrder s.params.spiMsbFirst, .busFreq s.params.spiHz]
      ((n < 0 ∨ (s.params.ledCountMax : Int) < n) →
        exec (.configure df w) s = .next (ended 0x10 .invalidArgument 1 s)) ∧
      (0 ≤ n → n ≤ s.params.ledCountMax → AnswersDone s 3 →
        ∃ t, exec (.configure df w) s = .next t ∧
          block t = block (endedOk 0x10 { emitted evs (3 * s.params.tByte) s with
            ledcnt := n.toNat
            hue := 0
            buf := (List.range n.toNat).map (fun i => (i, s.params.initRecord))
            status := { s.status with ledcfg := true } })) ∧
      (0 ≤ n → n ≤ s.params.ledCountMax → ∀ k, k < 3 → AnswersDone s k → answerAt s k = .fail →
        ∃ t, exec (.configure df w) s = .next t ∧ FailedAt evs k 0x10 s t ∧ SameStores s t ∧
          SameLines s t ∧ SameBlink s t)

/-- `SET` (41_led_strip.md R99): the record of the index takes bits [28:0] of the LED word, brightness in
[28:24], blue, green, red; every other record and every other register is unchanged. -/
def Obligations.SetWritesOneRecord : Prop :=
  ∀ index led : Word, LedPreamble (.set index led) 0x11 ∧
    ∀ s : State, LedUsable s →
      ((index.toInt < 0 ∨ (s.ledcnt : Int) ≤ index.toInt) →
        exec (.set index led) s = .next (ended 0x11 .invalidArgument 1 s)) ∧
      (0 ≤ index.toInt → index.toInt < s.ledcnt →
        ∃ m : Buffer, exec (.set index led) s = .next (endedOk 0x11 { s with buf := m }) ∧
          Buffer.read m index.toNat =
            ⟨BitVec.ofNat 5 (led.toNat / 2 ^ 24), BitVec.ofNat 8 (led.toNat / 2 ^ 16),
             BitVec.ofNat 8 (led.toNat / 2 ^ 8), BitVec.ofNat 8 led.toNat⟩ ∧
          ∀ j, j ≠ index.toNat → Buffer.read m j = Buffer.read s.buf j)

/-- `ADVANCE` (41_led_strip.md R103): `HUE` + 6, set to 0 when the sum exceeds 1535; every record in use
takes `GLOBAL_BRIGHTNESS` and the colour of the new hue; nothing else changes. -/
def Obligations.AdvanceColoursTheStrip : Prop :=
  LedPreamble .advance 0x12 ∧
  ∀ s : State, LedUsable s →
    let h := if s.hue.toNat + 6 > 1535 then 0 else s.hue.toNat + 6
    ∃ m : Buffer,
      exec .advance s = .next (endedOk 0x12 { s with hue := BitVec.ofNat 11 h, buf := m }) ∧
      (∀ j, j < s.ledcnt → Buffer.read m j = wheelRecord s.params h) ∧
      (∀ j, s.ledcnt ≤ j → Buffer.read m j = Buffer.read s.buf j)

/-- `SCROLL` (41_led_strip.md R106): `HUE` + 6, set to 6 when the sum exceeds 1535; the records move up by
one, the last is lost, the new hue's record stands at index 0; nothing else changes. -/
def Obligations.ScrollShiftsTheStrip : Prop :=
  LedPreamble .scroll 0x13 ∧
  ∀ s : State, LedUsable s →
    let h := if s.hue.toNat + 6 > 1535 then 6 else s.hue.toNat + 6
    ∃ m : Buffer,
      exec .scroll s = .next (endedOk 0x13 { s with hue := BitVec.ofNat 11 h, buf := m }) ∧
      (1 ≤ s.ledcnt → Buffer.read m 0 = wheelRecord s.params h) ∧
      (∀ j, 1 ≤ j → j < s.ledcnt → Buffer.read m j = Buffer.read s.buf (j - 1)) ∧
      (∀ j, s.ledcnt ≤ j → Buffer.read m j = Buffer.read s.buf j)

/-- From `HUE` = 0 the k-th `ADVANCE` leaves `HUE` = 6k for k up to 255 and the 256th leaves 0; after each
call every record is the same (41_led_strip.md R104). -/
def Obligations.AdvanceHasPeriod256 : Prop :=
  ∀ s : State, LedUsable s → s.hue = 0 → ∀ k, 1 ≤ k →
    ∃ t, RepeatsTo .advance k s t ∧ t.hue.toNat = 6 * (k % 256) ∧ t.ledcnt = s.ledcnt ∧
      ∀ i j, i < t.ledcnt → j < t.ledcnt → Buffer.read t.buf i = Buffer.read t.buf j

/-- From `HUE` = 0 the k-th `SCROLL` leaves 6k for k up to 255, the 256th leaves 6, and from then on the
period is 255 calls; the length never changes and the newest record is at index 0, with the older ones
behind it (41_led_strip.md R107). -/
def Obligations.ScrollHasPeriod255 : Prop :=
  ∀ s : State, LedUsable s → s.hue = 0 → ∀ k, 1 ≤ k →
    ∃ t, RepeatsTo .scroll k s t ∧ t.hue.toNat = 6 * ((k - 1) % 255 + 1) ∧ t.ledcnt = s.ledcnt ∧
      (∀ j, j < k → j < t.ledcnt →
        Buffer.read t.buf j = wheelRecord s.params (6 * ((k - 1 - j) % 255 + 1))) ∧
      (∀ j, k ≤ j → j < t.ledcnt → Buffer.read t.buf j = Buffer.read s.buf (j - k))

/-- `RENDER` (41_led_strip.md R109, R111): four bytes 0, then header, blue, green, red of each record from
index 0, then four bytes 0xFF, and no wait; it changes no register but `STATUS` and `TIME`. If byte k fails,
the bytes up to it are in the trace and the rest is not sent. -/
def Obligations.RenderSendsTheFrame : Prop :=
  LedPreamble .render 0x14 ∧
  ∀ s : State, LedUsable s →
    (AnswersDone s (8 + 4 * s.ledcnt) →
      ∃ t, exec .render s = .next t ∧
        block t = block (endedOk 0x14
          (emitted (frame s.buf s.ledcnt) ((8 + 4 * s.ledcnt) * s.params.tByte) s))) ∧
    (∀ k, k < 8 + 4 * s.ledcnt → AnswersDone s k → answerAt s k = .fail →
      ∃ t, exec .render s = .next t ∧ FailedAt (frame s.buf s.ledcnt) k 0x14 s t ∧
        SameStores s t ∧ SameLines s t ∧ SameBlink s t)

/-- The frame byte by byte (41_led_strip.md R110): 8 + 4 * `LEDCNT` bytes; byte j is 0x00 for j < 4, then
byte f of the 32-bit word `{0b111, BUF[i]}` counted from the top, and 0xFF for the last four. -/
def Obligations.FrameByteFormula : Prop :=
  ∀ s : State, LedUsable s → AnswersDone s (8 + 4 * s.ledcnt) →
    ∃ t, exec .render s = .next t ∧
      t.trace.length = s.trace.length + (8 + 4 * s.ledcnt) ∧
      ∀ j, j < 8 + 4 * s.ledcnt →
        t.trace[s.trace.length + j]? = some ⟨.byte (
          if j < 4 then 0x00
          else if j < 4 + 4 * s.ledcnt then
            let r := Buffer.read s.buf ((j - 4) / 4)
            let w : Word := (0b111#3 ++ r.brightness ++ r.blue ++ r.green ++ r.red : BitVec 32)
            BitVec.ofNat 8 (w.toNat / 2 ^ (24 - 8 * ((j - 4) % 4)))
          else 0xFF), .done⟩

/-- A `RENDER` issued twice emits the same bytes twice, and a `SET` with the same operands twice leaves the
same memory as once (20_memory.md R50). -/
def Obligations.RenderAndSetRepeatHarmlessly : Prop :=
  (∀ s t : State, LedUsable s → AnswersDone s (2 * (8 + 4 * s.ledcnt)) →
    RepeatsTo .render 2 s t →
    t.trace = s.trace ++ sent (frame s.buf s.ledcnt) ++ sent (frame s.buf s.ledcnt) ∧
      t.buf = s.buf ∧ t.hue = s.hue) ∧
  (∀ (index led : Word) (s t u : State), LedUsable s → exec (.set index led) s = .next t →
    exec (.set index led) t = .next u →
    u = { t with responses := u.responses })

/-! ## Seven-segment -/

/-- `SEGCFG` (42_seven_segment.md R115): the four lines become outputs driven low in the order DATA, CLOCK,
LATCH, CLEAR, then `DEFDELAY` and `STATUS.SEGCFG`; if one fails, `DEFDELAY` and `SEGCFG` are unchanged and the
lines configured so far stay outputs at 0. -/
def Obligations.SegcfgDrivesTheLinesLow : Prop :=
  ∀ d : Word, FatalRefuses (.segcfg d) 0x20 ∧
    ∀ s : State, s.status.fatal = false →
      let evs : List Event := [.pinDir .data, .pinDir .clock, .pinDir .latch, .pinDir .clear]
      (AnswersDone s 4 →
        ∃ t, exec (.segcfg d) s = .next t ∧
          block t = block (endedOk 0x20 { emitted evs (4 * s.params.tPin) s with
            pinOe := 0b1111
            pinData := false
            pinClock := false
            pinLatch := false
            pinClear := false
            defdelay := d
            status := { s.status with segcfg := true } })) ∧
      (∀ k, k < 4 → AnswersDone s k → answerAt s k = .fail →
        ∃ t, exec (.segcfg d) s = .next t ∧ FailedAt evs k 0x20 s t ∧ SameStores s t ∧ SameBlink s t ∧
          (1 ≤ k → t.pinData = false ∧ t.pinOe.getLsbD 0 = true) ∧
          (2 ≤ k → t.pinClock = false ∧ t.pinOe.getLsbD 1 = true) ∧
          (3 ≤ k → t.pinLatch = false ∧ t.pinOe.getLsbD 2 = true) ∧
          (k < 3 → t.pinClear = s.pinClear ∧ t.pinOe.getLsbD 3 = s.pinOe.getLsbD 3))

/-- The segment table's domain (42_seven_segment.md R116, for parameters that meet R5, R116 and R117):
exactly the nineteen folded codes have a pattern, an upper-case letter has its lower-case letter's, and
the two constraints of R117 hold. -/
def Obligations.SegmentLookupIsCaseInsensitive : Prop :=
  ∀ p : Params, paramsOk p = true →
    (∀ c : Byte, 0x41 ≤ c.toNat → c.toNat ≤ 0x5A → segLookup p c = segLookup p (c + 0x20)) ∧
    (∀ c : Byte, ¬ (0x41 ≤ c.toNat ∧ c.toNat ≤ 0x5A) →
      ((segLookup p c).isSome ↔
        (0x30 ≤ c.toNat ∧ c.toNat ≤ 0x39) ∨ (0x61 ≤ c.toNat ∧ c.toNat ≤ 0x66) ∨ c = 0x20 ∨ c = 0x2E ∨
          c = foldCase p.allonChar)) ∧
    segLookup p 0x20 = some 0x00 ∧ segLookup p p.allonChar = some 0xFF

/-- `WRITE` (42_seven_segment.md R119): the preamble, the range, then `shift_out` of the byte: 27 pin events,
most significant bit first, each bit as its complement on DATA with one clock pulse, then the latch pulse;
a failed pin event ends it with the events so far in the trace. -/
def Obligations.WriteShiftsOneByte : Prop :=
  ∀ value : Word, SegPreamble (.write value) 0x21 ∧
    ∀ s : State, SegUsable s →
      let v : Byte := BitVec.ofNat 8 value.toNat
      ((value.toInt < 0 ∨ 255 < value.toInt) →
        exec (.write value) s = .next (ended 0x21 .invalidArgument 1 s)) ∧
      (0 ≤ value.toInt → value.toInt ≤ 255 → AnswersDone s 27 →
        ∃ t, exec (.write value) s = .next t ∧
          block t = block (endedOk 0x21 { emitted (shifted v) (27 * s.params.tPin) s with
            pinData := !v.getLsbD 0
            pinClock := false
            pinLatch := false })) ∧
      (0 ≤ value.toInt → value.toInt ≤ 255 → ∀ k, k < 27 → AnswersDone s k → answerAt s k = .fail →
        ∃ t, exec (.write value) s = .next t ∧ FailedAt (shifted v) k 0x21 s t ∧ SameStores s t ∧
          SameBlink s t ∧ t.pinClear = s.pinClear ∧ t.pinOe = s.pinOe)

/-- `shift_out` emits exactly 27 pin events: 8 on DATA, 16 on CLOCK, 3 on LATCH, none on CLEAR, no wait;
after it CLOCK and LATCH are 0 and DATA is the complement of bit 0; it takes 27 * `T_PIN` ticks
(42_seven_segment.md R120). -/
def Obligations.ShiftOutEmits27Events : Prop :=
  ∀ (v : Byte) (s : State), AnswersDone s 27 →
    ∃ t new, shiftOut v s = .ok t ∧ t.trace = s.trace ++ sent new ∧ new.length = 27 ∧
      (new.filter (fun e => decide (e = .pin .data true) || decide (e = .pin .data false))).length = 8 ∧
      (new.filter (fun e => decide (e = .pin .clock true) || decide (e = .pin .clock false))).length = 16 ∧
      (new.filter (fun e => decide (e = .pin .latch true) || decide (e = .pin .latch false))).length = 3 ∧
      t.pinClock = false ∧ t.pinLatch = false ∧ t.pinData = !v.getLsbD 0 ∧
      t.pinClear = s.pinClear ∧ t.time = s.time + BitVec.ofNat 64 (27 * s.params.tPin)

/-- `CLEAR` (42_seven_segment.md R121): the clear line high, low, high, then `shift_out(0)`: 30 pin events,
the CLEAR line left high. -/
def Obligations.ClearBlanksTheDisplay : Prop :=
  SegPreamble .clear 0x22 ∧
  ∀ s : State, SegUsable s →
    (AnswersDone s 30 →
      ∃ t, exec .clear s = .next t ∧
        block t = block (endedOk 0x22 { emitted cleared (30 * s.params.tPin) s with
          pinClear := true
          pinData := true
          pinClock := false
          pinLatch := false })) ∧
    (∀ k, k < 30 → AnswersDone s k → answerAt s k = .fail →
      ∃ t, exec .clear s = .next t ∧ FailedAt cleared k 0x22 s t ∧ SameStores s t ∧ SameBlink s t ∧
        t.pinOe = s.pinOe)

/-- `PUTC` (42_seven_segment.md R123): an unknown character is refused before any event; a known one is
shifted out and held for the delay. -/
def Obligations.PutcShowsOneCharacter : Prop :=
  ∀ (c : Byte) (delay : Word), SegPreamble (.putc c delay) 0x23 ∧
    ∀ s : State, SegUsable s →
      (segLookup s.params c = none →
        exec (.putc c delay) s = .next (ended 0x23 .invalidArgument 1 s)) ∧
      (∀ p, segLookup s.params c = some p → AnswersDone s 27 →
        ∃ t, exec (.putc c delay) s = .next t ∧
          block t = block (endedOk 0x23
            { emitted (shown p delay.toNat) (27 * s.params.tPin + delay.toNat) s with
              pinData := !p.getLsbD 0
              pinClock := false
              pinLatch := false })) ∧
      (∀ p, segLookup s.params c = some p → ∀ k, k < 27 → AnswersDone s k → answerAt s k = .fail →
        ∃ t, exec (.putc c delay) s = .next t ∧ FailedAt (shown p delay.toNat) k 0x23 s t ∧
          SameStores s t ∧ SameBlink s t ∧ t.pinClear = s.pinClear ∧ t.pinOe = s.pinOe)

/-- `PUTS` (42_seven_segment.md R126, 90_conflicts.md C3): each character in turn is shown and held for the
delay, `DEFDELAY` with `DF`; if all are known the command ends OK; if the first unknown one is character k,
characters 0 to k - 1 have been shown and it ends with `InvalidArgument`. -/
def Obligations.PutsShowsEachCharacter : Prop :=
  ∀ (df : Bool) (delay : Word) (known more : List Byte),
    SegPreamble (.puts df delay (known ++ more)) 0x24 ∧
    ∀ (s : State) (vs : List Byte), SegUsable s → Patterns s.params known vs →
      AnswersDone s (27 * known.length) →
      let d := if df then s.defdelay.toNat else delay.toNat
      let after := fun (t : State) =>
        { emitted (stringShown d vs) (known.length * (27 * s.params.tPin + d)) s with
          pinData := t.pinData
          pinClock := t.pinClock
          pinLatch := t.pinLatch }
      (∀ c rest, more = c :: rest → segLookup s.params c = none →
        ∃ t, exec (.puts df delay (known ++ more)) s = .next t ∧
          block t = block (ended 0x24 .invalidArgument 1 (after t)) ∧
          (∀ v, vs.getLast? = some v →
            t.pinData = !v.getLsbD 0 ∧ t.pinClock = false ∧ t.pinLatch = false) ∧
          (known = [] → SameLines s t)) ∧
      (more = [] →
        ∃ t, exec (.puts df delay (known ++ more)) s = .next t ∧
          block t = block (endedOk 0x24 (after t)) ∧
          (∀ v, vs.getLast? = some v →
            t.pinData = !v.getLsbD 0 ∧ t.pinClock = false ∧ t.pinLatch = false) ∧
          (known = [] → SameLines s t))

/-- `PUTS` with a failed pin event (42_seven_segment.md R126, 60_exceptions.md R160): event k of the string
failed, everything before it done, nothing after it. -/
def Obligations.PutsStopsAtAFailedEvent : Prop :=
  ∀ (df : Bool) (delay : Word) (cs vs : List Byte) (s : State), SegUsable s → Patterns s.params cs vs →
    ∀ k j, k < 27 * cs.length → AnswersDone s k → answerAt s k = .fail → j = 28 * (k / 27) + k % 27 →
      ∃ t, exec (.puts df delay cs) s = .next t ∧
        FailedAt (stringShown (if df then s.defdelay.toNat else delay.toNat) vs) j 0x24 s t ∧
        SameStores s t ∧ SameBlink s t ∧ t.pinClear = s.pinClear ∧ t.pinOe = s.pinOe

/-! ## Blink -/

/-- The two durations of a cycle (43_blink.md R137): `show` is `period * duty_q` divided by 65536, rounded
down, `show + idle = period` exactly, both fit their 31-bit registers, and the two ends of the duty are
exact. -/
def Obligations.BlinkDurationsAddUp : Prop :=
  ∀ (c : Byte) (period dutyQ last : Word) (s : State), BlinkLegal period dutyQ last →
    let t := loadBlinkc c period dutyQ last s
    let u := loadBlink c period dutyQ last s
    t.blShow.toNat = period.toInt.toNat * dutyQ.toInt.toNat / 65536 ∧
    t.blShow.toNat + t.blIdle.toNat = period.toInt.toNat ∧
    (dutyQ = 65536 → t.blIdle = 0) ∧ (dutyQ = 0 → t.blShow = 0) ∧
    t.blCnt.toNat = last.toInt.toNat ∧ t.blChar = c ∧ t.blMode.bits = 0 ∧
    u.blShow = t.blShow ∧ u.blIdle = t.blIdle ∧ u.blElapse.toNat = last.toInt.toNat ∧ u.blChar = c ∧
    u.blMode.bits = 1 ∧ u.blT0 = s.time

/-- The end-of-cycle test (43_blink.md R145): by count it takes one from `BL_CNT` and ends at 0; by elapsed
time it ends once `(TIME - BL_T0) mod 2^64 >= BL_ELAPSE`; it writes nothing else. -/
def Obligations.EndOfCycleTest : Prop :=
  ∀ s : State,
    (s.blMode = .count → 0 < s.blCnt.toNat →
      endOfCycle s = { s with
        blCnt := BitVec.ofNat 31 (s.blCnt.toNat - 1)
        blState := if s.blCnt.toNat = 1 then .off else .showing }) ∧
    (s.blMode = .elapsed →
      endOfCycle s = { s with
        blState :=
          if (s.time.toNat + 2 ^ 64 - s.blT0.toNat) % 2 ^ 64 ≥ s.blElapse.toNat then .off
          else .showing })

/-- `BLINKC` (43_blink.md R144, R147): with legal operands, a known character and every event done it runs
exactly `cycles` cycles of show, clear, idle in `cycles * (period + 57 * T_PIN)` ticks, ends OK, and leaves
the display blank and the CLEAR line high; with `cycles` = 0 it does nothing. That it loads no blink register
then, as R142's table says, is log entry 9. -/
def Obligations.BlinkcRunsExactlyItsCycles : Prop :=
  ∀ (c : Byte) (period dutyQ cycles : Word), SegPreamble (.blinkc c period dutyQ cycles) 0x30 ∧
    ∀ s : State, SegUsable s → BlinkLegal period dutyQ cycles →
      (cycles = 0 → exec (.blinkc c period dutyQ cycles) s = .next (endedOk 0x30 s)) ∧
      ∀ p, segLookup s.params c = some p → 0 < cycles.toNat → AnswersDone s (57 * cycles.toNat) →
        ∃ t, exec (.blinkc c period dutyQ cycles) s = .next t ∧
          block t = block (endedOk 0x30
            { emitted (blinkCycles p (lit period dutyQ) (dark period dutyQ) cycles.toNat)
                (cycles.toNat * (period.toNat + 57 * s.params.tPin)) s with
              blMode := .count
              blChar := c
              blShow := BitVec.ofNat 31 (lit period dutyQ)
              blIdle := BitVec.ofNat 31 (dark period dutyQ)
              blCnt := 0
              pinData := true
              pinClock := false
              pinLatch := false
              pinClear := true })

/-- `BLINK` (43_blink.md R146, R147): with legal operands, a known character, every event done and a cycle
that takes time (or `elapse` = 0) it runs exactly `max(1, ceil(elapse / C))` cycles, `C = period + 57 * T_PIN`,
and ends OK. The bound on `elapse + C` keeps the 64-bit `TIME` difference from wrapping, which R147 leaves
unsaid (log entry 16). -/
def Obligations.BlinkRunsUntilElapsed : Prop :=
  ∀ (c : Byte) (period dutyQ elapse : Word), SegPreamble (.blink c period dutyQ elapse) 0x31 ∧
    ∀ (s : State) (p : Byte) (cyc n : Nat), SegUsable s → BlinkLegal period dutyQ elapse →
      segLookup s.params c = some p → cyc = period.toNat + 57 * s.params.tPin →
      (0 < cyc ∨ elapse = 0) → elapse.toNat + cyc < 2 ^ 64 →
      n = max 1 ((elapse.toNat + (cyc - 1)) / cyc) → AnswersDone s (57 * n) →
      ∃ t, exec (.blink c period dutyQ elapse) s = .next t ∧
        block t = block (endedOk 0x31
          { emitted (blinkCycles p (lit period dutyQ) (dark period dutyQ) n) (n * cyc) s with
            blMode := .elapsed
            blChar := c
            blShow := BitVec.ofNat 31 (lit period dutyQ)
            blIdle := BitVec.ofNat 31 (dark period dutyQ)
            blElapse := BitVec.ofNat 31 elapse.toNat
            blT0 := s.time
            pinData := true
            pinClock := false
            pinLatch := false
            pinClear := true })

/-- An endless `BLINK` (43_blink.md R148, 70_reset_and_hazards.md R190): with `C` = 0 and `elapse` > 0 the
command never ends; however long it runs, and whatever else the host does but reset, the block is BUSY, has
sent no response, has taken no packet and has emitted one more cycle for each step (one cycle a step is the
model's own, log entry 7). -/
def Obligations.ZeroPeriodBlinkNeverEnds : Prop :=
  ∀ (c : Byte) (period dutyQ elapse : Word) (s : State) (p : Byte), SegUsable s →
    BlinkLegal period dutyQ elapse → segLookup s.params c = some p →
    period.toNat + 57 * s.params.tPin = 0 → 0 < elapse.toNat → (∀ n, .reset n ∉ s.inputs) →
    ∀ k, AnswersDone s (57 * (k + 1)) →
      ∃ t u, exec (.blink c period dutyQ elapse) s = .next t ∧ RunsTo k t u ∧
        u.ready = false ∧ u.blState = .showing ∧ u.responses = s.responses ∧
        packets u.inputs = packets s.inputs ∧ u.status = s.status ∧ u.time = s.time ∧
        u.trace = s.trace ++ sent (blinkCycles p 0 0 (k + 1))

/-- Reset does end it (43_blink.md R148: "only reset ends it"; 70_reset_and_hazards.md R190): a block BUSY with
an endless `BLINK` that the host resets after `n` more events, whatever packets wait in front of that, is
reset after exactly those events, with no response (log entries 7 and 8). -/
def Obligations.ResetEndsAnEndlessBlink : Prop :=
  ∀ (s : State) (p : Byte) (n : Nat) (waiting rest : List HostInput), SegUsable s →
    s.ready = false → s.blState = .showing → s.blMode = .elapsed →
    segLookup s.params s.blChar = some p → s.blShow = 0 → s.blIdle = 0 → s.params.tPin = 0 →
    s.time = s.blT0 → 0 < s.blElapse.toNat →
    s.inputs = waiting ++ .reset n :: rest → OnlyPackets waiting →
    AnswersDone s (57 * max 1 ((n + 58) / 59)) →
    ∃ t, RunsTo (max 1 ((n + 58) / 59)) s t ∧ AfterReset s t ∧ t.inputs = waiting ++ rest ∧
      t.past = s.past ++ s.trace ++ (sent (blinkCycles p 0 0 (max 1 ((n + 58) / 59)))).take n

/-- The blink character (43_blink.md R142, R143; 60_exceptions.md R156, R168): an unknown one ends `BLINKC` with a
cycle to run, and `BLINK`, with `InvalidArgument` before any event, with its registers loaded (R142, R144, R146) and
no other change of state; `BLINKC` with `cycles` = 0 never looks it up, does nothing and ends OK. Both for the
blink registers are log entry 9. -/
def Obligations.UnknownBlinkCharacter : Prop :=
  ∀ (c : Byte) (period dutyQ last : Word) (s : State), SegUsable s → BlinkLegal period dutyQ last →
    (last = 0 → exec (.blinkc c period dutyQ last) s = .next (endedOk 0x30 s)) ∧
    (segLookup s.params c = none →
      (last ≠ 0 →
        exec (.blinkc c period dutyQ last) s = .next (ended 0x30 .invalidArgument 1 { s with
          blMode := .count
          blChar := c
          blShow := BitVec.ofNat 31 (lit period dutyQ)
          blIdle := BitVec.ofNat 31 (dark period dutyQ)
          blCnt := BitVec.ofNat 31 last.toNat })) ∧
      exec (.blink c period dutyQ last) s = .next (ended 0x31 .invalidArgument 1 { s with
        blMode := .elapsed
        blChar := c
        blShow := BitVec.ofNat 31 (lit period dutyQ)
        blIdle := BitVec.ofNat 31 (dark period dutyQ)
        blElapse := BitVec.ofNat 31 last.toNat
        blT0 := s.time }))

/-- A blink with a failed pin event (43_blink.md R144, R146; 60_exceptions.md R160, R162): in its first
cycle, event k failed ends it with `HardwareIO`, everything before it done, nothing after it. -/
def Obligations.BlinkStopsAtAFailedEvent : Prop :=
  ∀ (c : Byte) (period dutyQ last : Word) (s : State) (p : Byte), SegUsable s →
    BlinkLegal period dutyQ last → segLookup s.params c = some p →
    ∀ k j, k < 57 → AnswersDone s k → answerAt s k = .fail → j = (if k < 27 then k else k + 1) →
      let evs := blinkCycleEvents p (lit period dutyQ) (dark period dutyQ)
      (0 < last.toNat → ∃ t, exec (.blinkc c period dutyQ last) s = .next t ∧
        FailedAt evs j 0x30 s t ∧ SameStores s t ∧ t.pinOe = s.pinOe) ∧
      (∃ t, exec (.blink c period dutyQ last) s = .next t ∧
        FailedAt evs j 0x31 s t ∧ SameStores s t ∧ t.pinOe = s.pinOe)

/-! ## Observation and assembler -/

/-- Two traces that differ only in `Wait(0)` events, or in one wait split in two, are the same observation;
and two same observations have the same other events in the same order (00_scope.md R8). -/
def Obligations.WaitsMergeInTheObservation : Prop :=
  (∀ a b : List TraceEntry, sameTrace (a ++ [⟨.wait 0, .done⟩] ++ b) (a ++ b) = true) ∧
  (∀ (a b : List TraceEntry) (m n : Nat),
    sameTrace (a ++ [⟨.wait (m + n), .done⟩] ++ b)
      (a ++ [⟨.wait m, .done⟩, ⟨.wait n, .done⟩] ++ b) = true) ∧
  (∀ a b : List TraceEntry, sameTrace a b = true →
    a.filter (fun e => e.event.answered) = b.filter (fun e => e.event.answered))

/-- A command the assembler makes of a line has an encoding (30_encoding.md R75, R76). -/
def Obligations.AssembledCommandsAreWellFormed : Prop :=
  ∀ (p : Params) (line : List Char) (i : Instr),
    assembleLine p line = .command i → i.wellFormed = true
end

