-- ==== Sys2Proof/Laws/State.lean ====
section
/-! SUPPORT. One lemma per field for each update of the state that the shared operations make, so that no
proof unfolds a record update. -/

namespace Sys2Proof.Machine

/-! ## takeAnswer -/

@[simp] theorem takeAnswer_ready (s : State) :
    (takeAnswer s).ready = s.ready := rfl
@[simp] theorem takeAnswer_hue (s : State) :
    (takeAnswer s).hue = s.hue := rfl
@[simp] theorem takeAnswer_ledcnt (s : State) :
    (takeAnswer s).ledcnt = s.ledcnt := rfl
@[simp] theorem takeAnswer_buf (s : State) :
    (takeAnswer s).buf = s.buf := rfl
@[simp] theorem takeAnswer_res (s : State) :
    (takeAnswer s).res = s.res := rfl
@[simp] theorem takeAnswer_status (s : State) :
    (takeAnswer s).status = s.status := rfl
@[simp] theorem takeAnswer_defdelay (s : State) :
    (takeAnswer s).defdelay = s.defdelay := rfl
@[simp] theorem takeAnswer_pinData (s : State) :
    (takeAnswer s).pinData = s.pinData := rfl
@[simp] theorem takeAnswer_pinClock (s : State) :
    (takeAnswer s).pinClock = s.pinClock := rfl
@[simp] theorem takeAnswer_pinLatch (s : State) :
    (takeAnswer s).pinLatch = s.pinLatch := rfl
@[simp] theorem takeAnswer_pinClear (s : State) :
    (takeAnswer s).pinClear = s.pinClear := rfl
@[simp] theorem takeAnswer_pinOe (s : State) :
    (takeAnswer s).pinOe = s.pinOe := rfl
@[simp] theorem takeAnswer_time (s : State) :
    (takeAnswer s).time = s.time := rfl
@[simp] theorem takeAnswer_blState (s : State) :
    (takeAnswer s).blState = s.blState := rfl
@[simp] theorem takeAnswer_blMode (s : State) :
    (takeAnswer s).blMode = s.blMode := rfl
@[simp] theorem takeAnswer_blChar (s : State) :
    (takeAnswer s).blChar = s.blChar := rfl
@[simp] theorem takeAnswer_blShow (s : State) :
    (takeAnswer s).blShow = s.blShow := rfl
@[simp] theorem takeAnswer_blIdle (s : State) :
    (takeAnswer s).blIdle = s.blIdle := rfl
@[simp] theorem takeAnswer_blCnt (s : State) :
    (takeAnswer s).blCnt = s.blCnt := rfl
@[simp] theorem takeAnswer_blT0 (s : State) :
    (takeAnswer s).blT0 = s.blT0 := rfl
@[simp] theorem takeAnswer_blElapse (s : State) :
    (takeAnswer s).blElapse = s.blElapse := rfl
@[simp] theorem takeAnswer_trace (s : State) :
    (takeAnswer s).trace = s.trace := rfl
@[simp] theorem takeAnswer_responses (s : State) :
    (takeAnswer s).responses = s.responses := rfl
@[simp] theorem takeAnswer_params (s : State) :
    (takeAnswer s).params = s.params := rfl
@[simp] theorem takeAnswer_past (s : State) :
    (takeAnswer s).past = s.past := rfl
@[simp] theorem takeAnswer_inputs (s : State) :
    (takeAnswer s).inputs = s.inputs := rfl
@[simp] theorem takeAnswer_answers (s : State) :
    (takeAnswer s).answers = s.answers.tail := rfl
@[simp] theorem takeAnswer_freeIdx (s : State) :
    (takeAnswer s).freeIdx = s.freeIdx + 1 := rfl

/-! ## logEvent -/

@[simp] theorem logEvent_ready (e : Event) (a : Answer) (s : State) :
    (logEvent e a s).ready = s.ready := rfl
@[simp] theorem logEvent_hue (e : Event) (a : Answer) (s : State) :
    (logEvent e a s).hue = s.hue := rfl
@[simp] theorem logEvent_ledcnt (e : Event) (a : Answer) (s : State) :
    (logEvent e a s).ledcnt = s.ledcnt := rfl
@[simp] theorem logEvent_buf (e : Event) (a : Answer) (s : State) :
    (logEvent e a s).buf = s.buf := rfl
@[simp] theorem logEvent_res (e : Event) (a : Answer) (s : State) :
    (logEvent e a s).res = s.res := rfl
@[simp] theorem logEvent_status (e : Event) (a : Answer) (s : State) :
    (logEvent e a s).status = s.status := rfl
@[simp] theorem logEvent_defdelay (e : Event) (a : Answer) (s : State) :
    (logEvent e a s).defdelay = s.defdelay := rfl
@[simp] theorem logEvent_pinData (e : Event) (a : Answer) (s : State) :
    (logEvent e a s).pinData = s.pinData := rfl
@[simp] theorem logEvent_pinClock (e : Event) (a : Answer) (s : State) :
    (logEvent e a s).pinClock = s.pinClock := rfl
@[simp] theorem logEvent_pinLatch (e : Event) (a : Answer) (s : State) :
    (logEvent e a s).pinLatch = s.pinLatch := rfl
@[simp] theorem logEvent_pinClear (e : Event) (a : Answer) (s : State) :
    (logEvent e a s).pinClear = s.pinClear := rfl
@[simp] theorem logEvent_pinOe (e : Event) (a : Answer) (s : State) :
    (logEvent e a s).pinOe = s.pinOe := rfl
@[simp] theorem logEvent_time (e : Event) (a : Answer) (s : State) :
    (logEvent e a s).time = s.time + BitVec.ofNat 64 (eventTicks s.params e) := rfl
@[simp] theorem logEvent_blState (e : Event) (a : Answer) (s : State) :
    (logEvent e a s).blState = s.blState := rfl
@[simp] theorem logEvent_blMode (e : Event) (a : Answer) (s : State) :
    (logEvent e a s).blMode = s.blMode := rfl
@[simp] theorem logEvent_blChar (e : Event) (a : Answer) (s : State) :
    (logEvent e a s).blChar = s.blChar := rfl
@[simp] theorem logEvent_blShow (e : Event) (a : Answer) (s : State) :
    (logEvent e a s).blShow = s.blShow := rfl
@[simp] theorem logEvent_blIdle (e : Event) (a : Answer) (s : State) :
    (logEvent e a s).blIdle = s.blIdle := rfl
@[simp] theorem logEvent_blCnt (e : Event) (a : Answer) (s : State) :
    (logEvent e a s).blCnt = s.blCnt := rfl
@[simp] theorem logEvent_blT0 (e : Event) (a : Answer) (s : State) :
    (logEvent e a s).blT0 = s.blT0 := rfl
@[simp] theorem logEvent_blElapse (e : Event) (a : Answer) (s : State) :
    (logEvent e a s).blElapse = s.blElapse := rfl
@[simp] theorem logEvent_trace (e : Event) (a : Answer) (s : State) :
    (logEvent e a s).trace = s.trace ++ [⟨e, a⟩] := rfl
@[simp] theorem logEvent_responses (e : Event) (a : Answer) (s : State) :
    (logEvent e a s).responses = s.responses := rfl
@[simp] theorem logEvent_params (e : Event) (a : Answer) (s : State) :
    (logEvent e a s).params = s.params := rfl
@[simp] theorem logEvent_past (e : Event) (a : Answer) (s : State) :
    (logEvent e a s).past = s.past := rfl
@[simp] theorem logEvent_inputs (e : Event) (a : Answer) (s : State) :
    (logEvent e a s).inputs = s.inputs := rfl
@[simp] theorem logEvent_answers (e : Event) (a : Answer) (s : State) :
    (logEvent e a s).answers = s.answers := rfl
@[simp] theorem logEvent_freeIdx (e : Event) (a : Answer) (s : State) :
    (logEvent e a s).freeIdx = s.freeIdx := rfl

/-! ## setOe -/

@[simp] theorem setOe_ready (l : Line) (b : Bool) (s : State) :
    (setOe l b s).ready = s.ready := rfl
@[simp] theorem setOe_hue (l : Line) (b : Bool) (s : State) :
    (setOe l b s).hue = s.hue := rfl
@[simp] theorem setOe_ledcnt (l : Line) (b : Bool) (s : State) :
    (setOe l b s).ledcnt = s.ledcnt := rfl
@[simp] theorem setOe_buf (l : Line) (b : Bool) (s : State) :
    (setOe l b s).buf = s.buf := rfl
@[simp] theorem setOe_res (l : Line) (b : Bool) (s : State) :
    (setOe l b s).res = s.res := rfl
@[simp] theorem setOe_status (l : Line) (b : Bool) (s : State) :
    (setOe l b s).status = s.status := rfl
@[simp] theorem setOe_defdelay (l : Line) (b : Bool) (s : State) :
    (setOe l b s).defdelay = s.defdelay := rfl
@[simp] theorem setOe_pinData (l : Line) (b : Bool) (s : State) :
    (setOe l b s).pinData = s.pinData := rfl
@[simp] theorem setOe_pinClock (l : Line) (b : Bool) (s : State) :
    (setOe l b s).pinClock = s.pinClock := rfl
@[simp] theorem setOe_pinLatch (l : Line) (b : Bool) (s : State) :
    (setOe l b s).pinLatch = s.pinLatch := rfl
@[simp] theorem setOe_pinClear (l : Line) (b : Bool) (s : State) :
    (setOe l b s).pinClear = s.pinClear := rfl
@[simp] theorem setOe_pinOe (l : Line) (b : Bool) (s : State) :
    (setOe l b s).pinOe = if b then s.pinOe ||| oeMask l else s.pinOe &&& ~~~(oeMask l) := rfl
@[simp] theorem setOe_time (l : Line) (b : Bool) (s : State) :
    (setOe l b s).time = s.time := rfl
@[simp] theorem setOe_blState (l : Line) (b : Bool) (s : State) :
    (setOe l b s).blState = s.blState := rfl
@[simp] theorem setOe_blMode (l : Line) (b : Bool) (s : State) :
    (setOe l b s).blMode = s.blMode := rfl
@[simp] theorem setOe_blChar (l : Line) (b : Bool) (s : State) :
    (setOe l b s).blChar = s.blChar := rfl
@[simp] theorem setOe_blShow (l : Line) (b : Bool) (s : State) :
    (setOe l b s).blShow = s.blShow := rfl
@[simp] theorem setOe_blIdle (l : Line) (b : Bool) (s : State) :
    (setOe l b s).blIdle = s.blIdle := rfl
@[simp] theorem setOe_blCnt (l : Line) (b : Bool) (s : State) :
    (setOe l b s).blCnt = s.blCnt := rfl
@[simp] theorem setOe_blT0 (l : Line) (b : Bool) (s : State) :
    (setOe l b s).blT0 = s.blT0 := rfl
@[simp] theorem setOe_blElapse (l : Line) (b : Bool) (s : State) :
    (setOe l b s).blElapse = s.blElapse := rfl
@[simp] theorem setOe_trace (l : Line) (b : Bool) (s : State) :
    (setOe l b s).trace = s.trace := rfl
@[simp] theorem setOe_responses (l : Line) (b : Bool) (s : State) :
    (setOe l b s).responses = s.responses := rfl
@[simp] theorem setOe_params (l : Line) (b : Bool) (s : State) :
    (setOe l b s).params = s.params := rfl
@[simp] theorem setOe_past (l : Line) (b : Bool) (s : State) :
    (setOe l b s).past = s.past := rfl
@[simp] theorem setOe_inputs (l : Line) (b : Bool) (s : State) :
    (setOe l b s).inputs = s.inputs := rfl
@[simp] theorem setOe_answers (l : Line) (b : Bool) (s : State) :
    (setOe l b s).answers = s.answers := rfl
@[simp] theorem setOe_freeIdx (l : Line) (b : Bool) (s : State) :
    (setOe l b s).freeIdx = s.freeIdx := rfl

/-! ## endCommand -/

@[simp] theorem endCommand_ready (op : Byte) (c : Code) (d : BitVec 24) (s : State) :
    (endCommand op c d s).ready = true := rfl
@[simp] theorem endCommand_hue (op : Byte) (c : Code) (d : BitVec 24) (s : State) :
    (endCommand op c d s).hue = s.hue := rfl
@[simp] theorem endCommand_ledcnt (op : Byte) (c : Code) (d : BitVec 24) (s : State) :
    (endCommand op c d s).ledcnt = s.ledcnt := rfl
@[simp] theorem endCommand_buf (op : Byte) (c : Code) (d : BitVec 24) (s : State) :
    (endCommand op c d s).buf = s.buf := rfl
@[simp] theorem endCommand_res (op : Byte) (c : Code) (d : BitVec 24) (s : State) :
    (endCommand op c d s).res = s.res := rfl
@[simp] theorem endCommand_status (op : Byte) (c : Code) (d : BitVec 24) (s : State) :
    (endCommand op c d s).status = s.status.ended op c := rfl
@[simp] theorem endCommand_defdelay (op : Byte) (c : Code) (d : BitVec 24) (s : State) :
    (endCommand op c d s).defdelay = s.defdelay := rfl
@[simp] theorem endCommand_pinData (op : Byte) (c : Code) (d : BitVec 24) (s : State) :
    (endCommand op c d s).pinData = s.pinData := rfl
@[simp] theorem endCommand_pinClock (op : Byte) (c : Code) (d : BitVec 24) (s : State) :
    (endCommand op c d s).pinClock = s.pinClock := rfl
@[simp] theorem endCommand_pinLatch (op : Byte) (c : Code) (d : BitVec 24) (s : State) :
    (endCommand op c d s).pinLatch = s.pinLatch := rfl
@[simp] theorem endCommand_pinClear (op : Byte) (c : Code) (d : BitVec 24) (s : State) :
    (endCommand op c d s).pinClear = s.pinClear := rfl
@[simp] theorem endCommand_pinOe (op : Byte) (c : Code) (d : BitVec 24) (s : State) :
    (endCommand op c d s).pinOe = s.pinOe := rfl
@[simp] theorem endCommand_time (op : Byte) (c : Code) (d : BitVec 24) (s : State) :
    (endCommand op c d s).time = s.time := rfl
@[simp] theorem endCommand_blState (op : Byte) (c : Code) (d : BitVec 24) (s : State) :
    (endCommand op c d s).blState = .off := rfl
@[simp] theorem endCommand_blMode (op : Byte) (c : Code) (d : BitVec 24) (s : State) :
    (endCommand op c d s).blMode = s.blMode := rfl
@[simp] theorem endCommand_blChar (op : Byte) (c : Code) (d : BitVec 24) (s : State) :
    (endCommand op c d s).blChar = s.blChar := rfl
@[simp] theorem endCommand_blShow (op : Byte) (c : Code) (d : BitVec 24) (s : State) :
    (endCommand op c d s).blShow = s.blShow := rfl
@[simp] theorem endCommand_blIdle (op : Byte) (c : Code) (d : BitVec 24) (s : State) :
    (endCommand op c d s).blIdle = s.blIdle := rfl
@[simp] theorem endCommand_blCnt (op : Byte) (c : Code) (d : BitVec 24) (s : State) :
    (endCommand op c d s).blCnt = s.blCnt := rfl
@[simp] theorem endCommand_blT0 (op : Byte) (c : Code) (d : BitVec 24) (s : State) :
    (endCommand op c d s).blT0 = s.blT0 := rfl
@[simp] theorem endCommand_blElapse (op : Byte) (c : Code) (d : BitVec 24) (s : State) :
    (endCommand op c d s).blElapse = s.blElapse := rfl
@[simp] theorem endCommand_trace (op : Byte) (c : Code) (d : BitVec 24) (s : State) :
    (endCommand op c d s).trace = s.trace := rfl
@[simp] theorem endCommand_responses (op : Byte) (c : Code) (d : BitVec 24) (s : State) :
    (endCommand op c d s).responses = s.responses ++ [responseWord c d] := rfl
@[simp] theorem endCommand_params (op : Byte) (c : Code) (d : BitVec 24) (s : State) :
    (endCommand op c d s).params = s.params := rfl
@[simp] theorem endCommand_past (op : Byte) (c : Code) (d : BitVec 24) (s : State) :
    (endCommand op c d s).past = s.past := rfl
@[simp] theorem endCommand_inputs (op : Byte) (c : Code) (d : BitVec 24) (s : State) :
    (endCommand op c d s).inputs = s.inputs := rfl
@[simp] theorem endCommand_answers (op : Byte) (c : Code) (d : BitVec 24) (s : State) :
    (endCommand op c d s).answers = s.answers := rfl
@[simp] theorem endCommand_freeIdx (op : Byte) (c : Code) (d : BitVec 24) (s : State) :
    (endCommand op c d s).freeIdx = s.freeIdx := rfl

/-! ## acceptPacket -/

@[simp] theorem acceptPacket_ready (rest : List HostInput) (s : State) :
    (acceptPacket rest s).ready = false := rfl
@[simp] theorem acceptPacket_hue (rest : List HostInput) (s : State) :
    (acceptPacket rest s).hue = s.hue := rfl
@[simp] theorem acceptPacket_ledcnt (rest : List HostInput) (s : State) :
    (acceptPacket rest s).ledcnt = s.ledcnt := rfl
@[simp] theorem acceptPacket_buf (rest : List HostInput) (s : State) :
    (acceptPacket rest s).buf = s.buf := rfl
@[simp] theorem acceptPacket_res (rest : List HostInput) (s : State) :
    (acceptPacket rest s).res = s.res := rfl
@[simp] theorem acceptPacket_status (rest : List HostInput) (s : State) :
    (acceptPacket rest s).status = s.status := rfl
@[simp] theorem acceptPacket_defdelay (rest : List HostInput) (s : State) :
    (acceptPacket rest s).defdelay = s.defdelay := rfl
@[simp] theorem acceptPacket_pinData (rest : List HostInput) (s : State) :
    (acceptPacket rest s).pinData = s.pinData := rfl
@[simp] theorem acceptPacket_pinClock (rest : List HostInput) (s : State) :
    (acceptPacket rest s).pinClock = s.pinClock := rfl
@[simp] theorem acceptPacket_pinLatch (rest : List HostInput) (s : State) :
    (acceptPacket rest s).pinLatch = s.pinLatch := rfl
@[simp] theorem acceptPacket_pinClear (rest : List HostInput) (s : State) :
    (acceptPacket rest s).pinClear = s.pinClear := rfl
@[simp] theorem acceptPacket_pinOe (rest : List HostInput) (s : State) :
    (acceptPacket rest s).pinOe = s.pinOe := rfl
@[simp] theorem acceptPacket_time (rest : List HostInput) (s : State) :
    (acceptPacket rest s).time = s.time := rfl
@[simp] theorem acceptPacket_blState (rest : List HostInput) (s : State) :
    (acceptPacket rest s).blState = s.blState := rfl
@[simp] theorem acceptPacket_blMode (rest : List HostInput) (s : State) :
    (acceptPacket rest s).blMode = s.blMode := rfl
@[simp] theorem acceptPacket_blChar (rest : List HostInput) (s : State) :
    (acceptPacket rest s).blChar = s.blChar := rfl
@[simp] theorem acceptPacket_blShow (rest : List HostInput) (s : State) :
    (acceptPacket rest s).blShow = s.blShow := rfl
@[simp] theorem acceptPacket_blIdle (rest : List HostInput) (s : State) :
    (acceptPacket rest s).blIdle = s.blIdle := rfl
@[simp] theorem acceptPacket_blCnt (rest : List HostInput) (s : State) :
    (acceptPacket rest s).blCnt = s.blCnt := rfl
@[simp] theorem acceptPacket_blT0 (rest : List HostInput) (s : State) :
    (acceptPacket rest s).blT0 = s.blT0 := rfl
@[simp] theorem acceptPacket_blElapse (rest : List HostInput) (s : State) :
    (acceptPacket rest s).blElapse = s.blElapse := rfl
@[simp] theorem acceptPacket_trace (rest : List HostInput) (s : State) :
    (acceptPacket rest s).trace = s.trace := rfl
@[simp] theorem acceptPacket_responses (rest : List HostInput) (s : State) :
    (acceptPacket rest s).responses = s.responses := rfl
@[simp] theorem acceptPacket_params (rest : List HostInput) (s : State) :
    (acceptPacket rest s).params = s.params := rfl
@[simp] theorem acceptPacket_past (rest : List HostInput) (s : State) :
    (acceptPacket rest s).past = s.past := rfl
@[simp] theorem acceptPacket_inputs (rest : List HostInput) (s : State) :
    (acceptPacket rest s).inputs = rest := rfl
@[simp] theorem acceptPacket_answers (rest : List HostInput) (s : State) :
    (acceptPacket rest s).answers = s.answers := rfl
@[simp] theorem acceptPacket_freeIdx (rest : List HostInput) (s : State) :
    (acceptPacket rest s).freeIdx = s.freeIdx := rfl

/-! ## resetBlock -/

@[simp] theorem resetBlock_ready (rest : List HostInput) (s : State) :
    (resetBlock rest s).ready = true := rfl
@[simp] theorem resetBlock_hue (rest : List HostInput) (s : State) :
    (resetBlock rest s).hue = 0 := rfl
@[simp] theorem resetBlock_ledcnt (rest : List HostInput) (s : State) :
    (resetBlock rest s).ledcnt = 0 := rfl
@[simp] theorem resetBlock_buf (rest : List HostInput) (s : State) :
    (resetBlock rest s).buf = [] := rfl
@[simp] theorem resetBlock_res (rest : List HostInput) (s : State) :
    (resetBlock rest s).res = 0 := rfl
@[simp] theorem resetBlock_status (rest : List HostInput) (s : State) :
    (resetBlock rest s).status = Status.reset := rfl
@[simp] theorem resetBlock_defdelay (rest : List HostInput) (s : State) :
    (resetBlock rest s).defdelay = 0 := rfl
@[simp] theorem resetBlock_pinData (rest : List HostInput) (s : State) :
    (resetBlock rest s).pinData = false := rfl
@[simp] theorem resetBlock_pinClock (rest : List HostInput) (s : State) :
    (resetBlock rest s).pinClock = false := rfl
@[simp] theorem resetBlock_pinLatch (rest : List HostInput) (s : State) :
    (resetBlock rest s).pinLatch = false := rfl
@[simp] theorem resetBlock_pinClear (rest : List HostInput) (s : State) :
    (resetBlock rest s).pinClear = false := rfl
@[simp] theorem resetBlock_pinOe (rest : List HostInput) (s : State) :
    (resetBlock rest s).pinOe = 0 := rfl
@[simp] theorem resetBlock_time (rest : List HostInput) (s : State) :
    (resetBlock rest s).time = 0 := rfl
@[simp] theorem resetBlock_blState (rest : List HostInput) (s : State) :
    (resetBlock rest s).blState = .off := rfl
@[simp] theorem resetBlock_blMode (rest : List HostInput) (s : State) :
    (resetBlock rest s).blMode = .count := rfl
@[simp] theorem resetBlock_blChar (rest : List HostInput) (s : State) :
    (resetBlock rest s).blChar = 0 := rfl
@[simp] theorem resetBlock_blShow (rest : List HostInput) (s : State) :
    (resetBlock rest s).blShow = 0 := rfl
@[simp] theorem resetBlock_blIdle (rest : List HostInput) (s : State) :
    (resetBlock rest s).blIdle = 0 := rfl
@[simp] theorem resetBlock_blCnt (rest : List HostInput) (s : State) :
    (resetBlock rest s).blCnt = 0 := rfl
@[simp] theorem resetBlock_blT0 (rest : List HostInput) (s : State) :
    (resetBlock rest s).blT0 = 0 := rfl
@[simp] theorem resetBlock_blElapse (rest : List HostInput) (s : State) :
    (resetBlock rest s).blElapse = 0 := rfl
@[simp] theorem resetBlock_trace (rest : List HostInput) (s : State) :
    (resetBlock rest s).trace = [] := rfl
@[simp] theorem resetBlock_responses (rest : List HostInput) (s : State) :
    (resetBlock rest s).responses = s.responses := rfl
@[simp] theorem resetBlock_params (rest : List HostInput) (s : State) :
    (resetBlock rest s).params = s.params := rfl
@[simp] theorem resetBlock_past (rest : List HostInput) (s : State) :
    (resetBlock rest s).past = s.past ++ s.trace := rfl
@[simp] theorem resetBlock_inputs (rest : List HostInput) (s : State) :
    (resetBlock rest s).inputs = rest := rfl
@[simp] theorem resetBlock_answers (rest : List HostInput) (s : State) :
    (resetBlock rest s).answers = s.answers := rfl
@[simp] theorem resetBlock_freeIdx (rest : List HostInput) (s : State) :
    (resetBlock rest s).freeIdx = s.freeIdx := rfl

/-! ## cutShort -/

@[simp] theorem cutShort_responses (n : Nat) (s t : State) :
    (cutShort n s t).responses = s.responses := rfl
@[simp] theorem cutShort_params (n : Nat) (s t : State) :
    (cutShort n s t).params = s.params := rfl
@[simp] theorem cutShort_past (n : Nat) (s t : State) :
    (cutShort n s t).past = s.past := rfl
@[simp] theorem cutShort_inputs (n : Nat) (s t : State) :
    (cutShort n s t).inputs = s.inputs := rfl
@[simp] theorem cutShort_trace (n : Nat) (s t : State) :
    (cutShort n s t).trace = s.trace ++ (t.trace.drop s.trace.length).take n := rfl

/-! ## idleFor -/

@[simp] theorem idleFor_ready (n : Nat) (rest : List HostInput) (s : State) :
    (idleFor n rest s).ready = s.ready := rfl
@[simp] theorem idleFor_hue (n : Nat) (rest : List HostInput) (s : State) :
    (idleFor n rest s).hue = s.hue := rfl
@[simp] theorem idleFor_ledcnt (n : Nat) (rest : List HostInput) (s : State) :
    (idleFor n rest s).ledcnt = s.ledcnt := rfl
@[simp] theorem idleFor_buf (n : Nat) (rest : List HostInput) (s : State) :
    (idleFor n rest s).buf = s.buf := rfl
@[simp] theorem idleFor_res (n : Nat) (rest : List HostInput) (s : State) :
    (idleFor n rest s).res = s.res := rfl
@[simp] theorem idleFor_status (n : Nat) (rest : List HostInput) (s : State) :
    (idleFor n rest s).status = s.status := rfl
@[simp] theorem idleFor_defdelay (n : Nat) (rest : List HostInput) (s : State) :
    (idleFor n rest s).defdelay = s.defdelay := rfl
@[simp] theorem idleFor_pinData (n : Nat) (rest : List HostInput) (s : State) :
    (idleFor n rest s).pinData = s.pinData := rfl
@[simp] theorem idleFor_pinClock (n : Nat) (rest : List HostInput) (s : State) :
    (idleFor n rest s).pinClock = s.pinClock := rfl
@[simp] theorem idleFor_pinLatch (n : Nat) (rest : List HostInput) (s : State) :
    (idleFor n rest s).pinLatch = s.pinLatch := rfl
@[simp] theorem idleFor_pinClear (n : Nat) (rest : List HostInput) (s : State) :
    (idleFor n rest s).pinClear = s.pinClear := rfl
@[simp] theorem idleFor_pinOe (n : Nat) (rest : List HostInput) (s : State) :
    (idleFor n rest s).pinOe = s.pinOe := rfl
@[simp] theorem idleFor_time (n : Nat) (rest : List HostInput) (s : State) :
    (idleFor n rest s).time = s.time + BitVec.ofNat 64 n := rfl
@[simp] theorem idleFor_blState (n : Nat) (rest : List HostInput) (s : State) :
    (idleFor n rest s).blState = s.blState := rfl
@[simp] theorem idleFor_blMode (n : Nat) (rest : List HostInput) (s : State) :
    (idleFor n rest s).blMode = s.blMode := rfl
@[simp] theorem idleFor_blChar (n : Nat) (rest : List HostInput) (s : State) :
    (idleFor n rest s).blChar = s.blChar := rfl
@[simp] theorem idleFor_blShow (n : Nat) (rest : List HostInput) (s : State) :
    (idleFor n rest s).blShow = s.blShow := rfl
@[simp] theorem idleFor_blIdle (n : Nat) (rest : List HostInput) (s : State) :
    (idleFor n rest s).blIdle = s.blIdle := rfl
@[simp] theorem idleFor_blCnt (n : Nat) (rest : List HostInput) (s : State) :
    (idleFor n rest s).blCnt = s.blCnt := rfl
@[simp] theorem idleFor_blT0 (n : Nat) (rest : List HostInput) (s : State) :
    (idleFor n rest s).blT0 = s.blT0 := rfl
@[simp] theorem idleFor_blElapse (n : Nat) (rest : List HostInput) (s : State) :
    (idleFor n rest s).blElapse = s.blElapse := rfl
@[simp] theorem idleFor_trace (n : Nat) (rest : List HostInput) (s : State) :
    (idleFor n rest s).trace = s.trace := rfl
@[simp] theorem idleFor_responses (n : Nat) (rest : List HostInput) (s : State) :
    (idleFor n rest s).responses = s.responses := rfl
@[simp] theorem idleFor_params (n : Nat) (rest : List HostInput) (s : State) :
    (idleFor n rest s).params = s.params := rfl
@[simp] theorem idleFor_past (n : Nat) (rest : List HostInput) (s : State) :
    (idleFor n rest s).past = s.past := rfl
@[simp] theorem idleFor_inputs (n : Nat) (rest : List HostInput) (s : State) :
    (idleFor n rest s).inputs = rest := rfl
@[simp] theorem idleFor_answers (n : Nat) (rest : List HostInput) (s : State) :
    (idleFor n rest s).answers = s.answers := rfl
@[simp] theorem idleFor_freeIdx (n : Nat) (rest : List HostInput) (s : State) :
    (idleFor n rest s).freeIdx = s.freeIdx := rfl

/-! ## setLevel: only the level register of its line -/

@[simp] theorem setLevel_ready (l : Line) (b : Bool) (s : State) :
    (setLevel l b s).ready = s.ready := by
  cases l <;> rfl
@[simp] theorem setLevel_hue (l : Line) (b : Bool) (s : State) :
    (setLevel l b s).hue = s.hue := by
  cases l <;> rfl
@[simp] theorem setLevel_ledcnt (l : Line) (b : Bool) (s : State) :
    (setLevel l b s).ledcnt = s.ledcnt := by
  cases l <;> rfl
@[simp] theorem setLevel_buf (l : Line) (b : Bool) (s : State) :
    (setLevel l b s).buf = s.buf := by
  cases l <;> rfl
@[simp] theorem setLevel_res (l : Line) (b : Bool) (s : State) :
    (setLevel l b s).res = s.res := by
  cases l <;> rfl
@[simp] theorem setLevel_status (l : Line) (b : Bool) (s : State) :
    (setLevel l b s).status = s.status := by
  cases l <;> rfl
@[simp] theorem setLevel_defdelay (l : Line) (b : Bool) (s : State) :
    (setLevel l b s).defdelay = s.defdelay := by
  cases l <;> rfl
@[simp] theorem setLevel_pinData (l : Line) (b : Bool) (s : State) :
    (setLevel l b s).pinData = if l = .data then b else s.pinData := by
  cases l <;> rfl
@[simp] theorem setLevel_pinClock (l : Line) (b : Bool) (s : State) :
    (setLevel l b s).pinClock = if l = .clock then b else s.pinClock := by
  cases l <;> rfl
@[simp] theorem setLevel_pinLatch (l : Line) (b : Bool) (s : State) :
    (setLevel l b s).pinLatch = if l = .latch then b else s.pinLatch := by
  cases l <;> rfl
@[simp] theorem setLevel_pinClear (l : Line) (b : Bool) (s : State) :
    (setLevel l b s).pinClear = if l = .clear then b else s.pinClear := by
  cases l <;> rfl
@[simp] theorem setLevel_pinOe (l : Line) (b : Bool) (s : State) :
    (setLevel l b s).pinOe = s.pinOe := by
  cases l <;> rfl
@[simp] theorem setLevel_time (l : Line) (b : Bool) (s : State) :
    (setLevel l b s).time = s.time := by
  cases l <;> rfl
@[simp] theorem setLevel_blState (l : Line) (b : Bool) (s : State) :
    (setLevel l b s).blState = s.blState := by
  cases l <;> rfl
@[simp] theorem setLevel_blMode (l : Line) (b : Bool) (s : State) :
    (setLevel l b s).blMode = s.blMode := by
  cases l <;> rfl
@[simp] theorem setLevel_blChar (l : Line) (b : Bool) (s : State) :
    (setLevel l b s).blChar = s.blChar := by
  cases l <;> rfl
@[simp] theorem setLevel_blShow (l : Line) (b : Bool) (s : State) :
    (setLevel l b s).blShow = s.blShow := by
  cases l <;> rfl
@[simp] theorem setLevel_blIdle (l : Line) (b : Bool) (s : State) :
    (setLevel l b s).blIdle = s.blIdle := by
  cases l <;> rfl
@[simp] theorem setLevel_blCnt (l : Line) (b : Bool) (s : State) :
    (setLevel l b s).blCnt = s.blCnt := by
  cases l <;> rfl
@[simp] theorem setLevel_blT0 (l : Line) (b : Bool) (s : State) :
    (setLevel l b s).blT0 = s.blT0 := by
  cases l <;> rfl
@[simp] theorem setLevel_blElapse (l : Line) (b : Bool) (s : State) :
    (setLevel l b s).blElapse = s.blElapse := by
  cases l <;> rfl
@[simp] theorem setLevel_trace (l : Line) (b : Bool) (s : State) :
    (setLevel l b s).trace = s.trace := by
  cases l <;> rfl
@[simp] theorem setLevel_responses (l : Line) (b : Bool) (s : State) :
    (setLevel l b s).responses = s.responses := by
  cases l <;> rfl
@[simp] theorem setLevel_params (l : Line) (b : Bool) (s : State) :
    (setLevel l b s).params = s.params := by
  cases l <;> rfl
@[simp] theorem setLevel_past (l : Line) (b : Bool) (s : State) :
    (setLevel l b s).past = s.past := by
  cases l <;> rfl
@[simp] theorem setLevel_inputs (l : Line) (b : Bool) (s : State) :
    (setLevel l b s).inputs = s.inputs := by
  cases l <;> rfl
@[simp] theorem setLevel_answers (l : Line) (b : Bool) (s : State) :
    (setLevel l b s).answers = s.answers := by
  cases l <;> rfl
@[simp] theorem setLevel_freeIdx (l : Line) (b : Bool) (s : State) :
    (setLevel l b s).freeIdx = s.freeIdx := by
  cases l <;> rfl

/-! ## performEvent and spoilEvent: only line registers -/

@[simp] theorem performEvent_ready (e : Event) (s : State) :
    (performEvent e s).ready = s.ready := by
  cases e <;> simp [performEvent]
@[simp] theorem performEvent_hue (e : Event) (s : State) :
    (performEvent e s).hue = s.hue := by
  cases e <;> simp [performEvent]
@[simp] theorem performEvent_ledcnt (e : Event) (s : State) :
    (performEvent e s).ledcnt = s.ledcnt := by
  cases e <;> simp [performEvent]
@[simp] theorem performEvent_buf (e : Event) (s : State) :
    (performEvent e s).buf = s.buf := by
  cases e <;> simp [performEvent]
@[simp] theorem performEvent_res (e : Event) (s : State) :
    (performEvent e s).res = s.res := by
  cases e <;> simp [performEvent]
@[simp] theorem performEvent_status (e : Event) (s : State) :
    (performEvent e s).status = s.status := by
  cases e <;> simp [performEvent]
@[simp] theorem performEvent_defdelay (e : Event) (s : State) :
    (performEvent e s).defdelay = s.defdelay := by
  cases e <;> simp [performEvent]
@[simp] theorem performEvent_time (e : Event) (s : State) :
    (performEvent e s).time = s.time := by
  cases e <;> simp [performEvent]
@[simp] theorem performEvent_blState (e : Event) (s : State) :
    (performEvent e s).blState = s.blState := by
  cases e <;> simp [performEvent]
@[simp] theorem performEvent_blMode (e : Event) (s : State) :
    (performEvent e s).blMode = s.blMode := by
  cases e <;> simp [performEvent]
@[simp] theorem performEvent_blChar (e : Event) (s : State) :
    (performEvent e s).blChar = s.blChar := by
  cases e <;> simp [performEvent]
@[simp] theorem performEvent_blShow (e : Event) (s : State) :
    (performEvent e s).blShow = s.blShow := by
  cases e <;> simp [performEvent]
@[simp] theorem performEvent_blIdle (e : Event) (s : State) :
    (performEvent e s).blIdle = s.blIdle := by
  cases e <;> simp [performEvent]
@[simp] theorem performEvent_blCnt (e : Event) (s : State) :
    (performEvent e s).blCnt = s.blCnt := by
  cases e <;> simp [performEvent]
@[simp] theorem performEvent_blT0 (e : Event) (s : State) :
    (performEvent e s).blT0 = s.blT0 := by
  cases e <;> simp [performEvent]
@[simp] theorem performEvent_blElapse (e : Event) (s : State) :
    (performEvent e s).blElapse = s.blElapse := by
  cases e <;> simp [performEvent]
@[simp] theorem performEvent_trace (e : Event) (s : State) :
    (performEvent e s).trace = s.trace := by
  cases e <;> simp [performEvent]
@[simp] theorem performEvent_responses (e : Event) (s : State) :
    (performEvent e s).responses = s.responses := by
  cases e <;> simp [performEvent]
@[simp] theorem performEvent_params (e : Event) (s : State) :
    (performEvent e s).params = s.params := by
  cases e <;> simp [performEvent]
@[simp] theorem performEvent_past (e : Event) (s : State) :
    (performEvent e s).past = s.past := by
  cases e <;> simp [performEvent]
@[simp] theorem performEvent_inputs (e : Event) (s : State) :
    (performEvent e s).inputs = s.inputs := by
  cases e <;> simp [performEvent]
@[simp] theorem performEvent_answers (e : Event) (s : State) :
    (performEvent e s).answers = s.answers := by
  cases e <;> simp [performEvent]
@[simp] theorem performEvent_freeIdx (e : Event) (s : State) :
    (performEvent e s).freeIdx = s.freeIdx := by
  cases e <;> simp [performEvent]
@[simp] theorem spoilEvent_ready (e : Event) (n : Nat) (s : State) :
    (spoilEvent e n s).ready = s.ready := by
  cases e <;> simp [spoilEvent]
@[simp] theorem spoilEvent_hue (e : Event) (n : Nat) (s : State) :
    (spoilEvent e n s).hue = s.hue := by
  cases e <;> simp [spoilEvent]
@[simp] theorem spoilEvent_ledcnt (e : Event) (n : Nat) (s : State) :
    (spoilEvent e n s).ledcnt = s.ledcnt := by
  cases e <;> simp [spoilEvent]
@[simp] theorem spoilEvent_buf (e : Event) (n : Nat) (s : State) :
    (spoilEvent e n s).buf = s.buf := by
  cases e <;> simp [spoilEvent]
@[simp] theorem spoilEvent_res (e : Event) (n : Nat) (s : State) :
    (spoilEvent e n s).res = s.res := by
  cases e <;> simp [spoilEvent]
@[simp] theorem spoilEvent_status (e : Event) (n : Nat) (s : State) :
    (spoilEvent e n s).status = s.status := by
  cases e <;> simp [spoilEvent]
@[simp] theorem spoilEvent_defdelay (e : Event) (n : Nat) (s : State) :
    (spoilEvent e n s).defdelay = s.defdelay := by
  cases e <;> simp [spoilEvent]
@[simp] theorem spoilEvent_time (e : Event) (n : Nat) (s : State) :
    (spoilEvent e n s).time = s.time := by
  cases e <;> simp [spoilEvent]
@[simp] theorem spoilEvent_blState (e : Event) (n : Nat) (s : State) :
    (spoilEvent e n s).blState = s.blState := by
  cases e <;> simp [spoilEvent]
@[simp] theorem spoilEvent_blMode (e : Event) (n : Nat) (s : State) :
    (spoilEvent e n s).blMode = s.blMode := by
  cases e <;> simp [spoilEvent]
@[simp] theorem spoilEvent_blChar (e : Event) (n : Nat) (s : State) :
    (spoilEvent e n s).blChar = s.blChar := by
  cases e <;> simp [spoilEvent]
@[simp] theorem spoilEvent_blShow (e : Event) (n : Nat) (s : State) :
    (spoilEvent e n s).blShow = s.blShow := by
  cases e <;> simp [spoilEvent]
@[simp] theorem spoilEvent_blIdle (e : Event) (n : Nat) (s : State) :
    (spoilEvent e n s).blIdle = s.blIdle := by
  cases e <;> simp [spoilEvent]
@[simp] theorem spoilEvent_blCnt (e : Event) (n : Nat) (s : State) :
    (spoilEvent e n s).blCnt = s.blCnt := by
  cases e <;> simp [spoilEvent]
@[simp] theorem spoilEvent_blT0 (e : Event) (n : Nat) (s : State) :
    (spoilEvent e n s).blT0 = s.blT0 := by
  cases e <;> simp [spoilEvent]
@[simp] theorem spoilEvent_blElapse (e : Event) (n : Nat) (s : State) :
    (spoilEvent e n s).blElapse = s.blElapse := by
  cases e <;> simp [spoilEvent]
@[simp] theorem spoilEvent_trace (e : Event) (n : Nat) (s : State) :
    (spoilEvent e n s).trace = s.trace := by
  cases e <;> simp [spoilEvent]
@[simp] theorem spoilEvent_responses (e : Event) (n : Nat) (s : State) :
    (spoilEvent e n s).responses = s.responses := by
  cases e <;> simp [spoilEvent]
@[simp] theorem spoilEvent_params (e : Event) (n : Nat) (s : State) :
    (spoilEvent e n s).params = s.params := by
  cases e <;> simp [spoilEvent]
@[simp] theorem spoilEvent_past (e : Event) (n : Nat) (s : State) :
    (spoilEvent e n s).past = s.past := by
  cases e <;> simp [spoilEvent]
@[simp] theorem spoilEvent_inputs (e : Event) (n : Nat) (s : State) :
    (spoilEvent e n s).inputs = s.inputs := by
  cases e <;> simp [spoilEvent]
@[simp] theorem spoilEvent_answers (e : Event) (n : Nat) (s : State) :
    (spoilEvent e n s).answers = s.answers := by
  cases e <;> simp [spoilEvent]
@[simp] theorem spoilEvent_freeIdx (e : Event) (n : Nat) (s : State) :
    (spoilEvent e n s).freeIdx = s.freeIdx := by
  cases e <;> simp [spoilEvent]

/-! ## The fields of STATUS -/

@[simp] theorem ended_code (t : Status) (op : Byte) (c : Code) : (t.ended op c).code = c := rfl
@[simp] theorem ended_ledcfg (t : Status) (op : Byte) (c : Code) :
    (t.ended op c).ledcfg = t.ledcfg := rfl
@[simp] theorem ended_segcfg (t : Status) (op : Byte) (c : Code) :
    (t.ended op c).segcfg = t.segcfg := rfl
@[simp] theorem ended_lastop (t : Status) (op : Byte) (c : Code) : (t.ended op c).lastop = op := rfl
@[simp] theorem ended_fatal (t : Status) (op : Byte) (c : Code) :
    (t.ended op c).fatal = (t.fatal || c == .hardwareIO) := rfl

end Sys2Proof.Machine
end

