-- ==== Sys2Proof/Laws/Events.lean ====
section
/-! SUPPORT. Emitting events: what `emit` and `emitAll` can do, said once. -/

namespace Sys2Proof.Machine

/-- The state after an event that went through. -/
def doneEvent (e : Event) (s : State) : State :=
  if e.answered then performEvent e (logEvent e .done (takeAnswer s)) else logEvent e .done s

/-- The state after events that all went through. -/
def doneEvents (evs : List Event) (s : State) : State := evs.foldl (fun t e => doneEvent e t) s

/-- The state after a failed event. -/
def failedEvent (e : Event) (s : State) : State :=
  spoilEvent e s.freeIdx (logEvent e .fail (takeAnswer s))

/-- How many of the events the collaborator answers. -/
def answeredCount (evs : List Event) : Nat := (evs.filter Event.answered).length

/-- The ticks a list of events takes. -/
def ticksOf (p : Params) (evs : List Event) : Nat := (evs.map (eventTicks p)).sum

/-- Events entered as done. -/
def doneEntries (evs : List Event) : List TraceEntry := evs.map (fun e => ⟨e, .done⟩)

@[simp] theorem doneEvents_nil (s : State) : doneEvents [] s = s := rfl

theorem doneEvents_cons (e : Event) (evs : List Event) (s : State) :
    doneEvents (e :: evs) s = doneEvents evs (doneEvent e s) := rfl

theorem doneEvents_append (a b : List Event) (s : State) :
    doneEvents (a ++ b) s = doneEvents b (doneEvents a s) := by
  simp [doneEvents, List.foldl_append]

/-! ## Results -/

@[simp] theorem bind_ok (s : State) (f : State → Result) : (Result.ok s).bind f = f s := rfl
@[simp] theorem bind_raised (e : Code) (s : State) (f : State → Result) :
    (Result.raised e s).bind f = .raised e s := rfl
@[simp] theorem bind_running (s : State) (f : State → Result) :
    (Result.running s).bind f = .running s := rfl

theorem bind_assoc (r : Result) (f g : State → Result) :
    (r.bind f).bind g = r.bind (fun s => (f s).bind g) := by
  cases r <;> rfl

theorem emitAll_append (a b : List Event) (s : State) :
    emitAll (a ++ b) s = (emitAll a s).bind (emitAll b) := by
  induction a generalizing s with
  | nil => rfl
  | cons e rest ih =>
    simp only [List.cons_append, emitAll, bind_assoc]
    congr 1
    funext t
    exact ih t

theorem emitAll_singleton (e : Event) (s : State) : emitAll [e] s = emit e s := by
  simp only [emitAll]
  cases emit e s <;> rfl

/-! ## Answers -/

theorem answerAt_takeAnswer (s : State) (k : Nat) :
    answerAt (takeAnswer s) k = answerAt s (k + 1) := by
  simp only [answerAt, takeAnswer_answers, takeAnswer_freeIdx, List.getElem?_tail]
  have : s.freeIdx + 1 + k = s.freeIdx + (k + 1) := by omega
  rw [this]

/-- Only the listed answers and the event number decide an answer. -/
theorem answerAt_congr {s t : State} (k : Nat) (ha : s.answers = t.answers)
    (hf : s.freeIdx = t.freeIdx) : answerAt s k = answerAt t k := by
  simp [answerAt, ha, hf]

theorem doneEvent_answers (e : Event) (s : State) :
    (doneEvent e s).answers = if e.answered then s.answers.tail else s.answers := by
  unfold doneEvent
  split <;> simp

theorem doneEvent_freeIdx (e : Event) (s : State) :
    (doneEvent e s).freeIdx = if e.answered then s.freeIdx + 1 else s.freeIdx := by
  unfold doneEvent
  split <;> simp

theorem answerAt_doneEvent (e : Event) (s : State) (k : Nat) :
    answerAt (doneEvent e s) k = if e.answered then answerAt s (k + 1) else answerAt s k := by
  split
  · rename_i h
    rw [← answerAt_takeAnswer]
    exact answerAt_congr k (by simp [doneEvent_answers, h]) (by simp [doneEvent_freeIdx, h])
  · rename_i h
    exact answerAt_congr k (by simp [doneEvent_answers, h]) (by simp [doneEvent_freeIdx, h])

theorem answeredCount_cons (e : Event) (evs : List Event) :
    answeredCount (e :: evs) = (if e.answered then 1 else 0) + answeredCount evs := by
  unfold answeredCount
  by_cases h : e.answered = true
  · simp [h]; omega
  · simp [h]

theorem answeredCount_append (a b : List Event) :
    answeredCount (a ++ b) = answeredCount a + answeredCount b := by
  simp [answeredCount, List.filter_append]

theorem answerAt_doneEvents (evs : List Event) (s : State) (k : Nat) :
    answerAt (doneEvents evs s) k = answerAt s (k + answeredCount evs) := by
  induction evs generalizing s with
  | nil => simp [answeredCount]
  | cons e rest ih =>
    rw [doneEvents_cons, ih, answerAt_doneEvent, answeredCount_cons]
    split
    · congr 1; omega
    · congr 1; omega

/-! ## emit and emitAll -/

theorem emit_eq (e : Event) (s : State) :
    emit e s =
      if e.answered = true ∧ answerAt s 0 = .fail then .raised .hardwareIO (failedEvent e s)
      else .ok (doneEvent e s) := by
  unfold emit doneEvent failedEvent
  by_cases h : e.answered = true
  · cases ha : answerAt s 0 <;> simp [h]
  · simp [h]

/-- All events go through if the collaborator answers done to each. -/
theorem emitAll_done (evs : List Event) (s : State) (h : AnswersDone s (answeredCount evs)) :
    emitAll evs s = .ok (doneEvents evs s) := by
  induction evs generalizing s with
  | nil => rfl
  | cons e rest ih =>
    rw [answeredCount_cons] at h
    have h0 : ¬ (e.answered = true ∧ answerAt s 0 = .fail) := by
      rintro ⟨he, hf⟩
      have := h 0 (by simp [he])
      rw [hf] at this
      cases this
    rw [emitAll, emit_eq, if_neg h0, bind_ok, doneEvents_cons]
    apply ih
    intro k hk
    rw [answerAt_doneEvent]
    split
    · rename_i he
      exact h (k + 1) (by simp [he]; omega)
    · rename_i he
      exact h k (by simp [he]; omega)

/-- Everything `emitAll` can do: all events go through, or the first that fails ends it. -/
theorem emitAll_cases (evs : List Event) (s : State) :
    (AnswersDone s (answeredCount evs) ∧ emitAll evs s = .ok (doneEvents evs s)) ∨
    ∃ pre e post, evs = pre ++ e :: post ∧ e.answered = true ∧
      AnswersDone s (answeredCount pre) ∧ answerAt s (answeredCount pre) = .fail ∧
      emitAll evs s = .raised .hardwareIO (failedEvent e (doneEvents pre s)) := by
  induction evs generalizing s with
  | nil => exact .inl ⟨fun k hk => by simp [answeredCount] at hk, rfl⟩
  | cons e rest ih =>
    by_cases h0 : e.answered = true ∧ answerAt s 0 = .fail
    · refine .inr ⟨[], e, rest, rfl, h0.1, fun k hk => by simp [answeredCount] at hk, h0.2, ?_⟩
      rw [emitAll, emit_eq, if_pos h0]
      rfl
    · have hstep : emitAll (e :: rest) s = emitAll rest (doneEvent e s) := by
        rw [emitAll, emit_eq, if_neg h0, bind_ok]
      have hfirst : ∀ n, AnswersDone (doneEvent e s) n →
          AnswersDone s ((if e.answered = true then 1 else 0) + n) := by
        intro n hn k hk
        by_cases he : e.answered = true
        · cases k with
          | zero =>
            cases ha : answerAt s 0 with
            | done => rfl
            | fail => exact absurd ⟨he, ha⟩ h0
          | succ k =>
            have := hn k (by simp [he] at hk; omega)
            rwa [answerAt_doneEvent, if_pos he] at this
        · have := hn k (by simpa [he] using hk)
          rwa [answerAt_doneEvent, if_neg he] at this
      rcases ih (doneEvent e s) with ⟨hd, hr⟩ | ⟨pre, f, post, hsplit, hf, hd, hfail, hr⟩
      · refine .inl ⟨?_, by rw [hstep, hr, doneEvents_cons]⟩
        rw [answeredCount_cons]
        exact hfirst _ hd
      · refine .inr ⟨e :: pre, f, post, by rw [hsplit]; rfl, hf, ?_, ?_, by
          rw [hstep, hr, doneEvents_cons]⟩
        · rw [answeredCount_cons]
          exact hfirst _ hd
        · rw [answeredCount_cons]
          rw [answerAt_doneEvent] at hfail
          split at hfail
          · rename_i he
            rw [if_pos he]
            rwa [Nat.add_comm]
          · rename_i he
            rw [if_neg he]
            simpa using hfail

/-- An event that fails after events that went through ends the list, and the rest is not emitted. -/
theorem emitAll_fails (evs : List Event) (s : State) (j : Nat) (e : Event) (hj : evs[j]? = some e)
    (he : e.answered = true) (hd : AnswersDone s (answeredCount (evs.take j)))
    (hf : answerAt s (answeredCount (evs.take j)) = .fail) :
    emitAll evs s = .raised .hardwareIO (failedEvent e (doneEvents (evs.take j) s)) := by
  have hsplit : evs = evs.take j ++ (e :: evs.drop (j + 1)) := by
    obtain ⟨hlt, hget⟩ := List.getElem?_eq_some_iff.1 hj
    rw [← hget, List.getElem_cons_drop, List.take_append_drop]
  have h0 : answerAt (doneEvents (evs.take j) s) 0 = .fail := by
    rw [answerAt_doneEvents, Nat.zero_add, hf]
  rw [hsplit, emitAll_append, ← hsplit, emitAll_done _ _ hd, bind_ok, emitAll, emit_eq,
    if_pos ⟨he, h0⟩, bind_raised]

/-- Events are only ever raised as `HardwareIO`. -/
theorem emitAll_raised {evs : List Event} {s t : State} {e : Code}
    (h : emitAll evs s = .raised e t) : e = .hardwareIO := by
  rcases emitAll_cases evs s with ⟨-, hr⟩ | ⟨_, _, _, -, -, -, -, hr⟩ <;> rw [hr] at h <;> cases h
  rfl

/-! ## The fields after events -/

theorem doneEvents_trace (evs : List Event) (s : State) :
    (doneEvents evs s).trace = s.trace ++ doneEntries evs := by
  induction evs generalizing s with
  | nil => simp [doneEntries]
  | cons e rest ih =>
    rw [doneEvents_cons, ih]
    have : (doneEvent e s).trace = s.trace ++ [⟨e, .done⟩] := by
      unfold doneEvent
      split <;> simp
    rw [this]
    simp [doneEntries]

theorem doneEvents_answers (evs : List Event) (s : State) :
    (doneEvents evs s).answers = s.answers.drop (answeredCount evs) := by
  induction evs generalizing s with
  | nil => simp [answeredCount]
  | cons e rest ih =>
    rw [doneEvents_cons, ih, doneEvent_answers, answeredCount_cons]
    split
    · rw [← List.drop_one, List.drop_drop]
    · simp

theorem doneEvents_freeIdx (evs : List Event) (s : State) :
    (doneEvents evs s).freeIdx = s.freeIdx + answeredCount evs := by
  induction evs generalizing s with
  | nil => simp [answeredCount]
  | cons e rest ih =>
    rw [doneEvents_cons, ih, doneEvent_freeIdx, answeredCount_cons]
    split <;> omega

@[simp] theorem doneEvent_ready (e : Event) (s : State) : (doneEvent e s).ready = s.ready := by
  unfold doneEvent; split <;> simp
@[simp] theorem doneEvents_ready (evs : List Event) (s : State) : (doneEvents evs s).ready = s.ready := by
  induction evs generalizing s with
  | nil => rfl
  | cons e rest ih => rw [doneEvents_cons, ih, doneEvent_ready]
@[simp] theorem failedEvent_ready (e : Event) (s : State) : (failedEvent e s).ready = s.ready := by
  simp [failedEvent]

@[simp] theorem doneEvent_hue (e : Event) (s : State) : (doneEvent e s).hue = s.hue := by
  unfold doneEvent; split <;> simp
@[simp] theorem doneEvents_hue (evs : List Event) (s : State) : (doneEvents evs s).hue = s.hue := by
  induction evs generalizing s with
  | nil => rfl
  | cons e rest ih => rw [doneEvents_cons, ih, doneEvent_hue]
@[simp] theorem failedEvent_hue (e : Event) (s : State) : (failedEvent e s).hue = s.hue := by
  simp [failedEvent]

@[simp] theorem doneEvent_ledcnt (e : Event) (s : State) : (doneEvent e s).ledcnt = s.ledcnt := by
  unfold doneEvent; split <;> simp
@[simp] theorem doneEvents_ledcnt (evs : List Event) (s : State) : (doneEvents evs s).ledcnt = s.ledcnt := by
  induction evs generalizing s with
  | nil => rfl
  | cons e rest ih => rw [doneEvents_cons, ih, doneEvent_ledcnt]
@[simp] theorem failedEvent_ledcnt (e : Event) (s : State) : (failedEvent e s).ledcnt = s.ledcnt := by
  simp [failedEvent]

@[simp] theorem doneEvent_buf (e : Event) (s : State) : (doneEvent e s).buf = s.buf := by
  unfold doneEvent; split <;> simp
@[simp] theorem doneEvents_buf (evs : List Event) (s : State) : (doneEvents evs s).buf = s.buf := by
  induction evs generalizing s with
  | nil => rfl
  | cons e rest ih => rw [doneEvents_cons, ih, doneEvent_buf]
@[simp] theorem failedEvent_buf (e : Event) (s : State) : (failedEvent e s).buf = s.buf := by
  simp [failedEvent]

@[simp] theorem doneEvent_res (e : Event) (s : State) : (doneEvent e s).res = s.res := by
  unfold doneEvent; split <;> simp
@[simp] theorem doneEvents_res (evs : List Event) (s : State) : (doneEvents evs s).res = s.res := by
  induction evs generalizing s with
  | nil => rfl
  | cons e rest ih => rw [doneEvents_cons, ih, doneEvent_res]
@[simp] theorem failedEvent_res (e : Event) (s : State) : (failedEvent e s).res = s.res := by
  simp [failedEvent]

@[simp] theorem doneEvent_status (e : Event) (s : State) : (doneEvent e s).status = s.status := by
  unfold doneEvent; split <;> simp
@[simp] theorem doneEvents_status (evs : List Event) (s : State) : (doneEvents evs s).status = s.status := by
  induction evs generalizing s with
  | nil => rfl
  | cons e rest ih => rw [doneEvents_cons, ih, doneEvent_status]
@[simp] theorem failedEvent_status (e : Event) (s : State) : (failedEvent e s).status = s.status := by
  simp [failedEvent]

@[simp] theorem doneEvent_defdelay (e : Event) (s : State) : (doneEvent e s).defdelay = s.defdelay := by
  unfold doneEvent; split <;> simp
@[simp] theorem doneEvents_defdelay (evs : List Event) (s : State) : (doneEvents evs s).defdelay = s.defdelay := by
  induction evs generalizing s with
  | nil => rfl
  | cons e rest ih => rw [doneEvents_cons, ih, doneEvent_defdelay]
@[simp] theorem failedEvent_defdelay (e : Event) (s : State) : (failedEvent e s).defdelay = s.defdelay := by
  simp [failedEvent]

@[simp] theorem doneEvent_blState (e : Event) (s : State) : (doneEvent e s).blState = s.blState := by
  unfold doneEvent; split <;> simp
@[simp] theorem doneEvents_blState (evs : List Event) (s : State) : (doneEvents evs s).blState = s.blState := by
  induction evs generalizing s with
  | nil => rfl
  | cons e rest ih => rw [doneEvents_cons, ih, doneEvent_blState]
@[simp] theorem failedEvent_blState (e : Event) (s : State) : (failedEvent e s).blState = s.blState := by
  simp [failedEvent]

@[simp] theorem doneEvent_blMode (e : Event) (s : State) : (doneEvent e s).blMode = s.blMode := by
  unfold doneEvent; split <;> simp
@[simp] theorem doneEvents_blMode (evs : List Event) (s : State) : (doneEvents evs s).blMode = s.blMode := by
  induction evs generalizing s with
  | nil => rfl
  | cons e rest ih => rw [doneEvents_cons, ih, doneEvent_blMode]
@[simp] theorem failedEvent_blMode (e : Event) (s : State) : (failedEvent e s).blMode = s.blMode := by
  simp [failedEvent]

@[simp] theorem doneEvent_blChar (e : Event) (s : State) : (doneEvent e s).blChar = s.blChar := by
  unfold doneEvent; split <;> simp
@[simp] theorem doneEvents_blChar (evs : List Event) (s : State) : (doneEvents evs s).blChar = s.blChar := by
  induction evs generalizing s with
  | nil => rfl
  | cons e rest ih => rw [doneEvents_cons, ih, doneEvent_blChar]
@[simp] theorem failedEvent_blChar (e : Event) (s : State) : (failedEvent e s).blChar = s.blChar := by
  simp [failedEvent]

@[simp] theorem doneEvent_blShow (e : Event) (s : State) : (doneEvent e s).blShow = s.blShow := by
  unfold doneEvent; split <;> simp
@[simp] theorem doneEvents_blShow (evs : List Event) (s : State) : (doneEvents evs s).blShow = s.blShow := by
  induction evs generalizing s with
  | nil => rfl
  | cons e rest ih => rw [doneEvents_cons, ih, doneEvent_blShow]
@[simp] theorem failedEvent_blShow (e : Event) (s : State) : (failedEvent e s).blShow = s.blShow := by
  simp [failedEvent]

@[simp] theorem doneEvent_blIdle (e : Event) (s : State) : (doneEvent e s).blIdle = s.blIdle := by
  unfold doneEvent; split <;> simp
@[simp] theorem doneEvents_blIdle (evs : List Event) (s : State) : (doneEvents evs s).blIdle = s.blIdle := by
  induction evs generalizing s with
  | nil => rfl
  | cons e rest ih => rw [doneEvents_cons, ih, doneEvent_blIdle]
@[simp] theorem failedEvent_blIdle (e : Event) (s : State) : (failedEvent e s).blIdle = s.blIdle := by
  simp [failedEvent]

@[simp] theorem doneEvent_blCnt (e : Event) (s : State) : (doneEvent e s).blCnt = s.blCnt := by
  unfold doneEvent; split <;> simp
@[simp] theorem doneEvents_blCnt (evs : List Event) (s : State) : (doneEvents evs s).blCnt = s.blCnt := by
  induction evs generalizing s with
  | nil => rfl
  | cons e rest ih => rw [doneEvents_cons, ih, doneEvent_blCnt]
@[simp] theorem failedEvent_blCnt (e : Event) (s : State) : (failedEvent e s).blCnt = s.blCnt := by
  simp [failedEvent]

@[simp] theorem doneEvent_blT0 (e : Event) (s : State) : (doneEvent e s).blT0 = s.blT0 := by
  unfold doneEvent; split <;> simp
@[simp] theorem doneEvents_blT0 (evs : List Event) (s : State) : (doneEvents evs s).blT0 = s.blT0 := by
  induction evs generalizing s with
  | nil => rfl
  | cons e rest ih => rw [doneEvents_cons, ih, doneEvent_blT0]
@[simp] theorem failedEvent_blT0 (e : Event) (s : State) : (failedEvent e s).blT0 = s.blT0 := by
  simp [failedEvent]

@[simp] theorem doneEvent_blElapse (e : Event) (s : State) : (doneEvent e s).blElapse = s.blElapse := by
  unfold doneEvent; split <;> simp
@[simp] theorem doneEvents_blElapse (evs : List Event) (s : State) : (doneEvents evs s).blElapse = s.blElapse := by
  induction evs generalizing s with
  | nil => rfl
  | cons e rest ih => rw [doneEvents_cons, ih, doneEvent_blElapse]
@[simp] theorem failedEvent_blElapse (e : Event) (s : State) : (failedEvent e s).blElapse = s.blElapse := by
  simp [failedEvent]

@[simp] theorem doneEvent_responses (e : Event) (s : State) : (doneEvent e s).responses = s.responses := by
  unfold doneEvent; split <;> simp
@[simp] theorem doneEvents_responses (evs : List Event) (s : State) : (doneEvents evs s).responses = s.responses := by
  induction evs generalizing s with
  | nil => rfl
  | cons e rest ih => rw [doneEvents_cons, ih, doneEvent_responses]
@[simp] theorem failedEvent_responses (e : Event) (s : State) : (failedEvent e s).responses = s.responses := by
  simp [failedEvent]

@[simp] theorem doneEvent_params (e : Event) (s : State) : (doneEvent e s).params = s.params := by
  unfold doneEvent; split <;> simp
@[simp] theorem doneEvents_params (evs : List Event) (s : State) : (doneEvents evs s).params = s.params := by
  induction evs generalizing s with
  | nil => rfl
  | cons e rest ih => rw [doneEvents_cons, ih, doneEvent_params]
@[simp] theorem failedEvent_params (e : Event) (s : State) : (failedEvent e s).params = s.params := by
  simp [failedEvent]

@[simp] theorem doneEvent_past (e : Event) (s : State) : (doneEvent e s).past = s.past := by
  unfold doneEvent; split <;> simp
@[simp] theorem doneEvents_past (evs : List Event) (s : State) : (doneEvents evs s).past = s.past := by
  induction evs generalizing s with
  | nil => rfl
  | cons e rest ih => rw [doneEvents_cons, ih, doneEvent_past]
@[simp] theorem failedEvent_past (e : Event) (s : State) : (failedEvent e s).past = s.past := by
  simp [failedEvent]

@[simp] theorem doneEvent_inputs (e : Event) (s : State) : (doneEvent e s).inputs = s.inputs := by
  unfold doneEvent; split <;> simp
@[simp] theorem doneEvents_inputs (evs : List Event) (s : State) : (doneEvents evs s).inputs = s.inputs := by
  induction evs generalizing s with
  | nil => rfl
  | cons e rest ih => rw [doneEvents_cons, ih, doneEvent_inputs]
@[simp] theorem failedEvent_inputs (e : Event) (s : State) : (failedEvent e s).inputs = s.inputs := by
  simp [failedEvent]


theorem doneEvents_time (evs : List Event) (s : State) :
    (doneEvents evs s).time = s.time + BitVec.ofNat 64 (ticksOf s.params evs) := by
  induction evs generalizing s with
  | nil => simp [ticksOf]
  | cons e rest ih =>
    rw [doneEvents_cons, ih, doneEvent_params]
    have : (doneEvent e s).time = s.time + BitVec.ofNat 64 (eventTicks s.params e) := by
      unfold doneEvent
      split <;> simp
    rw [this]
    simp [ticksOf, BitVec.ofNat_add, BitVec.add_assoc]

/-! ## The line registers after events -/

/-- A line's level after one done event. -/
def levelStep (l : Line) (b : Bool) : Event → Bool
  | .pin k v => if k = l then v else b
  | .pinDir k => if k = l then false else b
  | .busMode _ => b
  | .busBitOrder _ => b
  | .busFreq _ => b
  | .byte _ => b
  | .wait _ => b

/-- A line's level after done events. -/
def levelAfter (l : Line) (evs : List Event) (b : Bool) : Bool := evs.foldl (levelStep l) b

/-- `PIN_OE` after one done event. -/
def oeStep (m : BitVec 4) : Event → BitVec 4
  | .pinDir k => m ||| oeMask k
  | .pin _ _ => m
  | .busMode _ => m
  | .busBitOrder _ => m
  | .busFreq _ => m
  | .byte _ => m
  | .wait _ => m

/-- `PIN_OE` after done events. -/
def oeAfter (evs : List Event) (m : BitVec 4) : BitVec 4 := evs.foldl oeStep m

theorem doneEvents_pinData (evs : List Event) (s : State) :
    (doneEvents evs s).pinData = levelAfter .data evs s.pinData := by
  induction evs generalizing s with
  | nil => rfl
  | cons e rest ih =>
    rw [doneEvents_cons, ih]
    cases e <;> simp [levelAfter, levelStep, doneEvent, Event.answered, performEvent]

theorem doneEvents_pinClock (evs : List Event) (s : State) :
    (doneEvents evs s).pinClock = levelAfter .clock evs s.pinClock := by
  induction evs generalizing s with
  | nil => rfl
  | cons e rest ih =>
    rw [doneEvents_cons, ih]
    cases e <;> simp [levelAfter, levelStep, doneEvent, Event.answered, performEvent]

theorem doneEvents_pinLatch (evs : List Event) (s : State) :
    (doneEvents evs s).pinLatch = levelAfter .latch evs s.pinLatch := by
  induction evs generalizing s with
  | nil => rfl
  | cons e rest ih =>
    rw [doneEvents_cons, ih]
    cases e <;> simp [levelAfter, levelStep, doneEvent, Event.answered, performEvent]

theorem doneEvents_pinClear (evs : List Event) (s : State) :
    (doneEvents evs s).pinClear = levelAfter .clear evs s.pinClear := by
  induction evs generalizing s with
  | nil => rfl
  | cons e rest ih =>
    rw [doneEvents_cons, ih]
    cases e <;> simp [levelAfter, levelStep, doneEvent, Event.answered, performEvent]

theorem doneEvents_pinOe (evs : List Event) (s : State) :
    (doneEvents evs s).pinOe = oeAfter evs s.pinOe := by
  induction evs generalizing s with
  | nil => rfl
  | cons e rest ih =>
    rw [doneEvents_cons, ih]
    cases e <;> simp [oeAfter, oeStep, doneEvent, Event.answered, performEvent]

theorem state_ext {s t : State} (h1 : s.ready = t.ready) (h2 : s.hue = t.hue)
    (h3 : s.ledcnt = t.ledcnt) (h4 : s.buf = t.buf) (h5 : s.res = t.res)
    (h6 : s.status = t.status) (h7 : s.defdelay = t.defdelay) (h8 : s.pinData = t.pinData)
    (h9 : s.pinClock = t.pinClock) (h10 : s.pinLatch = t.pinLatch)
    (h11 : s.pinClear = t.pinClear) (h12 : s.pinOe = t.pinOe) (h13 : s.time = t.time)
    (h14 : s.blState = t.blState) (h15 : s.blMode = t.blMode) (h16 : s.blChar = t.blChar)
    (h17 : s.blShow = t.blShow) (h18 : s.blIdle = t.blIdle) (h19 : s.blCnt = t.blCnt)
    (h20 : s.blT0 = t.blT0) (h21 : s.blElapse = t.blElapse) (h22 : s.trace = t.trace)
    (h23 : s.responses = t.responses) (h24 : s.params = t.params) (h25 : s.inputs = t.inputs)
    (h26 : s.answers = t.answers) (h27 : s.freeIdx = t.freeIdx)
    (h28 : s.past = t.past) : s = t := by
  cases s
  cases t
  simp_all

/-- The state after done events in one record: the trace, `TIME`, the line registers, and the answers
taken. -/
theorem doneEvents_eq (evs : List Event) (s : State) :
    doneEvents evs s =
      { s with
        trace := s.trace ++ doneEntries evs
        time := s.time + BitVec.ofNat 64 (ticksOf s.params evs)
        pinData := levelAfter .data evs s.pinData
        pinClock := levelAfter .clock evs s.pinClock
        pinLatch := levelAfter .latch evs s.pinLatch
        pinClear := levelAfter .clear evs s.pinClear
        pinOe := oeAfter evs s.pinOe
        answers := s.answers.drop (answeredCount evs)
        freeIdx := s.freeIdx + answeredCount evs } := by
  apply state_ext <;>
    simp [doneEvents_trace, doneEvents_time, doneEvents_pinData, doneEvents_pinClock,
      doneEvents_pinLatch, doneEvents_pinClear, doneEvents_pinOe, doneEvents_answers,
      doneEvents_freeIdx]

theorem failedEvent_trace (e : Event) (s : State) :
    (failedEvent e s).trace = s.trace ++ [⟨e, .fail⟩] := by
  simp [failedEvent]

end Sys2Proof.Machine
end

