-- ==== Sys2Proof/Laws/Commands.lean ====
section
/-! SUPPORT. What running a command's body does to the trace, `TIME` and the answers (`Ran`), and which
registers the seven-segment bodies leave alone (`SegKeeps`), once for every subroutine. -/

namespace Sys2Proof.Machine

/-- The ticks the entries of a trace took. -/
def ticksOfEntries (p : Params) (new : List TraceEntry) : Nat :=
  (new.map (fun e => eventTicks p e.event)).sum

/-- How many entries took an answer. -/
def answersOf (new : List TraceEntry) : List Answer :=
  (new.filter (fun e => e.event.answered)).map TraceEntry.answer

/-- `t` comes from `s` by emitting `new`: nothing is said of the registers a command writes. -/
structure Ran (s t : State) (new : List TraceEntry) : Prop where
  trace : t.trace = s.trace ++ new
  time : t.time = s.time + BitVec.ofNat 64 (ticksOfEntries s.params new)
  answers : t.answers = s.answers.drop (answersOf new).length
  freeIdx : t.freeIdx = s.freeIdx + (answersOf new).length
  taken : ∀ k, k < (answersOf new).length → (answersOf new)[k]? = some (answerAt s k)
  waits : ∀ e ∈ new, e.event.answered = false → e.answer = .done
  params : t.params = s.params
  inputs : t.inputs = s.inputs
  responses : t.responses = s.responses
  past : t.past = s.past

/-- Every entry was answered done. -/
def AllDone (new : List TraceEntry) : Prop := ∀ e ∈ new, e.answer = .done

/-- The last entry failed, the ones before it did not. -/
def LastFailed (new : List TraceEntry) : Prop :=
  AllDone new.dropLast ∧ ∃ e, new.getLast? = some e ∧ e.answer = .fail

theorem answersOf_append (a b : List TraceEntry) :
    answersOf (a ++ b) = answersOf a ++ answersOf b := by
  simp [answersOf, List.filter_append]

theorem ticksOfEntries_append (p : Params) (a b : List TraceEntry) :
    ticksOfEntries p (a ++ b) = ticksOfEntries p a + ticksOfEntries p b := by
  simp [ticksOfEntries]

theorem Ran.refl (s : State) : Ran s s [] := by
  constructor <;> simp [ticksOfEntries, answersOf]

theorem answerAt_of_ran {s t : State} {new : List TraceEntry} (h : Ran s t new) (k : Nat) :
    answerAt t k = answerAt s ((answersOf new).length + k) := by
  simp [answerAt, h.answers, h.freeIdx, Nat.add_assoc]

theorem Ran.trans {s t u : State} {a b : List TraceEntry} (h : Ran s t a) (g : Ran t u b) :
    Ran s u (a ++ b) where
  trace := by rw [g.trace, h.trace, List.append_assoc]
  time := by
    rw [g.time, h.time, h.params, ticksOfEntries_append, BitVec.ofNat_add, BitVec.add_assoc]
  answers := by
    rw [g.answers, h.answers, List.drop_drop, answersOf_append, List.length_append]
  freeIdx := by
    rw [g.freeIdx, h.freeIdx, answersOf_append, List.length_append, Nat.add_assoc]
  taken := by
    intro k hk
    rw [answersOf_append, List.length_append] at hk
    rw [answersOf_append]
    by_cases hlt : k < (answersOf a).length
    · rw [List.getElem?_append_left hlt, h.taken k hlt]
    · rw [List.getElem?_append_right (by omega), g.taken _ (by omega), answerAt_of_ran h]
      rw [Nat.add_sub_cancel' (by omega)]
  waits := by
    intro e he
    rcases List.mem_append.1 he with he | he
    · exact h.waits e he
    · exact g.waits e he
  params := by rw [g.params, h.params]
  inputs := by rw [g.inputs, h.inputs]
  responses := by rw [g.responses, h.responses]
  past := by rw [g.past, h.past]

/-- Writing registers that `Ran` does not speak of. -/
theorem Ran.congr {s t s' t' : State} {new : List TraceEntry} (h : Ran s t new)
    (s1 : s'.trace = s.trace) (s2 : s'.time = s.time) (s3 : s'.answers = s.answers)
    (s4 : s'.freeIdx = s.freeIdx) (s5 : s'.params = s.params) (s6 : s'.inputs = s.inputs)
    (s7 : s'.responses = s.responses) (s8 : s'.past = s.past)
    (t1 : t'.trace = t.trace) (t2 : t'.time = t.time) (t3 : t'.answers = t.answers)
    (t4 : t'.freeIdx = t.freeIdx) (t5 : t'.params = t.params) (t6 : t'.inputs = t.inputs)
    (t7 : t'.responses = t.responses) (t8 : t'.past = t.past) : Ran s' t' new where
  trace := by rw [t1, h.trace, s1]
  time := by rw [t2, h.time, s2, s5]
  answers := by rw [t3, h.answers, s3]
  freeIdx := by rw [t4, h.freeIdx, s4]
  taken := fun k hk => by rw [h.taken k hk, answerAt_congr k s3 s4]
  waits := h.waits
  params := by rw [t5, h.params, s5]
  inputs := by rw [t6, h.inputs, s6]
  responses := by rw [t7, h.responses, s7]
  past := by rw [t8, h.past, s8]

/-- What a body's result says of its events: all done, unless it was raised as `HardwareIO`, and then
the last one failed. -/
def Result.Ran (s : State) : Result → Prop
  | .ok t => ∃ new, Machine.Ran s t new ∧ AllDone new
  | .running t => ∃ new, Machine.Ran s t new ∧ AllDone new
  | .raised e t => ∃ new, Machine.Ran s t new ∧
      ((e = .hardwareIO ∧ LastFailed new) ∨ (e = .invalidArgument ∧ AllDone new))

theorem AllDone.append {a b : List TraceEntry} (ha : AllDone a) (hb : AllDone b) :
    AllDone (a ++ b) := by
  intro e he
  rcases List.mem_append.1 he with he | he
  · exact ha e he
  · exact hb e he

theorem LastFailed.append {a b : List TraceEntry} (ha : AllDone a) (hb : LastFailed b) :
    LastFailed (a ++ b) := by
  obtain ⟨hd, e, hl, he⟩ := hb
  have hne : b ≠ [] := by
    rintro rfl
    cases hl
  refine ⟨?_, e, ?_, he⟩
  · rw [List.dropLast_append_of_ne_nil hne]
    exact ha.append hd
  · rw [List.getLast?_append_of_ne_nil _ hne, hl]

/-- Sequencing two bodies. -/
theorem Result.Ran.bind {s : State} {r : Result} {f : State → Result} (h : r.Ran s)
    (g : ∀ t, r = .ok t → (f t).Ran t) : (r.bind f).Ran s := by
  cases r with
  | ok t =>
    obtain ⟨a, ha, hd⟩ := h
    have hg := g t rfl
    rw [bind_ok]
    cases hf : f t with
    | ok u =>
      rw [hf] at hg
      obtain ⟨b, hb, hbd⟩ := hg
      exact ⟨a ++ b, ha.trans hb, hd.append hbd⟩
    | running u =>
      rw [hf] at hg
      obtain ⟨b, hb, hbd⟩ := hg
      exact ⟨a ++ b, ha.trans hb, hd.append hbd⟩
    | raised e u =>
      rw [hf] at hg
      obtain ⟨b, hb, hc⟩ := hg
      refine ⟨a ++ b, ha.trans hb, ?_⟩
      rcases hc with ⟨he, hl⟩ | ⟨he, hl⟩
      · exact .inl ⟨he, LastFailed.append hd hl⟩
      · exact .inr ⟨he, hd.append hl⟩
  | raised e t => exact h
  | running t => exact h

/-! ## Events -/

theorem answersOf_doneEntries (evs : List Event) :
    (answersOf (doneEntries evs)).length = answeredCount evs := by
  induction evs with
  | nil => rfl
  | cons e rest ih =>
    rw [answeredCount_cons]
    simp only [doneEntries, answersOf, List.map_cons] at ih ⊢
    by_cases h : e.answered = true
    · simp only [List.filter_cons, h, if_true, List.map_cons, List.length_cons, ih]; omega
    · simp [h, ih]

theorem answersOf_doneEntries_get (evs : List Event) (k : Nat) (hk : k < answeredCount evs) :
    (answersOf (doneEntries evs))[k]? = some .done := by
  have hmem : ∀ a ∈ answersOf (doneEntries evs), a = .done := by
    intro a ha
    simp only [answersOf, doneEntries, List.mem_map, List.mem_filter] at ha
    obtain ⟨e, ⟨⟨ev, -, rfl⟩, -⟩, rfl⟩ := ha
    rfl
  have hlt : k < (answersOf (doneEntries evs)).length := by rwa [answersOf_doneEntries]
  rw [List.getElem?_eq_getElem hlt]
  exact congrArg some (hmem _ (List.getElem_mem hlt))

theorem ticksOfEntries_doneEntries (p : Params) (evs : List Event) :
    ticksOfEntries p (doneEntries evs) = ticksOf p evs := by
  simp [ticksOfEntries, doneEntries, ticksOf, Function.comp_def]

theorem allDone_doneEntries (evs : List Event) : AllDone (doneEntries evs) := by
  intro e he
  simp only [doneEntries, List.mem_map] at he
  obtain ⟨_, -, rfl⟩ := he
  rfl

theorem ran_doneEvents (evs : List Event) (s : State) (h : AnswersDone s (answeredCount evs)) :
    Ran s (doneEvents evs s) (doneEntries evs) where
  trace := doneEvents_trace evs s
  time := by rw [doneEvents_time, ticksOfEntries_doneEntries]
  answers := by rw [doneEvents_answers, answersOf_doneEntries]
  freeIdx := by rw [doneEvents_freeIdx, answersOf_doneEntries]
  taken := by
    intro k hk
    rw [answersOf_doneEntries] at hk
    rw [answersOf_doneEntries_get evs k hk, h k hk]
  waits := fun e he _ => allDone_doneEntries evs e he
  params := doneEvents_params evs s
  inputs := doneEvents_inputs evs s
  responses := doneEvents_responses evs s
  past := doneEvents_past evs s

theorem ran_failedEvent (e : Event) (s : State) (he : e.answered = true)
    (h : answerAt s 0 = .fail) : Ran s (failedEvent e s) [⟨e, .fail⟩] where
  trace := failedEvent_trace e s
  time := by simp [failedEvent, ticksOfEntries]
  answers := by simp [failedEvent, answersOf, he]
  freeIdx := by simp [failedEvent, answersOf, he]
  taken := by
    intro k hk
    have : k = 0 := by simpa [answersOf, he] using hk
    subst this
    simp [answersOf, he, h]
  waits := by
    intro x hx hw
    simp only [List.mem_singleton] at hx
    subst hx
    rw [he] at hw
    cases hw
  params := failedEvent_params e s
  inputs := failedEvent_inputs e s
  responses := failedEvent_responses e s
  past := failedEvent_past e s

theorem ran_emitAll (evs : List Event) (s : State) : (emitAll evs s).Ran s := by
  rcases emitAll_cases evs s with ⟨hd, hr⟩ | ⟨pre, e, post, -, he, hd, hf, hr⟩
  · rw [hr]
    exact ⟨_, ran_doneEvents evs s hd, allDone_doneEntries evs⟩
  · rw [hr]
    have hf' : answerAt (doneEvents pre s) 0 = .fail := by
      rw [answerAt_doneEvents, Nat.zero_add]
      exact hf
    refine ⟨_, (ran_doneEvents pre s hd).trans (ran_failedEvent e _ he hf'), .inl ⟨rfl, ?_, ?_⟩⟩
    · rw [List.dropLast_concat]
      exact allDone_doneEntries pre
    · exact ⟨_, List.getLast?_concat, rfl⟩

theorem ran_emit (e : Event) (s : State) : (emit e s).Ran s := by
  rw [← emitAll_singleton]
  exact ran_emitAll [e] s

/-! ## The seven-segment subroutines -/

theorem ran_shiftOut (v : Byte) (s : State) : (shiftOut v s).Ran s := ran_emitAll _ s

theorem ran_clearSeq (s : State) : (clearSeq s).Ran s :=
  (ran_emitAll _ s).bind (fun t _ => ran_shiftOut 0 t)

theorem ran_putcSeq (c : Byte) (d : Nat) (s : State) : (putcSeq c d s).Ran s := by
  unfold putcSeq
  split
  · exact ⟨[], Ran.refl s, .inr ⟨rfl, fun e he => by cases he⟩⟩
  · exact (ran_shiftOut _ s).bind (fun t _ => ran_emit _ t)

theorem ran_putsSeq (d : Nat) (cs : List Byte) (s : State) : (putsSeq d cs s).Ran s := by
  induction cs generalizing s with
  | nil => exact ⟨[], Ran.refl s, fun e he => by cases he⟩
  | cons c rest ih => exact (ran_putcSeq c d s).bind (fun t _ => ih t)

/-- A body that starts by writing registers `Ran` does not speak of. -/
theorem Result.Ran.of_start {s s' : State} {r : Result} (h : r.Ran s')
    (s1 : s'.trace = s.trace) (s2 : s'.time = s.time) (s3 : s'.answers = s.answers)
    (s4 : s'.freeIdx = s.freeIdx) (s5 : s'.params = s.params) (s6 : s'.inputs = s.inputs)
    (s7 : s'.responses = s.responses) (s8 : s'.past = s.past) : r.Ran s := by
  cases r with
  | ok t =>
    obtain ⟨new, hr, hd⟩ := h
    exact ⟨new, hr.congr s1.symm s2.symm s3.symm s4.symm s5.symm s6.symm s7.symm s8.symm rfl rfl rfl rfl
      rfl rfl rfl rfl, hd⟩
  | running t =>
    obtain ⟨new, hr, hd⟩ := h
    exact ⟨new, hr.congr s1.symm s2.symm s3.symm s4.symm s5.symm s6.symm s7.symm s8.symm rfl rfl rfl rfl
      rfl rfl rfl rfl, hd⟩
  | raised e t =>
    obtain ⟨new, hr, hd⟩ := h
    exact ⟨new, hr.congr s1.symm s2.symm s3.symm s4.symm s5.symm s6.symm s7.symm s8.symm rfl rfl rfl rfl
      rfl rfl rfl rfl, hd⟩

theorem ran_blinkShow (s : State) : (blinkShow s).Ran s :=
  (ran_putcSeq _ _ _).of_start rfl rfl rfl rfl rfl rfl rfl rfl

theorem ran_blinkDark (s : State) : (blinkDark s).Ran s :=
  ((ran_clearSeq _).bind (fun t _ => ran_emit _ t)).of_start rfl rfl rfl rfl rfl rfl rfl rfl

theorem ran_blinkCycle (s : State) : (blinkCycle s).Ran s :=
  (ran_blinkShow s).bind (fun t _ => ran_blinkDark t)

theorem endOfCycle_stores (s : State) :
    (endOfCycle s).trace = s.trace ∧ (endOfCycle s).time = s.time ∧
      (endOfCycle s).answers = s.answers ∧ (endOfCycle s).freeIdx = s.freeIdx ∧
      (endOfCycle s).params = s.params ∧ (endOfCycle s).inputs = s.inputs ∧
      (endOfCycle s).responses = s.responses ∧ (endOfCycle s).past = s.past := by
  unfold endOfCycle
  cases s.blMode <;> simp

theorem ran_blinkNext (loop : State → Result) (h : ∀ s, (loop s).Ran s) (s : State) :
    (blinkNext loop s).Ran s := by
  obtain ⟨h1, h2, h3, h4, h5, h6, h7, h8⟩ := endOfCycle_stores s
  unfold blinkNext
  split
  · exact ⟨[], (Ran.refl s).congr rfl rfl rfl rfl rfl rfl rfl rfl h1 h2 h3 h4 h5 h6 h7 h8,
      fun e he => by cases he⟩
  · exact (h _).of_start h1 h2 h3 h4 h5 h6 h7 h8

theorem ran_blinkLoop (n : Nat) (s : State) : (blinkLoop n s).Ran s := by
  induction n generalizing s with
  | zero => exact ⟨[], Ran.refl s, fun e he => by cases he⟩
  | succ n ih => exact (ran_blinkCycle s).bind (fun t _ => ran_blinkNext _ ih t)

/-- A blink that starts, if the registers it loads are none that `Ran` speaks of. -/
theorem ran_startBlink (load : State → State) (s : State) (s1 : (load s).trace = s.trace)
    (s2 : (load s).time = s.time) (s3 : (load s).answers = s.answers)
    (s4 : (load s).freeIdx = s.freeIdx) (s5 : (load s).params = s.params)
    (s6 : (load s).inputs = s.inputs) (s7 : (load s).responses = s.responses)
    (s8 : (load s).past = s.past) : (startBlink load s).Ran s :=
  (ran_blinkLoop _ _).of_start s1 s2 s3 s4 s5 s6 s7 s8

theorem ran_blinkcBody (c : Byte) (p q n : Word) (s : State) : (blinkcBody c p q n s).Ran s := by
  unfold blinkcBody
  split
  · exact ⟨[], Ran.refl s, fun e he => by cases he⟩
  · exact ran_startBlink _ s rfl rfl rfl rfl rfl rfl rfl rfl

/-! ## What the seven-segment bodies leave alone -/

/-- The state of a result. -/
def Result.state : Result → State
  | .ok s => s
  | .raised _ s => s
  | .running s => s

/-- Everything but the trace, `TIME`, the level registers, the answers and the blink registers. -/
structure SegKeeps (s t : State) : Prop where
  ready : t.ready = s.ready
  hue : t.hue = s.hue
  ledcnt : t.ledcnt = s.ledcnt
  buf : t.buf = s.buf
  res : t.res = s.res
  status : t.status = s.status
  defdelay : t.defdelay = s.defdelay
  pinOe : t.pinOe = s.pinOe

theorem SegKeeps.refl (s : State) : SegKeeps s s := ⟨rfl, rfl, rfl, rfl, rfl, rfl, rfl, rfl⟩

theorem SegKeeps.trans {s t u : State} (h : SegKeeps s t) (g : SegKeeps t u) : SegKeeps s u :=
  ⟨g.ready.trans h.ready, g.hue.trans h.hue, g.ledcnt.trans h.ledcnt, g.buf.trans h.buf,
    g.res.trans h.res, g.status.trans h.status, g.defdelay.trans h.defdelay, g.pinOe.trans h.pinOe⟩

/-- The blink registers. -/
structure BlinkKeeps (s t : State) : Prop where
  state : t.blState = s.blState
  mode : t.blMode = s.blMode
  char : t.blChar = s.blChar
  lit : t.blShow = s.blShow
  dark : t.blIdle = s.blIdle
  count : t.blCnt = s.blCnt
  start : t.blT0 = s.blT0
  elapse : t.blElapse = s.blElapse

theorem BlinkKeeps.refl (s : State) : BlinkKeeps s s := ⟨rfl, rfl, rfl, rfl, rfl, rfl, rfl, rfl⟩

theorem BlinkKeeps.trans {s t u : State} (h : BlinkKeeps s t) (g : BlinkKeeps t u) :
    BlinkKeeps s u :=
  ⟨g.state.trans h.state, g.mode.trans h.mode, g.char.trans h.char, g.lit.trans h.lit,
    g.dark.trans h.dark, g.count.trans h.count, g.start.trans h.start, g.elapse.trans h.elapse⟩

/-- No event of the list configures a line. -/
def NoPinDir (evs : List Event) : Prop := ∀ e ∈ evs, ∀ l, e ≠ .pinDir l

theorem oeAfter_noPinDir (evs : List Event) (m : BitVec 4) (h : NoPinDir evs) :
    oeAfter evs m = m := by
  induction evs generalizing m with
  | nil => rfl
  | cons e rest ih =>
    have hm : oeStep m e = m := by
      cases e <;> first | rfl | exact absurd rfl (h _ (List.mem_cons_self) _)
    show oeAfter rest (oeStep m e) = m
    rw [hm]
    exact ih m (fun x hx => h x (List.mem_cons_of_mem _ hx))

theorem failedEvent_pinOe (e : Event) (s : State) (h : ∀ l, e ≠ .pinDir l) :
    (failedEvent e s).pinOe = s.pinOe := by
  cases e <;> first | (simp [failedEvent, spoilEvent]; done) | exact absurd rfl (h _)

theorem segKeeps_emitAll (evs : List Event) (s : State) (h : NoPinDir evs) :
    SegKeeps s (emitAll evs s).state ∧ BlinkKeeps s (emitAll evs s).state := by
  rcases emitAll_cases evs s with ⟨-, hr⟩ | ⟨pre, e, post, hsplit, -, -, -, hr⟩
  · rw [hr]
    refine ⟨⟨?_, ?_, ?_, ?_, ?_, ?_, ?_, ?_⟩, ⟨?_, ?_, ?_, ?_, ?_, ?_, ?_, ?_⟩⟩ <;>
      simp [Result.state, doneEvents_pinOe, oeAfter_noPinDir evs _ h]
  · have hpre : NoPinDir pre := fun x hx => h x (by rw [hsplit]; exact List.mem_append_left _ hx)
    have he : ∀ l, e ≠ .pinDir l := h e (by rw [hsplit]; simp)
    rw [hr]
    refine ⟨⟨?_, ?_, ?_, ?_, ?_, ?_, ?_, ?_⟩, ⟨?_, ?_, ?_, ?_, ?_, ?_, ?_, ?_⟩⟩ <;>
      simp [Result.state, failedEvent_pinOe e _ he, doneEvents_pinOe, oeAfter_noPinDir pre _ hpre]

theorem state_bind (r : Result) (f : State → Result) :
    (r.bind f).state = r.state ∨ ∃ t, r = .ok t ∧ (r.bind f).state = (f t).state := by
  cases r with
  | ok t => exact .inr ⟨t, rfl, rfl⟩
  | raised e t => exact .inl rfl
  | running t => exact .inl rfl

/-- A relation every body keeps is kept by their sequence. -/
theorem keeps_bind {K : State → State → Prop} (htrans : ∀ {a b c}, K a b → K b c → K a c)
    {s : State} {r : Result} {f : State → Result} (h : K s r.state)
    (g : ∀ t, K t (f t).state) : K s (r.bind f).state := by
  rcases state_bind r f with e | ⟨t, hr, e⟩
  · rw [e]; exact h
  · rw [e]
    rw [hr] at h
    exact htrans h (g t)

theorem noPinDir_shiftEvents (v : Byte) : NoPinDir (shiftEvents v) := by
  intro e he l
  simp only [shiftEvents, bitEvents, latchEvents, List.flatMap_cons, List.flatMap_nil,
    List.append_nil, List.cons_append, List.nil_append, List.mem_cons, List.not_mem_nil,
    or_false] at he
  rcases he with rfl | rfl | rfl | rfl | rfl | rfl | rfl | rfl | rfl | rfl | rfl | rfl | rfl | rfl |
    rfl | rfl | rfl | rfl | rfl | rfl | rfl | rfl | rfl | rfl | rfl | rfl | rfl <;> simp

theorem noPinDir_clearPulse : NoPinDir clearPulse := by
  intro e he l
  simp only [clearPulse, List.mem_cons, List.not_mem_nil, or_false] at he
  rcases he with rfl | rfl | rfl <;> simp

theorem keeps_shiftOut (v : Byte) (s : State) :
    SegKeeps s (shiftOut v s).state ∧ BlinkKeeps s (shiftOut v s).state :=
  segKeeps_emitAll _ s (noPinDir_shiftEvents v)

theorem keeps_emitWait (d : Nat) (s : State) :
    SegKeeps s (emit (.wait d) s).state ∧ BlinkKeeps s (emit (.wait d) s).state := by
  rw [← emitAll_singleton]
  exact segKeeps_emitAll _ s (fun e he l => by
    simp only [List.mem_singleton] at he
    subst he
    simp)

theorem keeps_clearSeq (s : State) :
    SegKeeps s (clearSeq s).state ∧ BlinkKeeps s (clearSeq s).state := by
  have h := segKeeps_emitAll clearPulse s noPinDir_clearPulse
  exact ⟨keeps_bind (K := SegKeeps) SegKeeps.trans h.1 (fun t => (keeps_shiftOut 0 t).1),
    keeps_bind (K := BlinkKeeps) BlinkKeeps.trans h.2 (fun t => (keeps_shiftOut 0 t).2)⟩

theorem keeps_putcSeq (c : Byte) (d : Nat) (s : State) :
    SegKeeps s (putcSeq c d s).state ∧ BlinkKeeps s (putcSeq c d s).state := by
  unfold putcSeq
  split
  · exact ⟨SegKeeps.refl s, BlinkKeeps.refl s⟩
  · rename_i p _
    have h := keeps_shiftOut p s
    exact ⟨keeps_bind (K := SegKeeps) SegKeeps.trans h.1 (fun t => (keeps_emitWait d t).1),
      keeps_bind (K := BlinkKeeps) BlinkKeeps.trans h.2 (fun t => (keeps_emitWait d t).2)⟩

theorem keeps_putsSeq (d : Nat) (cs : List Byte) (s : State) :
    SegKeeps s (putsSeq d cs s).state ∧ BlinkKeeps s (putsSeq d cs s).state := by
  induction cs generalizing s with
  | nil => exact ⟨SegKeeps.refl s, BlinkKeeps.refl s⟩
  | cons c rest ih =>
    have h := keeps_putcSeq c d s
    exact ⟨keeps_bind (K := SegKeeps) SegKeeps.trans h.1 (fun t => (ih t).1),
      keeps_bind (K := BlinkKeeps) BlinkKeeps.trans h.2 (fun t => (ih t).2)⟩

theorem SegKeeps.of_start {s s' t : State} (h : SegKeeps s' t) (h1 : s'.ready = s.ready)
    (h2 : s'.hue = s.hue) (h3 : s'.ledcnt = s.ledcnt) (h4 : s'.buf = s.buf) (h5 : s'.res = s.res)
    (h6 : s'.status = s.status) (h7 : s'.defdelay = s.defdelay) (h8 : s'.pinOe = s.pinOe) :
    SegKeeps s t :=
  ⟨h.ready.trans h1, h.hue.trans h2, h.ledcnt.trans h3, h.buf.trans h4, h.res.trans h5,
    h.status.trans h6, h.defdelay.trans h7, h.pinOe.trans h8⟩

theorem keeps_blinkShow (s : State) : SegKeeps s (blinkShow s).state :=
  (keeps_putcSeq _ _ _).1.of_start rfl rfl rfl rfl rfl rfl rfl rfl

theorem keeps_blinkDark (s : State) : SegKeeps s (blinkDark s).state := by
  have h : SegKeeps { s with blState := .idle } (blinkDark s).state :=
    keeps_bind (K := SegKeeps) SegKeeps.trans (keeps_clearSeq _).1 (fun t => (keeps_emitWait _ t).1)
  exact h.of_start rfl rfl rfl rfl rfl rfl rfl rfl

theorem keeps_blinkCycle (s : State) : SegKeeps s (blinkCycle s).state :=
  keeps_bind (K := SegKeeps) SegKeeps.trans (keeps_blinkShow s) keeps_blinkDark

theorem keeps_endOfCycle (s : State) : SegKeeps s (endOfCycle s) := by
  unfold endOfCycle
  cases s.blMode <;> exact ⟨rfl, rfl, rfl, rfl, rfl, rfl, rfl, rfl⟩

theorem keeps_blinkLoop (n : Nat) (s : State) : SegKeeps s (blinkLoop n s).state := by
  induction n generalizing s with
  | zero => exact SegKeeps.refl s
  | succ n ih =>
    refine keeps_bind (K := SegKeeps) SegKeeps.trans (keeps_blinkCycle s) (fun t => ?_)
    unfold blinkNext
    split
    · exact keeps_endOfCycle t
    · exact (keeps_endOfCycle t).trans (ih _)

/-- A blink that starts, if it loads none of the registers `SegKeeps` speaks of. -/
theorem keeps_startBlink (load : State → State) (s : State) (h : SegKeeps s (load s)) :
    SegKeeps s (startBlink load s).state :=
  h.trans (keeps_blinkLoop _ _)

theorem keeps_blinkcBody (c : Byte) (p q n : Word) (s : State) :
    SegKeeps s (blinkcBody c p q n s).state := by
  unfold blinkcBody
  split
  · exact SegKeeps.refl s
  · exact keeps_startBlink _ s ⟨rfl, rfl, rfl, rfl, rfl, rfl, rfl, rfl⟩

/-! ## The end of a command -/

/-- What a command's outcome is, by its body's result. -/
theorem conclude_ok (op : Op) (d : State → BitVec 24) (s : State) :
    conclude op d (.ok s) = .next (complete op.code (d s) s) := rfl

theorem conclude_raised (op : Op) (d : State → BitVec 24) (e : Code) (s : State) :
    conclude op d (.raised e s) = .next (raise op.code e s) := rfl

theorem conclude_running (op : Op) (d : State → BitVec 24) (s : State) :
    conclude op d (.running s) = .next { s with ready := false } := rfl

@[simp] theorem checked_some (e : Code) (s : State) (body : State → Result) :
    checked (some e) s body = .raised e s := rfl

@[simp] theorem checked_none (s : State) (body : State → Result) :
    checked none s body = body s := rfl

end Sys2Proof.Machine
end

