-- ==== Sys2Proof/Laws/Memory.lean ====
section
/-! SUPPORT. The strip buffer: a read after a write, and the canonical form every operation keeps. -/

namespace Sys2Proof.Machine

/-! ## One record -/

theorem find_write_same (m : Buffer) (i : Nat) (r : LedRecord) :
    Buffer.find i (Buffer.write i r m) = some r := by
  induction m with
  | nil => simp [Buffer.write, Buffer.find]
  | cons a rest ih =>
    obtain ⟨j, q⟩ := a
    unfold Buffer.write
    split
    · simp [Buffer.find]
    · split
      · simp [Buffer.find]
      · rename_i h1 h2
        simp [Buffer.find, h2, ih]

theorem find_write_other (m : Buffer) {i k : Nat} (r : LedRecord) (h : k ≠ i) :
    Buffer.find k (Buffer.write i r m) = Buffer.find k m := by
  induction m with
  | nil => simp [Buffer.write, Buffer.find, h]
  | cons a rest ih =>
    obtain ⟨j, q⟩ := a
    unfold Buffer.write
    split
    · simp [Buffer.find, h]
    · split
      · rename_i h1 h2
        subst h2
        simp [Buffer.find, h]
      · simp [Buffer.find, ih]

/-- A read after a write to the same record gives the record written. -/
theorem read_write_same (m : Buffer) (i : Nat) (r : LedRecord) :
    Buffer.read (Buffer.write i r m) i = r := by
  simp [Buffer.read, find_write_same]

/-- A write leaves every other record alone. -/
theorem read_write_other (m : Buffer) {i k : Nat} (r : LedRecord) (h : k ≠ i) :
    Buffer.read (Buffer.write i r m) k = Buffer.read m k := by
  simp [Buffer.read, find_write_other m r h]

/-! ## The canonical form -/

theorem wf_iff_sorted (m : Buffer) :
    Buffer.wf m = true ↔ (m.map Prod.fst).Pairwise (· < ·) := by
  induction m with
  | nil => simp [Buffer.wf]
  | cons a rest ih =>
    cases rest with
    | nil => simp [Buffer.wf]
    | cons b rest =>
      rw [Buffer.wf, Bool.and_eq_true, ih]
      simp only [List.map_cons, List.pairwise_cons, decide_eq_true_eq]
      constructor
      · rintro ⟨hab, hb, hrest⟩
        refine ⟨?_, hb, hrest⟩
        intro x hx
        rcases List.mem_cons.1 hx with rfl | hx
        · exact hab
        · exact lt_trans hab (hb x hx)
      · rintro ⟨ha, hb, hrest⟩
        exact ⟨ha b.1 (by simp), hb, hrest⟩

theorem mem_keys_write (m : Buffer) (i k : Nat) (r : LedRecord) :
    k ∈ (Buffer.write i r m).map Prod.fst ↔ k = i ∨ k ∈ m.map Prod.fst := by
  induction m with
  | nil => simp [Buffer.write]
  | cons a rest ih =>
    obtain ⟨j, q⟩ := a
    unfold Buffer.write
    split
    · simp
    · split
      · rename_i h1 h2
        subst h2
        simp
      · rw [List.map_cons, List.mem_cons, ih]
        simp only [List.map_cons, List.mem_cons]
        tauto

/-- Writing a record keeps the indices strictly rising. -/
theorem write_wf (m : Buffer) (i : Nat) (r : LedRecord) (h : Buffer.wf m = true) :
    Buffer.wf (Buffer.write i r m) = true := by
  rw [wf_iff_sorted] at h ⊢
  induction m with
  | nil => simp [Buffer.write]
  | cons a rest ih =>
    obtain ⟨j, q⟩ := a
    simp only [List.map_cons, List.pairwise_cons] at h
    unfold Buffer.write
    split
    · rename_i hij
      simp only [List.map_cons, List.pairwise_cons]
      refine ⟨?_, h⟩
      intro x hx
      rcases List.mem_cons.1 hx with rfl | hx
      · exact hij
      · exact lt_trans hij (h.1 x hx)
    · split
      · rename_i h1 h2
        subst h2
        simpa using h
      · rename_i h1 h2
        simp only [List.map_cons, List.pairwise_cons]
        refine ⟨?_, ih h.2⟩
        intro x hx
        rcases (mem_keys_write rest i x r).1 hx with rfl | hx
        · omega
        · exact h.1 x hx

/-- Writing records keeps the canonical form. -/
theorem memWrite_wf (v : List LedRecord) (m : Buffer) (a : Nat) (h : Buffer.wf m = true) :
    Buffer.wf (memWrite m a v) = true := by
  induction v generalizing a with
  | nil => exact h
  | cons r rest ih => exact write_wf _ _ _ (ih (a + 1))

/-- Writing a record that is listed changes no index. -/
theorem keys_write_listed (m : Buffer) (i : Nat) (r : LedRecord) (hwf : Buffer.wf m = true)
    (hi : i ∈ m.map Prod.fst) : (Buffer.write i r m).map Prod.fst = m.map Prod.fst := by
  rw [wf_iff_sorted] at hwf
  induction m with
  | nil => simp at hi
  | cons a rest ih =>
    obtain ⟨j, q⟩ := a
    simp only [List.map_cons, List.pairwise_cons, List.mem_cons] at hwf hi
    unfold Buffer.write
    split
    · rename_i hij
      rcases hi with rfl | hi
      · omega
      · have := hwf.1 i hi
        omega
    · split
      · rename_i h1 h2
        subst h2
        rfl
      · rename_i h1 h2
        rcases hi with rfl | hi
        · omega
        · simp only [List.map_cons, ih hwf.2 hi]

/-! ## Consecutive records -/

@[simp] theorem memRead_length (m : Buffer) (a n : Nat) : (memRead m a n).length = n := by
  simp [memRead]

theorem memRead_getElem? (m : Buffer) (a n k : Nat) :
    (memRead m a n)[k]? = if k < n then some (Buffer.read m (a + k)) else none := by
  simp only [memRead, List.getElem?_map]
  split
  · rename_i h; simp [List.getElem?_range h]
  · rename_i h; simp [List.getElem?_eq_none (l := List.range n) (i := k) (by simpa using h)]

/-- Every record after a write of consecutive records: the written one inside, the old one outside. -/
theorem read_memWrite (v : List LedRecord) (m : Buffer) (a i : Nat) :
    Buffer.read (memWrite m a v) i =
      if a ≤ i ∧ i < a + v.length then v.getD (i - a) default else Buffer.read m i := by
  induction v generalizing a with
  | nil => simp [memWrite]
  | cons r rest ih =>
    unfold memWrite
    by_cases h : i = a
    · subst h
      rw [read_write_same]
      simp
    · rw [read_write_other _ _ h, ih]
      by_cases h2 : a + 1 ≤ i ∧ i < a + 1 + rest.length
      · have h3 : a ≤ i ∧ i < a + (r :: rest).length := by simp; omega
        rw [if_pos h2, if_pos h3]
        have : i - a = (i - (a + 1)) + 1 := by omega
        rw [this, List.getD_cons_succ]
      · have h3 : ¬ (a ≤ i ∧ i < a + (r :: rest).length) := by simp; omega
        rw [if_neg h2, if_neg h3]

/-- Building a buffer from nothing lists exactly the records written. -/
theorem keys_memWrite_nil (v : List LedRecord) (a : Nat) :
    (memWrite [] a v).map Prod.fst = List.range' a v.length := by
  induction v generalizing a with
  | nil => rfl
  | cons r rest ih =>
    have ih := ih (a + 1)
    unfold memWrite
    rw [List.length_cons, List.range'_succ]
    cases hm : memWrite [] (a + 1) rest with
    | nil =>
      rw [hm] at ih
      rw [← ih]
      rfl
    | cons b t =>
      obtain ⟨j, q⟩ := b
      rw [hm] at ih
      have hj : j = a + 1 := by
        cases rest with
        | nil => simp [memWrite] at hm
        | cons r2 rest2 =>
          rw [List.length_cons, List.range'_succ, List.map_cons] at ih
          exact (List.cons.inj ih).1
      subst hj
      simp only [Buffer.write, Nat.lt_succ_self, if_true, List.map_cons]
      rw [← ih]
      rfl

/-- Writing records that are all listed changes no index. -/
theorem keys_memWrite_listed (v : List LedRecord) (m : Buffer) (a : Nat) (hwf : Buffer.wf m = true)
    (h : ∀ k, k < v.length → a + k ∈ m.map Prod.fst) :
    (memWrite m a v).map Prod.fst = m.map Prod.fst := by
  induction v generalizing a with
  | nil => rfl
  | cons r rest ih =>
    have hrest : (memWrite m (a + 1) rest).map Prod.fst = m.map Prod.fst :=
      ih (a + 1) (fun k hk => by
        have := h (k + 1) (by simpa using hk)
        rwa [Nat.add_right_comm a 1 k])
    have h0 := h 0 (by simp)
    unfold memWrite
    rw [keys_write_listed _ _ _ (memWrite_wf rest m (a + 1) hwf) (by rw [hrest]; simpa using h0),
      hrest]

/-- Indices 0 to n - 1 are strictly rising. -/
theorem wf_of_range (m : Buffer) (n : Nat) (h : m.map Prod.fst = List.range n) :
    Buffer.wf m = true := by
  rw [wf_iff_sorted, h]
  exact List.pairwise_lt_range

end Sys2Proof.Machine
end

