-- ==== Sys2Proof/Laws/Exec.lean ====
section
/-! SUPPORT. `exec` in one shape for the thirteen commands: a test, a body, an end. Everything a command
can do is said here once. -/

namespace Sys2Proof.Machine

/-- The tests in front of a command's body. -/
def commandTest (i : Instr) (s : State) : Option Code :=
  match i with
  | .hue2rgb hue => firstFailure (fatalTest s) (argumentTest (hueOperandOk hue))
  | .configure df n =>
    firstFailure (fatalTest s) (argumentTest (countOk s.params (effectiveCount df n)))
  | .set index _ => firstFailure (ledPreamble s) (argumentTest (indexOk s.ledcnt index))
  | .advance => ledPreamble s
  | .scroll => ledPreamble s
  | .render => ledPreamble s
  | .segcfg _ => fatalTest s
  | .write value => firstFailure (segPreamble s) (argumentTest (byteOperandOk value))
  | .clear => segPreamble s
  | .putc _ _ => segPreamble s
  | .puts _ _ _ => segPreamble s
  | .blinkc _ p q n => firstFailure (segPreamble s) (argumentTest (blinkOperandsOk p q n))
  | .blink _ p q n => firstFailure (segPreamble s) (argumentTest (blinkOperandsOk p q n))

/-- A command's body behind its tests. -/
def commandBody (i : Instr) (s : State) : Result :=
  match i with
  | .hue2rgb hue => hue2rgbBody hue s
  | .configure df n => configureBody (effectiveCount df n).toNat s
  | .set index led => setBody (int32 index).toNat led s
  | .advance => .ok (fillStrip { s with hue := nextHue Config.wrapAdvance s.hue })
  | .scroll => .ok (shiftStrip { s with hue := nextHue Config.wrapScroll s.hue })
  | .render => emitAll ((frameBytes (memRead s.buf 0 s.ledcnt)).map Event.byte) s
  | .segcfg d => segcfgBody d s
  | .write value => shiftOut (value.extractLsb' 0 8) s
  | .clear => clearSeq s
  | .putc c d => putcSeq c (uint32 d) s
  | .puts df d cs => putsSeq (putsDelay df d s) cs s
  | .blinkc c p q n => blinkcBody c p q n s
  | .blink c p q n => startBlink (loadBlink c p q n) s

/-- The `DATA` of a command's response when it ends `OK`. -/
def commandData (i : Instr) : State → BitVec 24 :=
  match i with
  | .hue2rgb _ => fun t => t.res
  | .configure _ _ => noData
  | .set _ _ => noData
  | .advance => noData
  | .scroll => noData
  | .render => noData
  | .segcfg _ => noData
  | .write _ => noData
  | .clear => noData
  | .putc _ _ => noData
  | .puts _ _ _ => noData
  | .blinkc _ _ _ _ => noData
  | .blink _ _ _ _ => noData

/-- Every command: a test, a body, an end. -/
theorem exec_eq (i : Instr) (s : State) :
    exec i s =
      conclude i.op (commandData i) (checked (commandTest i s) s (commandBody i)) := by
  cases i <;> rfl

/-- A command whose test fails ends there, in the state as it stands. -/
theorem exec_refused {i : Instr} {s : State} {e : Code} (h : commandTest i s = some e) :
    exec i s = .next (raise i.op.code e s) := by
  rw [exec_eq, h]
  rfl

/-- A command whose test passes is its body and the end. -/
theorem exec_body {i : Instr} {s : State} (h : commandTest i s = none) :
    exec i s = conclude i.op (commandData i) (commandBody i s) := by
  rw [exec_eq, h]
  rfl

/-- Every command answers a next state. -/
theorem exec_next (i : Instr) (s : State) : ∃ t, exec i s = .next t := by
  rw [exec_eq]
  exact ⟨_, rfl⟩

/-! ## The tests -/

theorem firstFailure_eq_none {a b : Option Code} :
    firstFailure a b = none ↔ a = none ∧ b = none := by
  cases a <;> simp [firstFailure]

@[simp] theorem argumentTest_eq_none {ok : Bool} : argumentTest ok = none ↔ ok = true := by
  cases ok <;> simp [argumentTest]

theorem fatalTest_eq_none {s : State} : fatalTest s = none ↔ s.status.fatal = false := by
  unfold fatalTest
  cases s.status.fatal <;> simp

theorem ledPreamble_eq_none {s : State} :
    ledPreamble s = none ↔ s.status.fatal = false ∧ s.status.ledcfg = true := by
  unfold ledPreamble
  cases s.status.fatal <;> cases s.status.ledcfg <;> simp

theorem segPreamble_eq_none {s : State} :
    segPreamble s = none ↔ s.status.fatal = false ∧ s.status.segcfg = true := by
  unfold segPreamble
  cases s.status.fatal <;> cases s.status.segcfg <;> simp

/-- With `FATAL` = 1 the first test of every command fails. -/
theorem commandTest_fatal {s : State} (i : Instr) (h : s.status.fatal = true) :
    commandTest i s = some .hardwareIO := by
  cases i <;> simp [commandTest, firstFailure, fatalTest, ledPreamble, segPreamble, h]

/-- A test that passes passed `FATAL`. -/
theorem fatal_of_commandTest {i : Instr} {s : State} (h : commandTest i s = none) :
    s.status.fatal = false := by
  cases hf : s.status.fatal with
  | false => rfl
  | true => rw [commandTest_fatal i hf] at h; cases h

/-- What a test that fails says. -/
theorem commandTest_some {i : Instr} {s : State} {e : Code} (h : commandTest i s = some e) :
    (e = .hardwareIO ∧ s.status.fatal = true) ∨
      (s.status.fatal = false ∧ (e = .notConfigured ∨ e = .invalidArgument)) := by
  cases hf : s.status.fatal with
  | true =>
    rw [commandTest_fatal i hf] at h
    cases h
    exact .inl ⟨rfl, rfl⟩
  | false =>
    refine .inr ⟨rfl, ?_⟩
    cases i <;>
      simp only [commandTest, firstFailure, fatalTest, ledPreamble, segPreamble, argumentTest, hf] at h <;>
      (repeat' split at h) <;> simp_all

/-! ## The bodies -/

theorem ran_ok (s t : State) (h1 : t.trace = s.trace) (h2 : t.time = s.time)
    (h3 : t.answers = s.answers) (h4 : t.freeIdx = s.freeIdx) (h5 : t.params = s.params)
    (h6 : t.inputs = s.inputs) (h7 : t.responses = s.responses) (h8 : t.past = s.past) :
    (Result.ok t).Ran s :=
  ⟨[], (Ran.refl s).congr rfl rfl rfl rfl rfl rfl rfl rfl h1 h2 h3 h4 h5 h6 h7 h8,
    fun e he => by cases he⟩

theorem shiftStrip_stores (s : State) :
    (shiftStrip s).trace = s.trace ∧ (shiftStrip s).time = s.time ∧
      (shiftStrip s).answers = s.answers ∧ (shiftStrip s).freeIdx = s.freeIdx ∧
      (shiftStrip s).params = s.params ∧ (shiftStrip s).inputs = s.inputs ∧
      (shiftStrip s).responses = s.responses ∧ (shiftStrip s).past = s.past := by
  unfold shiftStrip
  split <;> exact ⟨rfl, rfl, rfl, rfl, rfl, rfl, rfl, rfl⟩

/-- What every body does to the trace, `TIME` and the answers. -/
theorem ran_commandBody (i : Instr) (s : State) : (commandBody i s).Ran s := by
  cases i with
  | hue2rgb hue => exact ran_ok _ _ rfl rfl rfl rfl rfl rfl rfl rfl
  | configure df n =>
    exact (ran_emitAll _ s).bind (fun t _ => ran_ok _ _ rfl rfl rfl rfl rfl rfl rfl rfl)
  | set index led => exact ran_ok _ _ rfl rfl rfl rfl rfl rfl rfl rfl
  | advance => exact ran_ok _ _ rfl rfl rfl rfl rfl rfl rfl rfl
  | scroll =>
    obtain ⟨h1, h2, h3, h4, h5, h6, h7, h8⟩ :=
      shiftStrip_stores { s with hue := nextHue Config.wrapScroll s.hue }
    exact ran_ok _ _ h1 h2 h3 h4 h5 h6 h7 h8
  | render => exact ran_emitAll _ s
  | segcfg d => exact (ran_emitAll _ s).bind (fun t _ => ran_ok _ _ rfl rfl rfl rfl rfl rfl rfl rfl)
  | write value => exact ran_shiftOut _ s
  | clear => exact ran_clearSeq s
  | putc c d => exact ran_putcSeq _ _ s
  | puts df d cs => exact ran_putsSeq _ _ s
  | blinkc c p q n => exact ran_blinkcBody c p q n s
  | blink c p q n => exact ran_startBlink _ s rfl rfl rfl rfl rfl rfl rfl rfl

end Sys2Proof.Machine
end

