-- ==== Sys2Proof/Laws/BlinkLoop.lean ====
section
/-! SUPPORT. What the blink loop leaves alone, when it is still running, and where the pulsed lines rest
after any seven-segment body. -/

namespace Sys2Proof.Machine

/-! ## What the loop leaves alone -/

/-- The registers a blink loads once. -/
structure BlinkFixed (s t : State) : Prop where
  mode : t.blMode = s.blMode
  char : t.blChar = s.blChar
  lit : t.blShow = s.blShow
  dark : t.blIdle = s.blIdle
  start : t.blT0 = s.blT0
  elapse : t.blElapse = s.blElapse

theorem BlinkFixed.refl (s : State) : BlinkFixed s s := ⟨rfl, rfl, rfl, rfl, rfl, rfl⟩

theorem BlinkFixed.trans {s t u : State} (h : BlinkFixed s t) (g : BlinkFixed t u) :
    BlinkFixed s u :=
  ⟨g.mode.trans h.mode, g.char.trans h.char, g.lit.trans h.lit, g.dark.trans h.dark,
    g.start.trans h.start, g.elapse.trans h.elapse⟩

theorem BlinkKeeps.fixed {s t : State} (h : BlinkKeeps s t) : BlinkFixed s t :=
  ⟨h.mode, h.char, h.lit, h.dark, h.start, h.elapse⟩

theorem BlinkFixed.of_start {s s' t : State} (h : BlinkFixed s' t) (h1 : s'.blMode = s.blMode)
    (h2 : s'.blChar = s.blChar) (h3 : s'.blShow = s.blShow) (h4 : s'.blIdle = s.blIdle)
    (h5 : s'.blT0 = s.blT0) (h6 : s'.blElapse = s.blElapse) : BlinkFixed s t :=
  ⟨h.mode.trans h1, h.char.trans h2, h.lit.trans h3, h.dark.trans h4, h.start.trans h5,
    h.elapse.trans h6⟩

theorem fixed_blinkShow (s : State) :
    BlinkFixed s (blinkShow s).state ∧ (blinkShow s).state.blCnt = s.blCnt := by
  have h := (keeps_putcSeq s.blChar s.blShow.toNat { s with blState := .showing }).2
  exact ⟨h.fixed.of_start rfl rfl rfl rfl rfl rfl, h.count⟩

theorem fixed_blinkDark (s : State) :
    BlinkFixed s (blinkDark s).state ∧ (blinkDark s).state.blCnt = s.blCnt := by
  have h : BlinkKeeps { s with blState := .idle } (blinkDark s).state :=
    keeps_bind (K := BlinkKeeps) BlinkKeeps.trans (keeps_clearSeq _).2 (fun t => (keeps_emitWait _ t).2)
  exact ⟨h.fixed.of_start rfl rfl rfl rfl rfl rfl, h.count⟩

/-- A cycle leaves the registers of the loop alone, `BL_CNT` among them. -/
theorem fixed_blinkCycle (s : State) :
    BlinkFixed s (blinkCycle s).state ∧ (blinkCycle s).state.blCnt = s.blCnt :=
  keeps_bind (K := fun a b => BlinkFixed a b ∧ b.blCnt = a.blCnt)
    (fun h g => ⟨h.1.trans g.1, g.2.trans h.2⟩) (fixed_blinkShow s) fixed_blinkDark

theorem fixed_endOfCycle (s : State) : BlinkFixed s (endOfCycle s) := by
  unfold endOfCycle
  cases h : s.blMode <;> exact ⟨h.symm ▸ h, rfl, rfl, rfl, rfl, rfl⟩

theorem endOfCycle_ne_idle (s : State) : (endOfCycle s).blState ≠ .idle := by
  unfold endOfCycle
  cases s.blMode
  · show (if s.blCnt - 1 = 0 then BlinkState.off else .showing) ≠ .idle
    split <;> decide
  · show (if blinkElapsed s ≥ s.blElapse.toNat then BlinkState.off else .showing) ≠ .idle
    split <;> decide

theorem fixed_blinkLoop (n : Nat) (s : State) : BlinkFixed s (blinkLoop n s).state := by
  induction n generalizing s with
  | zero => exact BlinkFixed.refl s
  | succ n ih =>
    refine keeps_bind (K := BlinkFixed) BlinkFixed.trans (fixed_blinkCycle s).1 (fun t => ?_)
    unfold blinkNext
    split
    · exact fixed_endOfCycle t
    · exact (fixed_endOfCycle t).trans (ih _)

/-! ## When a blink is still running -/

theorem ok_of_bind_running {r : Result} {f : State → Result} {t : State} (hr : ∀ u, r ≠ .running u)
    (h : r.bind f = .running t) : ∃ u, r = .ok u ∧ f u = .running t := by
  cases r with
  | ok u => exact ⟨u, rfl, h⟩
  | raised e u => cases h
  | running u => exact absurd rfl (hr u)

theorem emitAll_not_running (evs : List Event) (s u : State) : emitAll evs s ≠ .running u := by
  rcases emitAll_cases evs s with ⟨-, h⟩ | ⟨_, _, _, -, -, -, -, h⟩ <;> rw [h] <;> simp

theorem bind_not_running {r : Result} {f : State → Result} (hr : ∀ u, r ≠ .running u)
    (hf : ∀ s u, f s ≠ .running u) (u : State) : r.bind f ≠ .running u := by
  intro h
  obtain ⟨v, -, hv⟩ := ok_of_bind_running hr h
  exact hf v u hv

theorem emit_not_running (e : Event) (s u : State) : emit e s ≠ .running u := by
  rw [← emitAll_singleton]
  exact emitAll_not_running _ s u

theorem putcSeq_not_running (c : Byte) (d : Nat) (s u : State) : putcSeq c d s ≠ .running u := by
  unfold putcSeq
  split
  · simp
  · exact bind_not_running (emitAll_not_running _ s) (fun s u => emit_not_running _ s u) u

theorem clearSeq_not_running (s u : State) : clearSeq s ≠ .running u :=
  bind_not_running (emitAll_not_running _ s) (fun s u => emitAll_not_running _ s u) u

theorem putsSeq_not_running (d : Nat) (cs : List Byte) (s u : State) :
    putsSeq d cs s ≠ .running u := by
  induction cs generalizing s u with
  | nil => simp [putsSeq]
  | cons c rest ih => exact bind_not_running (putcSeq_not_running c d s) ih u

theorem blinkDark_not_running (s u : State) : blinkDark s ≠ .running u :=
  bind_not_running (clearSeq_not_running _) (fun s u => emit_not_running _ s u) u

theorem blinkCycle_not_running (s u : State) : blinkCycle s ≠ .running u :=
  bind_not_running (putcSeq_not_running _ _ _) blinkDark_not_running u

/-- A blink bounded by count is never still running once the loop may take all its cycles. -/
theorem blinkLoop_count_not_running (n : Nat) (s u : State) (hm : s.blMode = .count)
    (h0 : 0 < s.blCnt.toNat) (hn : s.blCnt.toNat ≤ n) : blinkLoop n s ≠ .running u := by
  induction n generalizing s with
  | zero => omega
  | succ n ih =>
    intro h
    obtain ⟨t, ht, h⟩ := ok_of_bind_running (blinkCycle_not_running s) h
    have hf := fixed_blinkCycle s
    rw [ht] at hf
    have hm' : t.blMode = .count := hf.1.mode.trans hm
    have hc : t.blCnt = s.blCnt := hf.2
    have he : endOfCycle t =
        { t with
          blCnt := t.blCnt - 1
          blState := if t.blCnt - 1 = 0 then .off else .showing } := by
      unfold endOfCycle
      rw [hm']
    unfold blinkNext at h
    split at h
    · cases h
    · rename_i hne
      rw [he] at hne
      have hne' : ¬ t.blCnt - 1 = 0 := fun hz => hne (if_pos hz)
      have hlt := s.blCnt.isLt
      have hsub : (t.blCnt - 1).toNat = s.blCnt.toNat - 1 := by
        rw [hc]
        have : (1 : BitVec 31).toNat = 1 := rfl
        rw [BitVec.toNat_sub, this]
        omega
      have hne2 : (t.blCnt - 1).toNat ≠ 0 := by
        intro hz
        exact hne' (BitVec.eq_of_toNat_eq hz)
      refine ih (endOfCycle t) ?_ ?_ ?_ h
      · rw [he]; exact hm'
      · rw [he]; show 0 < (t.blCnt - 1).toNat; omega
      · rw [he]; show (t.blCnt - 1).toNat ≤ n; omega

/-- A blink bounded by time that is still running shows its character, and time is left. -/
theorem blinkLoop_running {n : Nat} {s t : State} (hn : 0 < n) (hm : s.blMode = .elapsed)
    (h : blinkLoop n s = .running t) : t.blState = .showing ∧ t.blElapse ≠ 0 := by
  induction n generalizing s with
  | zero => omega
  | succ n ih =>
    obtain ⟨u, hu, h⟩ := ok_of_bind_running (blinkCycle_not_running s) h
    have hf := fixed_blinkCycle s
    rw [hu] at hf
    have hm' : u.blMode = .elapsed := hf.1.mode.trans hm
    unfold blinkNext at h
    split at h
    · cases h
    · rename_i hne
      cases n with
      | zero =>
        injection h with h
        subst h
        refine ⟨?_, ?_⟩
        · cases hs : (endOfCycle u).blState with
          | off => exact absurd hs hne
          | showing => rfl
          | idle => exact absurd hs (endOfCycle_ne_idle u)
        · intro hz
          apply hne
          have hz' : u.blElapse = 0 := (fixed_endOfCycle u).elapse.symm.trans hz
          unfold endOfCycle
          rw [hm']
          simp [hz']
      | succ n =>
        exact ih (Nat.succ_pos n) ((fixed_endOfCycle u).mode.trans hm') h

/-! ## Where the pulsed lines rest -/

/-- `CLOCK` and `LATCH` are low. -/
def PulsesLow (s : State) : Prop := s.pinClock = false ∧ s.pinLatch = false

/-- If the pulsed lines are low at the start they are low at the end, unless an event failed. -/
def RestsLow (s : State) (r : Result) : Prop :=
  PulsesLow s → (∀ t, r ≠ .raised .hardwareIO t) → PulsesLow r.state

theorem RestsLow.bind {s : State} {r : Result} {f : State → Result} (h : RestsLow s r)
    (g : ∀ t, RestsLow t (f t)) : RestsLow s (r.bind f) := by
  intro hs hne
  cases r with
  | ok t => exact g t (h hs (fun u hu => by cases hu)) hne
  | raised e t => exact h hs hne
  | running t => exact h hs (fun u hu => by cases hu)

theorem restsLow_emitAll (evs : List Event) (s : State)
    (hc : ∀ b, b = false → levelAfter .clock evs b = false)
    (hl : ∀ b, b = false → levelAfter .latch evs b = false) : RestsLow s (emitAll evs s) := by
  intro hs hne
  rcases emitAll_cases evs s with ⟨-, h⟩ | ⟨_, _, _, -, -, -, -, h⟩
  · rw [h]
    exact ⟨by rw [Result.state, doneEvents_pinClock]; exact hc _ hs.1,
      by rw [Result.state, doneEvents_pinLatch]; exact hl _ hs.2⟩
  · exact absurd h (hne _)

theorem restsLow_shiftOut (v : Byte) (s : State) : RestsLow s (shiftOut v s) :=
  restsLow_emitAll _ s (fun b hb => by subst hb; rfl) (fun b hb => by subst hb; rfl)

theorem restsLow_emitWait (d : Nat) (s : State) : RestsLow s (emit (.wait d) s) := by
  rw [← emitAll_singleton]
  exact restsLow_emitAll _ s (fun b hb => by subst hb; rfl) (fun b hb => by subst hb; rfl)

theorem restsLow_clearSeq (s : State) : RestsLow s (clearSeq s) :=
  (restsLow_emitAll _ s (fun b hb => by subst hb; rfl) (fun b hb => by subst hb; rfl)).bind
    (restsLow_shiftOut 0)

theorem restsLow_putcSeq (c : Byte) (d : Nat) (s : State) : RestsLow s (putcSeq c d s) := by
  unfold putcSeq
  split
  · exact fun hs _ => hs
  · exact (restsLow_shiftOut _ s).bind (restsLow_emitWait d)

theorem restsLow_putsSeq (d : Nat) (cs : List Byte) (s : State) : RestsLow s (putsSeq d cs s) := by
  induction cs generalizing s with
  | nil => exact fun hs _ => hs
  | cons c rest ih => exact (restsLow_putcSeq c d s).bind ih

theorem restsLow_blinkDark (s : State) : RestsLow s (blinkDark s) := by
  have h : RestsLow { s with blState := .idle } (blinkDark s) :=
    (restsLow_clearSeq _).bind (restsLow_emitWait _)
  exact h

theorem restsLow_blinkCycle (s : State) : RestsLow s (blinkCycle s) := by
  have h : RestsLow { s with blState := .showing } (blinkCycle s) :=
    (restsLow_putcSeq _ _ _).bind restsLow_blinkDark
  exact h

theorem pulsesLow_endOfCycle (s : State) (h : PulsesLow s) : PulsesLow (endOfCycle s) := by
  unfold endOfCycle
  cases s.blMode <;> exact h

theorem restsLow_blinkLoop (n : Nat) (s : State) : RestsLow s (blinkLoop n s) := by
  induction n generalizing s with
  | zero => exact fun hs _ => hs
  | succ n ih =>
    refine (restsLow_blinkCycle s).bind (fun t => ?_)
    unfold blinkNext
    split
    · exact fun ht _ => pulsesLow_endOfCycle t ht
    · exact fun ht hne => ih _ (pulsesLow_endOfCycle t ht) hne

end Sys2Proof.Machine
end

