-- ==== Sys2Proof/Laws/SevenSegment.lean ====
section
/-! SUPPORT. The closed forms of `shift_out`, `clear_seq`, `putc_seq` and one blink cycle: which events, how
many, what they leave. -/

namespace Sys2Proof.Machine

/-- Every event sets a line. -/
def AllPins (evs : List Event) : Prop := ∀ e ∈ evs, ∃ l b, e = .pin l b

theorem AllPins.append {a b : List Event} (ha : AllPins a) (hb : AllPins b) : AllPins (a ++ b) := by
  intro e he
  rcases List.mem_append.1 he with he | he
  · exact ha e he
  · exact hb e he

theorem AllPins.answered {evs : List Event} (h : AllPins evs) : ∀ e ∈ evs, e.answered = true := by
  intro e he
  obtain ⟨l, b, rfl⟩ := h e he
  rfl

/-- Events that are all answered take as many answers as they are. -/
theorem answeredCount_all (evs : List Event) (h : ∀ e ∈ evs, e.answered = true) :
    answeredCount evs = evs.length := by
  unfold answeredCount
  rw [List.filter_eq_self.2 h]

theorem answeredCount_take (evs : List Event) (h : ∀ e ∈ evs, e.answered = true) (j : Nat)
    (hj : j ≤ evs.length) : answeredCount (evs.take j) = j := by
  rw [answeredCount_all _ (fun e he => h e (List.take_subset _ _ he)), List.length_take]
  omega

theorem AllPins.ticks {evs : List Event} (p : Params) (h : AllPins evs) :
    ticksOf p evs = evs.length * p.tPin := by
  induction evs with
  | nil => simp [ticksOf]
  | cons e rest ih =>
    obtain ⟨l, b, rfl⟩ := h e List.mem_cons_self
    have := ih (fun x hx => h x (List.mem_cons_of_mem _ hx))
    simp only [ticksOf, List.map_cons, List.sum_cons, List.length_cons] at this ⊢
    rw [this, eventTicks, Nat.add_mul]
    omega

theorem allPins_bitEvents (v : Byte) (i : Nat) : AllPins (bitEvents v i) := by
  intro e he
  simp only [bitEvents, List.mem_cons, List.not_mem_nil, or_false] at he
  rcases he with rfl | rfl | rfl <;> exact ⟨_, _, rfl⟩

theorem allPins_shiftEvents (v : Byte) : AllPins (shiftEvents v) := by
  refine AllPins.append ?_ ?_
  · intro e he
    obtain ⟨i, -, hi⟩ := List.mem_flatMap.1 he
    exact allPins_bitEvents v i e hi
  · intro e he
    simp only [latchEvents, List.mem_cons, List.not_mem_nil, or_false] at he
    rcases he with rfl | rfl | rfl <;> exact ⟨_, _, rfl⟩

theorem allPins_clearPulse : AllPins clearPulse := by
  intro e he
  simp only [clearPulse, List.mem_cons, List.not_mem_nil, or_false] at he
  rcases he with rfl | rfl | rfl <;> exact ⟨_, _, rfl⟩

/-- 27 events (42_seven_segment.md R120). -/
theorem shiftEvents_length (v : Byte) : (shiftEvents v).length = 27 := rfl

theorem answeredCount_shiftEvents (v : Byte) : answeredCount (shiftEvents v) = 27 :=
  (answeredCount_all _ (allPins_shiftEvents v).answered).trans (shiftEvents_length v)

theorem ticksOf_shiftEvents (p : Params) (v : Byte) : ticksOf p (shiftEvents v) = 27 * p.tPin := by
  rw [(allPins_shiftEvents v).ticks, shiftEvents_length]

/-- The clear pulse and the shifted zero. -/
def clearEvents : List Event := clearPulse ++ shiftEvents 0

theorem allPins_clearEvents : AllPins clearEvents := allPins_clearPulse.append (allPins_shiftEvents 0)

theorem clearSeq_eq (s : State) : clearSeq s = emitAll clearEvents s := by
  rw [clearEvents, emitAll_append]
  rfl

theorem answeredCount_clearEvents : answeredCount clearEvents = 30 :=
  answeredCount_all _ allPins_clearEvents.answered

theorem ticksOf_clearEvents (p : Params) : ticksOf p clearEvents = 30 * p.tPin :=
  allPins_clearEvents.ticks p

/-- A known character as one list of events. -/
theorem putcSeq_eq {c : Byte} {p : Byte} {s : State} (d : Nat)
    (h : segLookup s.params c = some p) :
    putcSeq c d s = emitAll (shiftEvents p ++ [.wait d]) s := by
  unfold putcSeq
  rw [h, emitAll_append]
  show (shiftOut p s).bind (emit (.wait d)) = (shiftOut p s).bind (emitAll [.wait d])
  congr 1

theorem putcSeq_unknown {c : Byte} {s : State} (d : Nat) (h : segLookup s.params c = none) :
    putcSeq c d s = .raised .invalidArgument s := by
  unfold putcSeq
  rw [h]

/-! ## One blink cycle -/

/-- The events of a cycle (43_blink.md R147). -/
def cycleEvents (p : Byte) (lit dark : Nat) : List Event :=
  shiftEvents p ++ [.wait lit] ++ (clearEvents ++ [.wait dark])

theorem answeredCount_wait (d : Nat) : answeredCount [.wait d] = 0 := rfl

theorem answeredCount_cycleEvents (p : Byte) (lit dark : Nat) :
    answeredCount (cycleEvents p lit dark) = 57 := by
  unfold cycleEvents
  rw [answeredCount_append, answeredCount_append, answeredCount_append, answeredCount_shiftEvents,
    answeredCount_clearEvents, answeredCount_wait, answeredCount_wait]

theorem ticksOf_append (p : Params) (a b : List Event) :
    ticksOf p (a ++ b) = ticksOf p a + ticksOf p b := by
  simp [ticksOf]

theorem ticksOf_wait (p : Params) (d : Nat) : ticksOf p [.wait d] = d := by
  simp [ticksOf, eventTicks]

theorem ticksOf_cycleEvents (p : Params) (v : Byte) (lit dark : Nat) :
    ticksOf p (cycleEvents v lit dark) = lit + dark + 57 * p.tPin := by
  unfold cycleEvents
  rw [ticksOf_append, ticksOf_append, ticksOf_append, ticksOf_shiftEvents, ticksOf_clearEvents,
    ticksOf_wait, ticksOf_wait]
  omega

end Sys2Proof.Machine
end

