-- ==== Sys2Proof/Laws/BlinkCycle.lean ====
section
/-! SUPPORT. One blink cycle as one list of events: what it leaves when every event went through, and where
it ends when one fails. -/

namespace Sys2Proof.Machine

/-- `BL_STATE` written. -/
def setBl (b : BlinkState) (s : State) : State := { s with blState := b }

theorem doneEvents_setBl (evs : List Event) (b : BlinkState) (s : State) :
    doneEvents evs (setBl b s) = setBl b (doneEvents evs s) := by
  rw [doneEvents_eq, doneEvents_eq]
  rfl

theorem answerAt_setBl (b : BlinkState) (s : State) (k : Nat) :
    answerAt (setBl b s) k = answerAt s k := rfl

theorem setBl_setBl (a b : BlinkState) (s : State) : setBl a (setBl b s) = setBl a s := rfl

/-! ## Two lists of events, one in each state of the machine -/

/-- Two lists one after the other, `BL_STATE` written before each. -/
def twoPhase (a : List Event) (b : State → List Event) (s : State) : Result :=
  (emitAll a (setBl .showing s)).bind (fun t => emitAll (b t) (setBl .idle t))

theorem twoPhase_done (a b : List Event) (f : State → List Event) (s : State)
    (hf : ∀ t, t.blIdle = s.blIdle → f t = b)
    (hd : AnswersDone s (answeredCount a + answeredCount b)) :
    twoPhase a f s = .ok (setBl .idle (doneEvents (a ++ b) s)) := by
  unfold twoPhase
  rw [emitAll_done a _ (fun k hk => by
      rw [answerAt_setBl]
      exact hd k (by omega)), bind_ok,
    hf _ (by rw [doneEvents_blIdle]; rfl), doneEvents_setBl, setBl_setBl,
    emitAll_done b _ (fun k hk => by
      rw [answerAt_setBl, answerAt_doneEvents]
      exact hd _ (by omega)), doneEvents_setBl, doneEvents_append]

theorem twoPhase_fails (a b : List Event) (f : State → List Event) (s : State) (j : Nat) (e : Event)
    (hf : ∀ t, t.blIdle = s.blIdle → f t = b) (hj : (a ++ b)[j]? = some e) (he : e.answered = true)
    (hd : AnswersDone s (answeredCount ((a ++ b).take j)))
    (hfail : answerAt s (answeredCount ((a ++ b).take j)) = .fail) :
    ∃ q, twoPhase a f s =
      .raised .hardwareIO (failedEvent e (setBl q (doneEvents ((a ++ b).take j) s))) := by
  unfold twoPhase
  by_cases h : j < a.length
  · rw [List.getElem?_append_left h] at hj
    rw [List.take_append_of_le_length (by omega)] at hd hfail ⊢
    refine ⟨.showing, ?_⟩
    rw [emitAll_fails a _ j e hj he (fun k hk => by rw [answerAt_setBl]; exact hd k hk)
      (by rw [answerAt_setBl]; exact hfail), bind_raised, doneEvents_setBl]
  · rw [List.getElem?_append_right (by omega)] at hj
    have ht : (a ++ b).take j = a ++ b.take (j - a.length) := by
      rw [List.take_append, List.take_of_length_le (by omega)]
    rw [ht, answeredCount_append] at hd hfail
    refine ⟨.idle, ?_⟩
    rw [emitAll_done a _ (fun k hk => by rw [answerAt_setBl]; exact hd k (by omega)), bind_ok,
      hf _ (by rw [doneEvents_blIdle]; rfl), doneEvents_setBl, setBl_setBl,
      emitAll_fails b _ (j - a.length) e hj he
        (fun k hk => by
          rw [answerAt_setBl, answerAt_doneEvents]
          exact hd _ (by omega))
        (by
          rw [answerAt_setBl, answerAt_doneEvents, Nat.add_comm]
          exact hfail), doneEvents_setBl, ht, doneEvents_append]

/-! ## The cycle -/

/-- The events while the character is shown. -/
def showEvents (p : Byte) (lit : Nat) : List Event := shiftEvents p ++ [.wait lit]

/-- The events while the display is dark. -/
def darkEvents (dark : Nat) : List Event := clearEvents ++ [.wait dark]

theorem cycleEvents_eq (p : Byte) (lit dark : Nat) :
    cycleEvents p lit dark = showEvents p lit ++ darkEvents dark := rfl

theorem answeredCount_showEvents (p : Byte) (lit : Nat) : answeredCount (showEvents p lit) = 27 := by
  rw [showEvents, answeredCount_append, answeredCount_shiftEvents, answeredCount_wait]

theorem answeredCount_darkEvents (dark : Nat) : answeredCount (darkEvents dark) = 30 := by
  rw [darkEvents, answeredCount_append, answeredCount_clearEvents, answeredCount_wait]

theorem blinkDark_eq (s : State) :
    blinkDark s = emitAll (darkEvents s.blIdle.toNat) (setBl .idle s) := by
  rw [darkEvents, emitAll_append]
  unfold blinkDark
  rw [clearSeq_eq]
  show (emitAll clearEvents (setBl .idle s)).bind _ = (emitAll clearEvents (setBl .idle s)).bind _
  congr 1

theorem blinkShow_eq {p : Byte} {s : State} (h : segLookup s.params s.blChar = some p) :
    blinkShow s = emitAll (showEvents p s.blShow.toNat) (setBl .showing s) := by
  have h' : segLookup (setBl .showing s).params s.blChar = some p := h
  exact putcSeq_eq _ h'

theorem blinkCycle_eq {p : Byte} {s : State} (h : segLookup s.params s.blChar = some p) :
    blinkCycle s =
      twoPhase (showEvents p s.blShow.toNat) (fun t => darkEvents t.blIdle.toNat) s := by
  unfold blinkCycle twoPhase
  rw [blinkShow_eq h]
  congr 1
  funext t
  exact blinkDark_eq t

theorem blinkCycle_done {p : Byte} {s : State} (h : segLookup s.params s.blChar = some p)
    (hd : AnswersDone s 57) :
    blinkCycle s =
      .ok (setBl .idle (doneEvents (cycleEvents p s.blShow.toNat s.blIdle.toNat) s)) := by
  rw [blinkCycle_eq h, cycleEvents_eq]
  refine twoPhase_done _ _ _ s (fun t ht => by rw [ht]) ?_
  rw [answeredCount_showEvents, answeredCount_darkEvents]
  exact hd

theorem blinkCycle_fails {p : Byte} {s : State} (h : segLookup s.params s.blChar = some p) (j : Nat)
    (e : Event) (hj : (cycleEvents p s.blShow.toNat s.blIdle.toNat)[j]? = some e)
    (he : e.answered = true)
    (hd : AnswersDone s (answeredCount ((cycleEvents p s.blShow.toNat s.blIdle.toNat).take j)))
    (hf : answerAt s (answeredCount ((cycleEvents p s.blShow.toNat s.blIdle.toNat).take j)) = .fail) :
    ∃ q, blinkCycle s =
      .raised .hardwareIO (failedEvent e
        (setBl q (doneEvents ((cycleEvents p s.blShow.toNat s.blIdle.toNat).take j) s))) := by
  rw [blinkCycle_eq h]
  rw [cycleEvents_eq] at hj hd hf ⊢
  exact twoPhase_fails _ _ _ s j e (fun t ht => by rw [ht]) hj he hd hf

theorem blinkCycle_unknown {s : State} (h : segLookup s.params s.blChar = none) :
    blinkCycle s = .raised .invalidArgument (setBl .showing s) := by
  have h' : segLookup (setBl .showing s).params s.blChar = none := h
  unfold blinkCycle
  show (putcSeq s.blChar s.blShow.toNat (setBl .showing s)).bind blinkDark = _
  rw [putcSeq_unknown _ h']
  rfl

/-- A step runs at least one cycle. -/
theorem cyclesPerStep_pos (s : State) : 0 < cyclesPerStep s := by
  unfold cyclesPerStep
  split
  · omega
  · split <;> omega

/-- A blink whose character is unknown ends at its first lookup, its registers loaded. -/
theorem startBlink_unknown {load : State → State} {s : State}
    (h : segLookup (load s).params (load s).blChar = none) :
    startBlink load s = .raised .invalidArgument (setBl .showing (load s)) := by
  obtain ⟨n, hn⟩ : ∃ n, cyclesPerStep (load s) = n + 1 :=
    ⟨cyclesPerStep (load s) - 1, by have := cyclesPerStep_pos (load s); omega⟩
  unfold startBlink
  rw [hn, blinkLoop, blinkCycle_unknown h]
  rfl

/-! ## The end-of-cycle test -/

theorem blinkElapsed_eq (s : State) :
    blinkElapsed s = (s.time.toNat + 2 ^ 64 - s.blT0.toNat) % 2 ^ 64 := by
  have := s.blT0.isLt
  unfold blinkElapsed
  rw [BitVec.toNat_sub]
  congr 1
  omega

theorem endOfCycle_count {s : State} (h : s.blMode = .count) :
    endOfCycle s =
      { s with
        blCnt := s.blCnt - 1
        blState := if s.blCnt - 1 = 0 then .off else .showing } := by
  unfold endOfCycle
  rw [h]

theorem endOfCycle_elapsed {s : State} (h : s.blMode = .elapsed) :
    endOfCycle s =
      setBl (if blinkElapsed s ≥ s.blElapse.toNat then .off else .showing) s := by
  unfold endOfCycle setBl
  rw [h]

/-- The counter as a number. -/
theorem blCnt_pred {s : State} (h : 0 < s.blCnt.toNat) :
    (s.blCnt - 1).toNat = s.blCnt.toNat - 1 := by
  have hlt := s.blCnt.isLt
  have h1 : (1 : BitVec 31).toNat = 1 := rfl
  rw [BitVec.toNat_sub, h1]
  omega

end Sys2Proof.Machine
end

