-- ==== Sys2Proof/Laws/Encoding.lean ====
section
/-! SUPPORT. The header fields, the opcode map and the byte packing: each reads back what was written. -/

namespace Sys2Proof

/-! ## The header -/

theorem headerOp_headerWord (op a : Byte) (df : Bool) : headerOp (headerWord op a df) = op := by
  unfold headerOp headerWord
  apply BitVec.eq_of_getLsbD_eq
  intro i hi
  simp only [BitVec.getLsbD_extractLsb', BitVec.getLsbD_append]
  simp [hi]

theorem headerA_headerWord (op a : Byte) (df : Bool) : headerA (headerWord op a df) = a := by
  unfold headerA headerWord
  apply BitVec.eq_of_getLsbD_eq
  intro i hi
  simp only [BitVec.getLsbD_extractLsb', BitVec.getLsbD_append]
  simp [hi]

theorem headerDf_headerWord (op a : Byte) (df : Bool) : headerDf (headerWord op a df) = df := by
  unfold headerDf headerWord
  simp only [BitVec.getLsbD_append]
  simp

theorem headerReserved_headerWord (op a : Byte) (df : Bool) :
    headerReserved (headerWord op a df) = 0 := by
  unfold headerReserved headerWord
  apply BitVec.eq_of_getLsbD_eq
  intro i hi
  have h1 : ¬ (17 + i < 8) := by omega
  have h2 : ¬ (17 + i - 8 < 8) := by omega
  have h3 : ¬ (17 + i - 8 - 8 < 1) := by omega
  simp only [BitVec.getLsbD_extractLsb', BitVec.getLsbD_append]
  simp [h1, h2, h3]

/-- A header whose reserved bits are 0 is the word of its fields. -/
theorem headerWord_fields (h : Word) (hr : headerReserved h = 0) :
    headerWord (headerOp h) (headerA h) (headerDf h) = h := by
  have hr' : ∀ j, j < 15 → h.getLsbD (17 + j) = false := by
    intro j hj
    have := congrArg (fun v => BitVec.getLsbD v j) hr
    simpa [headerReserved, BitVec.getLsbD_extractLsb', hj] using this
  unfold headerWord headerOp headerA headerDf
  apply BitVec.eq_of_getLsbD_eq
  intro i hi
  simp only [BitVec.getLsbD_append, BitVec.getLsbD_extractLsb', BitVec.getLsbD_ofBool,
    BitVec.getLsbD_zero]
  by_cases h1 : i < 8
  · simp [h1]
  · by_cases h2 : i < 16
    · have h3 : i - 8 < 8 := by omega
      have h4 : 8 + (i - 8) = i := by omega
      simp [h1, h3, h4]
    · by_cases h3 : i = 16
      · subst h3
        simp
      · have h4 : ¬ (i - 8 < 8) := by omega
        have h5 : ¬ (i - 8 - 8 < 1) := by omega
        have := hr' (i - 17) (by omega)
        rw [show 17 + (i - 17) = i by omega] at this
        simp [h1, h4, h5, this]

/-! ## The opcode map -/

theorem opOfCode_code (o : Op) : opOfCode o.code = some o := by
  cases o <;> decide

theorem code_of_opOfCode {b : Byte} {o : Op} (h : opOfCode b = some o) : o.code = b := by
  unfold opOfCode at h
  have := List.find?_some h
  simpa using this

/-! ## Bytes and words -/

@[simp] theorem wordBytes_length (w : Word) : (wordBytes w).length = 4 := rfl

@[simp] theorem bytesOfWords_length (ws : List Word) : (bytesOfWords ws).length = 4 * ws.length := by
  induction ws with
  | nil => rfl
  | cons w rest ih =>
    simp only [bytesOfWords, List.flatMap_cons, List.length_append, wordBytes_length, List.length_cons]
    simp only [bytesOfWords] at ih
    omega

theorem wordBytes_wordOfBytes (a b c d : Byte) : wordBytes (wordOfBytes a b c d) = [a, b, c, d] := by
  have e : ∀ (x y : Byte), (∀ i, i < 8 → x.getLsbD i = y.getLsbD i) → x = y :=
    fun x y h => BitVec.eq_of_getLsbD_eq (fun i hi => h i hi)
  unfold wordBytes wordOfBytes
  simp only [List.cons.injEq, and_true]
  refine ⟨e _ _ ?_, e _ _ ?_, e _ _ ?_, e _ _ ?_⟩ <;> intro i hi
  · simp only [BitVec.getLsbD_extractLsb', BitVec.getLsbD_append]
    simp [hi]
  · simp only [BitVec.getLsbD_extractLsb', BitVec.getLsbD_append]
    simp [hi]
  · have h1 : ¬ (16 + i < 8) := by omega
    have h2 : ¬ (16 + i - 8 < 8) := by omega
    have h3 : 16 + i - 8 - 8 = i := by omega
    simp only [BitVec.getLsbD_extractLsb', BitVec.getLsbD_append]
    simp [hi, h1, h2, h3]
  · have h1 : ¬ (24 + i < 8) := by omega
    have h2 : ¬ (24 + i - 8 < 8) := by omega
    have h3 : ¬ (24 + i - 8 - 8 < 8) := by omega
    have h4 : 24 + i - 8 - 8 - 8 = i := by omega
    simp only [BitVec.getLsbD_extractLsb', BitVec.getLsbD_append]
    simp [hi, h1, h2, h3, h4]

theorem wordOfBytes_wordBytes (w : Word) :
    wordOfBytes (w.extractLsb' 0 8) (w.extractLsb' 8 8) (w.extractLsb' 16 8) (w.extractLsb' 24 8) = w := by
  unfold wordOfBytes
  apply BitVec.eq_of_getLsbD_eq
  intro i hi
  simp only [BitVec.getLsbD_append, BitVec.getLsbD_extractLsb']
  by_cases h1 : i < 8
  · simp [h1]
  · by_cases h2 : i < 16
    · have h3 : i - 8 < 8 := by omega
      simp [h1, h3, show 8 + (i - 8) = i by omega]
    · by_cases h3 : i < 24
      · have h4 : ¬ (i - 8 < 8) := by omega
        have h5 : i - 8 - 8 < 8 := by omega
        simp [h1, h4, h5, show 16 + (i - 8 - 8) = i by omega]
      · have h4 : ¬ (i - 8 < 8) := by omega
        have h5 : ¬ (i - 8 - 8 < 8) := by omega
        have h6 : i - 8 - 8 - 8 < 8 := by omega
        simp [h1, h4, h5, h6, show 24 + (i - 8 - 8 - 8) = i by omega]

/-- Packed bytes read back, with zero bytes behind them up to a whole word. -/
theorem bytesOfWords_packBytes (cs : List Byte) :
    bytesOfWords (packBytes cs) =
      cs ++ List.replicate (4 * ((cs.length + 3) / 4) - cs.length) 0 := by
  induction cs using packBytes.induct with
  | case1 => rfl
  | case2 a => simp [packBytes, bytesOfWords, wordBytes_wordOfBytes, List.replicate_succ]
  | case3 a b => simp [packBytes, bytesOfWords, wordBytes_wordOfBytes, List.replicate_succ]
  | case4 a b c => simp [packBytes, bytesOfWords, wordBytes_wordOfBytes]
  | case5 a b c d rest ih =>
    simp only [packBytes, bytesOfWords, List.flatMap_cons, wordBytes_wordOfBytes, List.length_cons,
      List.cons_append, List.nil_append]
    simp only [bytesOfWords] at ih
    rw [ih]
    have : 4 * ((rest.length + 1 + 1 + 1 + 1 + 3) / 4) - (rest.length + 1 + 1 + 1 + 1) =
        4 * ((rest.length + 3) / 4) - rest.length := by omega
    rw [this]

@[simp] theorem packBytes_length (cs : List Byte) :
    (packBytes cs).length = (cs.length + 3) / 4 := by
  induction cs using packBytes.induct with
  | case1 => rfl
  | case2 a => simp [packBytes]
  | case3 a b => simp [packBytes]
  | case4 a b c => simp [packBytes]
  | case5 a b c d rest ih =>
    simp only [packBytes, List.length_cons, ih]
    omega

/-- Unpacked words pack to the same words. -/
theorem packBytes_bytesOfWords (ws : List Word) : packBytes (bytesOfWords ws) = ws := by
  induction ws with
  | nil => rfl
  | cons w rest ih =>
    simp only [bytesOfWords, List.flatMap_cons, wordBytes, List.cons_append, List.nil_append,
      packBytes]
    simp only [bytesOfWords] at ih
    rw [ih, wordOfBytes_wordBytes]

/-- Zero bytes up to a whole word do not change the packing. -/
theorem packBytes_append_zeros (cs : List Byte) :
    packBytes (cs ++ List.replicate (4 * ((cs.length + 3) / 4) - cs.length) 0) = packBytes cs := by
  rw [← bytesOfWords_packBytes, packBytes_bytesOfWords]

/-! ## The decoder -/

/-- A packet whose header is built from fields decodes if R68's steps 3 to 7 let it. -/
theorem decode_headerWord (op : Op) (a : Byte) (df : Bool) (ws : List Word)
    (h1 : op.format.aMustBeZero = true → a = 0) (h2 : df = true → op.dfAllowed = true)
    (h3 : ws.length + 1 = op.format.words a) (h4 : df = true → ws.getD 0 0 = 0)
    (h5 : op = .puts → paddingZero a.toNat (ws.drop 1) = true) :
    decode (headerWord op.code a df :: ws) =
      .ok (readOperands op (headerWord op.code a df) ws) := by
  simp only [decode, headerOp_headerWord, opOfCode_code, headerReserved_headerWord,
    headerA_headerWord, headerDf_headerWord]
  rw [if_neg (by simp), if_neg (fun h => h.2 (h1 h.1)),
    if_neg (fun h => by rw [h2 h.1] at h; exact absurd h.2 (by decide)),
    if_neg (by simp [h3]), if_neg (fun h => h.2 (h4 h.1)),
    if_neg (fun h => by rw [h5 h.1] at h; exact absurd h.2 (by decide))]

/-- Everything that holds when a packet decodes. -/
theorem decode_ok {h : Word} {ws : List Word} {i : Instr} (hd : decode (h :: ws) = .ok i) :
    ∃ op, opOfCode (headerOp h) = some op ∧ headerReserved h = 0 ∧
      (op.format.aMustBeZero = true → headerA h = 0) ∧
      (headerDf h = true → op.dfAllowed = true) ∧
      ws.length + 1 = op.format.words (headerA h) ∧ (headerDf h = true → ws.getD 0 0 = 0) ∧
      (op = .puts → paddingZero (headerA h).toNat (ws.drop 1) = true) ∧
      i = readOperands op h ws := by
  simp only [decode] at hd
  cases ho : opOfCode (headerOp h) with
  | none => rw [ho] at hd; cases hd
  | some op =>
    rw [ho] at hd
    refine ⟨op, rfl, ?_⟩
    simp only at hd
    split at hd; · cases hd
    split at hd; · cases hd
    split at hd; · cases hd
    split at hd; · cases hd
    split at hd; · cases hd
    split at hd; · cases hd
    rename_i hr ha hf hl h0 hp
    injection hd with hd
    exact ⟨not_not.1 hr, fun x => by_contra fun y => ha ⟨x, y⟩,
      fun x => by_contra fun y => hf ⟨x, by simpa using y⟩, not_not.1 hl,
      fun x => by_contra fun y => h0 ⟨x, y⟩,
      fun x => by_contra fun y => hp ⟨x, by simpa using y⟩, hd.symm⟩

end Sys2Proof
end

