-- ==== Sys2Proof/Laws/Operands.lean ====
section
/-! SUPPORT. The operand tests in plain arithmetic, and the values the operand forms give. -/

namespace Sys2Proof.Machine

/-! ## The tests -/

theorem hueOperandOk_iff (w : Word) :
    hueOperandOk w = true ↔ 0 ≤ w.toInt ∧ w.toInt ≤ 1535 := by
  have h : (Config.hueSteps : Int) = 1536 := rfl
  simp only [hueOperandOk, Bool.and_eq_true, decide_eq_true_iff, h]
  show 0 ≤ w.toInt ∧ w.toInt < 1536 ↔ _
  omega

theorem countOk_iff (p : Params) (n : Int) :
    countOk p n = true ↔ 0 ≤ n ∧ n ≤ p.ledCountMax := by
  simp only [countOk, Bool.and_eq_true, decide_eq_true_iff]

theorem indexOk_iff (n : Nat) (w : Word) : indexOk n w = true ↔ 0 ≤ w.toInt ∧ w.toInt < n := by
  simp only [indexOk, Bool.and_eq_true, decide_eq_true_iff]

theorem byteOperandOk_iff (w : Word) : byteOperandOk w = true ↔ 0 ≤ w.toInt ∧ w.toInt ≤ 255 := by
  simp only [byteOperandOk, Bool.and_eq_true, decide_eq_true_iff]

theorem blinkOperandsOk_iff (p q n : Word) :
    blinkOperandsOk p q n = true ↔
      0 ≤ p.toInt ∧ 0 ≤ q.toInt ∧ q.toInt ≤ 65536 ∧ 0 ≤ n.toInt := by
  simp only [blinkOperandsOk, Bool.and_eq_true, decide_eq_true_iff, and_assoc]

/-- A test that does not pass, in plain arithmetic. -/
theorem not_of_iff {b : Bool} {p : Prop} (h : b = true ↔ p) (hp : ¬ p) : b = false := by
  cases b
  · rfl
  · exact absurd (h.1 rfl) hp

/-! ## Values -/

/-- A word that is not negative reads alike signed and unsigned. -/
theorem toInt_toNat {w : Word} (h : 0 ≤ w.toInt) : w.toInt.toNat = w.toNat := by
  have := w.isLt
  rw [BitVec.toInt_eq_toNat_cond] at h ⊢
  split at h
  · rename_i hc
    rw [if_pos hc]
    omega
  · omega

/-- It is below 2^31. -/
theorem toNat_lt {w : Word} (h : 0 ≤ w.toInt) : w.toNat < 2 ^ 31 := by
  have := w.isLt
  rw [BitVec.toInt_eq_toNat_cond] at h
  split at h <;> omega

/-- The lit part of a cycle is at most the period. -/
theorem showTicks_le {period dutyQ : Nat} (h : dutyQ ≤ 65536) : showTicks period dutyQ ≤ period := by
  unfold showTicks
  have : period * dutyQ ≤ period * 65536 := Nat.mul_le_mul_left period h
  omega

theorem show_add_idle {period dutyQ : Nat} (h : dutyQ ≤ 65536) :
    showTicks period dutyQ + idleTicks period dutyQ = period := by
  have := showTicks_le (period := period) h
  unfold idleTicks
  omega

theorem idleTicks_le (period dutyQ : Nat) : idleTicks period dutyQ ≤ period := by
  unfold idleTicks
  omega

end Sys2Proof.Machine
end

