-- ==== Sys2Proof/Laws/LedStrip.lean ====
section
/-! SUPPORT. The LED commands' effect on the records, and the hue function in both implementations. -/

namespace Sys2Proof.Machine

/-! ## Records -/

/-- Every record after `ADVANCE`'s fill. -/
theorem fillStrip_read (s : State) (j : Nat) :
    Buffer.read (fillStrip s).buf j =
      if j < s.ledcnt then hueRecord s else Buffer.read s.buf j := by
  simp only [fillStrip]
  rw [read_memWrite]
  simp only [List.length_replicate, Nat.zero_le, Nat.zero_add, true_and, Nat.sub_zero]
  split
  · rename_i h
    simp [h]
  · rfl

/-- Every record after `SCROLL`'s shift. -/
theorem shiftStrip_read (s : State) (j : Nat) :
    Buffer.read (shiftStrip s).buf j =
      if j < s.ledcnt then (if j = 0 then hueRecord s else Buffer.read s.buf (j - 1))
      else Buffer.read s.buf j := by
  unfold shiftStrip
  split
  · rename_i h
    rw [if_neg (by omega)]
  · rename_i h
    rw [read_memWrite]
    simp only [List.length_cons, memRead_length, Nat.zero_le, Nat.zero_add, true_and, Nat.sub_zero]
    rw [show s.ledcnt - 1 + 1 = s.ledcnt by omega]
    split
    · rename_i hj
      cases j with
      | zero => rfl
      | succ j =>
        rw [List.getD_cons_succ, if_neg (Nat.succ_ne_zero j), List.getD_eq_getElem?_getD,
          memRead_getElem?, if_pos (by omega)]
        simp
    · rfl

/-- `ADVANCE` and `SCROLL` write no index that is not listed. -/
theorem fillStrip_keys (s : State) (h : s.buf.map Prod.fst = List.range s.ledcnt) :
    (fillStrip s).buf.map Prod.fst = List.range s.ledcnt := by
  rw [← h]
  exact keys_memWrite_listed _ _ _ (wf_of_range _ _ h) (fun k hk => by
    rw [h]
    simpa using hk)

theorem shiftStrip_keys (s : State) (h : s.buf.map Prod.fst = List.range s.ledcnt) :
    (shiftStrip s).buf.map Prod.fst = List.range s.ledcnt := by
  unfold shiftStrip
  split
  · exact h
  · rename_i h0
    rw [← h]
    refine keys_memWrite_listed _ _ _ (wf_of_range _ _ h) (fun k hk => ?_)
    rw [h]
    simp only [List.length_cons, memRead_length] at hk
    simp only [List.mem_range]
    omega

theorem setBody_keys (s : State) {i n : Nat} (led : Word)
    (h : s.buf.map Prod.fst = List.range n) (hi : i < n) :
    (memWrite s.buf i [ledOfWord led]).map Prod.fst = List.range n := by
  rw [← h]
  refine keys_memWrite_listed _ _ _ (wf_of_range _ _ h) (fun k hk => ?_)
  rw [h]
  simp only [List.length_cons, List.length_nil] at hk
  simp only [List.mem_range]
  omega

theorem buildStrip_keys (n : Nat) (s : State) :
    (buildStrip n s).buf.map Prod.fst = List.range n := by
  simp only [buildStrip]
  rw [keys_memWrite_nil, List.length_replicate, List.range_eq_range']

/-! ## The hue -/

/-- Where `HUE` goes, in plain arithmetic. -/
theorem nextHue_toNat (wrap : Nat) (hue : BitVec 11) (hw : wrap < 2048) :
    (nextHue wrap hue).toNat = if hue.toNat + 6 > 1535 then wrap else hue.toNat + 6 := by
  have h := hue.isLt
  unfold nextHue
  simp only [Config.hueInc, Config.hueSteps, BitVec.toNat_ofNat]
  split
  · exact Nat.mod_eq_of_lt hw
  · exact Nat.mod_eq_of_lt (by omega)

theorem hueRomBand_length (b : Nat) : (hueRomBand b).length = 256 := by
  simp [hueRomBand]

/-- Where an entry of the ROM stands. -/
theorem flatMap_bands (l : List Nat) (k : Nat) :
    (l.flatMap hueRomBand)[k]? =
      (l[k / 256]?).bind (fun b => (hueRomBand b)[k % 256]?) := by
  induction l generalizing k with
  | nil => simp
  | cons b rest ih =>
    rw [List.flatMap_cons]
    by_cases hk : k < 256
    · rw [List.getElem?_append_left (by rw [hueRomBand_length]; exact hk), Nat.div_eq_of_lt hk,
        Nat.mod_eq_of_lt hk]
      simp
    · rw [List.getElem?_append_right (by rw [hueRomBand_length]; omega), hueRomBand_length, ih]
      have h1 : k / 256 = (k - 256) / 256 + 1 := by omega
      have h2 : k % 256 = (k - 256) % 256 := by omega
      rw [h1, h2, List.getElem?_cons_succ]

/-- The entry of a hue in the ROM, and none above 1535. -/
theorem hueRom_get (k : Nat) :
    hueRom[k]? = if k < 1536 then some (hueLogic (BitVec.ofNat 11 k)).rgb else none := by
  unfold hueRom
  rw [flatMap_bands]
  split
  · rename_i h
    have h1 : k / 256 < 6 := by omega
    have h2 : k % 256 < 256 := by omega
    rw [List.getElem?_range h1]
    simp only [Option.bind_some, hueRomBand, List.getElem?_map]
    rw [List.getElem?_range h2, Option.map_some, Nat.div_add_mod]
  · rename_i h
    rw [List.getElem?_eq_none (by simp; omega)]
    rfl

/-- The logic form in plain arithmetic. -/
theorem hueLogic_err (h : BitVec 11) : (hueLogic h).err = decide (1536 ≤ h.toNat) := by
  have hb : (h.extractLsb' 8 3).toNat = h.toNat / 256 := by
    rw [BitVec.extractLsb'_toNat, Nat.shiftRight_eq_div_pow]
    have := h.isLt
    omega
  unfold hueLogic
  simp only [hb]
  have hlt : h.toNat / 256 < 8 := by have := h.isLt; omega
  generalize hq : h.toNat / 256 = q at hlt
  have : q = 0 ∨ q = 1 ∨ q = 2 ∨ q = 3 ∨ q = 4 ∨ q = 5 ∨ q = 6 ∨ q = 7 := by omega
  rcases this with rfl | rfl | rfl | rfl | rfl | rfl | rfl | rfl <;> symm
  all_goals first
    | (exact decide_eq_false (by omega))
    | (exact decide_eq_true (by omega))

/-- The channels are free exactly where `hue_err` is raised. -/
theorem hueLogic_free (h : BitVec 11) (hh : 1536 ≤ h.toNat) :
    hueLogic h = ⟨true, Config.freeHueRgb h⟩ := by
  have hb : (h.extractLsb' 8 3).toNat = h.toNat / 256 := by
    rw [BitVec.extractLsb'_toNat, Nat.shiftRight_eq_div_pow]
    have := h.isLt
    omega
  unfold hueLogic
  simp only [hb]
  have hlt : h.toNat / 256 < 8 := by have := h.isLt; omega
  have hge : 6 ≤ h.toNat / 256 := by omega
  generalize h.toNat / 256 = q at hlt hge
  have : q = 6 ∨ q = 7 := by omega
  rcases this with rfl | rfl <;> rfl

/-- The table form and the logic form are one function. -/
theorem hueTable_eq_hueLogic (h : BitVec 11) : hueTable h = hueLogic h := by
  unfold hueTable
  rw [hueRom_get]
  split
  · rename_i c hc
    split at hc
    · rename_i hlt
      injection hc with hc
      rw [BitVec.ofNat_toNat, BitVec.setWidth_eq] at hc
      have he := hueLogic_err h
      rw [decide_eq_false (by omega)] at he
      rw [← hc, ← he]
    · cases hc
  · rename_i hc
    split at hc
    · cases hc
    · rename_i hge
      rw [hueLogic_free h (by omega)]

theorem huePort_eq_hueLogic (p : Params) (h : BitVec 11) : huePort p h = hueLogic h := by
  unfold huePort
  cases p.hueImpl
  · exact hueTable_eq_hueLogic h
  · rfl

end Sys2Proof.Machine
end

