-- ==== Sys2Proof/Laws/PerInstr.lean ====
section
/-! SUPPORT. What is said of every command as syntax, one lemma per command: its encoding has the length
that its own header gives (30_encoding.md R67). -/

namespace Sys2Proof.Laws.EncodingLength

/-- The encoding of a well-formed command starts with a header that names the command and gives the length
of the packet. -/
def Statement (i : Instr) : Prop :=
  i.wellFormed = true →
    ∃ h ws, encode i = h :: ws ∧ headerOp h = i.op.code ∧
      ws.length + 1 = i.op.format.words (headerA h)

theorem hue2rgb (hue : Word) : Statement (.hue2rgb hue) :=
  fun _ => ⟨_, _, rfl, headerOp_headerWord _ _ _, rfl⟩

theorem configure (df : Bool) (ledCount : Word) : Statement (.configure df ledCount) :=
  fun _ => ⟨_, _, rfl, headerOp_headerWord _ _ _, rfl⟩

theorem set (index led : Word) : Statement (.set index led) :=
  fun _ => ⟨_, _, rfl, headerOp_headerWord _ _ _, rfl⟩

theorem advance : Statement .advance := fun _ => ⟨_, _, rfl, headerOp_headerWord _ _ _, rfl⟩

theorem scroll : Statement .scroll := fun _ => ⟨_, _, rfl, headerOp_headerWord _ _ _, rfl⟩

theorem render : Statement .render := fun _ => ⟨_, _, rfl, headerOp_headerWord _ _ _, rfl⟩

theorem segcfg (defdelay : Word) : Statement (.segcfg defdelay) :=
  fun _ => ⟨_, _, rfl, headerOp_headerWord _ _ _, rfl⟩

theorem write (value : Word) : Statement (.write value) :=
  fun _ => ⟨_, _, rfl, headerOp_headerWord _ _ _, rfl⟩

theorem clear : Statement .clear := fun _ => ⟨_, _, rfl, headerOp_headerWord _ _ _, rfl⟩

theorem putc (char : Byte) (delay : Word) : Statement (.putc char delay) :=
  fun _ => ⟨_, _, rfl, headerOp_headerWord _ _ _, rfl⟩

theorem puts (df : Bool) (delay : Word) (chars : List Byte) : Statement (.puts df delay chars) := by
  intro h
  refine ⟨_, _, rfl, headerOp_headerWord _ _ _, ?_⟩
  have hlen : chars.length ≤ 255 := by
    simp only [Instr.wellFormed, stringLengthOk, Config.strMax, Bool.and_eq_true] at h
    exact of_decide_eq_true h.2
  simp only [List.length_cons, packBytes_length, Instr.op, Op.format, Format.words, headerA_headerWord,
    BitVec.toNat_ofNat]
  omega

theorem blinkc (char : Byte) (period dutyQ cycles : Word) :
    Statement (.blinkc char period dutyQ cycles) :=
  fun _ => ⟨_, _, rfl, headerOp_headerWord _ _ _, rfl⟩

theorem blink (char : Byte) (period dutyQ elapse : Word) :
    Statement (.blink char period dutyQ elapse) :=
  fun _ => ⟨_, _, rfl, headerOp_headerWord _ _ _, rfl⟩

end Sys2Proof.Laws.EncodingLength
end

