-- ==== Sys2Proof/Laws/Reset.lean ====
section
/-! SUPPORT. Everything a reset racing a running command can do, and everything a step can do. -/

namespace Sys2Proof.Machine

@[simp] theorem cutShort_zero (s t : State) : cutShort 0 s t = s := by
  simp [cutShort, answeredIn]

/-- What `n` events of a command leave in the trace. -/
theorem cutShort_trace_of_append {s t : State} {new : List TraceEntry} (n : Nat)
    (h : t.trace = s.trace ++ new) : (cutShort n s t).trace = t.trace.take (s.trace.length + n) := by
  rw [cutShort_trace, h, List.drop_left, List.take_length_add_append]

theorem raceReset_none (s : State) (o : Host.Outcome State Fault Refusal) :
    raceReset none s o = o := rfl

theorem raceReset_zero (s : State) (o : Host.Outcome State Fault Refusal) :
    raceReset (some 0) s o = .next (resetBlock (dropReset s.inputs) s) := rfl

/-- The race is lost: the command is cut short. -/
theorem raceReset_cut {n : Nat} {s t : State} (h : n ≤ emittedBetween s t) :
    raceReset (some n) s (.next t) = .next (resetBlock (dropReset s.inputs) (cutShort n s t)) := by
  cases n with
  | zero => rw [raceReset_zero, cutShort_zero]
  | succ n =>
    show Host.Outcome.next (meetReset (n + 1) s t) = _
    unfold meetReset
    rw [if_pos h]

/-- The race is won: the reset is that many events nearer. -/
theorem raceReset_later {n : Nat} {s t : State} (h : emittedBetween s t < n) :
    raceReset (some n) s (.next t) =
      .next { t with inputs := delayReset (emittedBetween s t) t.inputs } := by
  cases n with
  | zero => omega
  | succ n =>
    show Host.Outcome.next (meetReset (n + 1) s t) = _
    unfold meetReset
    rw [if_neg (by omega)]

/-- Everything the race can do. -/
theorem raceReset_cases {r : Option Nat} {s u : State} {o : Host.Outcome State Fault Refusal}
    (h : raceReset r s o = .next u) :
    (∃ v, u = resetBlock (dropReset s.inputs) v ∧ v.params = s.params ∧ v.past = s.past ∧
      v.responses = s.responses ∧ r ≠ none) ∨
    (∃ t, o = .next t ∧ (u = t ∨ ∃ m, u = { t with inputs := delayReset m t.inputs })) := by
  match r, o, h with
  | none, _, h => exact .inr ⟨u, h, .inl rfl⟩
  | some 0, _, h =>
    injection h with h
    exact .inl ⟨s, h.symm, rfl, rfl, rfl, by simp⟩
  | some (n + 1), .next t, h =>
    by_cases hn : n + 1 ≤ emittedBetween s t
    · rw [raceReset_cut hn] at h
      injection h with h
      exact .inl ⟨_, h.symm, rfl, rfl, rfl, by simp⟩
    · rw [raceReset_later (by omega)] at h
      injection h with h
      exact .inr ⟨t, rfl, .inr ⟨_, h.symm⟩⟩
  | some (_ + 1), .fault _, h => cases h
  | some (_ + 1), .refused _, h => cases h

/-- A race of a command that goes on goes on. -/
theorem raceReset_next (r : Option Nat) (s t : State) : ∃ u, raceReset r s (.next t) = .next u := by
  match r with
  | none => exact ⟨t, rfl⟩
  | some 0 => exact ⟨_, rfl⟩
  | some (_ + 1) => exact ⟨_, rfl⟩

/-! ## Where the next reset stands -/

theorem nextReset_append {waiting : List HostInput} (h : nextReset waiting = none) (n : Nat)
    (rest : List HostInput) : nextReset (waiting ++ .reset n :: rest) = some n := by
  induction waiting with
  | nil => rfl
  | cons x more ih =>
    cases x with
    | reset m => cases h
    | idle d => exact ih h
    | packet a b => exact ih h

theorem dropReset_append {waiting : List HostInput} (h : nextReset waiting = none) (n : Nat)
    (rest : List HostInput) : dropReset (waiting ++ .reset n :: rest) = waiting ++ rest := by
  induction waiting with
  | nil => rfl
  | cons x more ih =>
    cases x with
    | reset m => cases h
    | idle d => exact congrArg (HostInput.idle d :: ·) (ih h)
    | packet a b => exact congrArg (HostInput.packet a b :: ·) (ih h)

theorem delayReset_append {waiting : List HostInput} (h : nextReset waiting = none) (m n : Nat)
    (rest : List HostInput) :
    delayReset m (waiting ++ .reset n :: rest) = waiting ++ .reset (n - m) :: rest := by
  induction waiting with
  | nil => rfl
  | cons x more ih =>
    cases x with
    | reset k => cases h
    | idle d => exact congrArg (HostInput.idle d :: ·) (ih h)
    | packet a b => exact congrArg (HostInput.packet a b :: ·) (ih h)

theorem mem_of_nextReset {inputs : List HostInput} (h : nextReset inputs ≠ none) :
    ∃ n, .reset n ∈ inputs := by
  induction inputs with
  | nil => exact absurd rfl h
  | cons x more ih =>
    cases x with
    | reset n => exact ⟨n, List.mem_cons_self⟩
    | idle d =>
      obtain ⟨n, hn⟩ := ih h
      exact ⟨n, List.mem_cons_of_mem _ hn⟩
    | packet a b =>
      obtain ⟨n, hn⟩ := ih h
      exact ⟨n, List.mem_cons_of_mem _ hn⟩

/-- A command whose packet has no reset directly behind it runs undisturbed. -/
theorem resetBehind_eq_none {rest : List HostInput} (h : ∀ n more, rest ≠ .reset n :: more) :
    resetBehind rest = none := by
  cases rest with
  | nil => rfl
  | cons x more =>
    cases x with
    | idle d => rfl
    | packet a b => rfl
    | reset n => exact absurd rfl (h n more)

/-- Taking a packet always ends in a next state. -/
theorem runPacket_next (h : Word) (ws : List Word) (s : State) :
    ∃ t, runPacket h ws s = .next t := by
  unfold runPacket
  split
  · exact exec_next _ s
  · exact ⟨_, rfl⟩

/-- A BUSY block that knows what it is doing goes on. -/
theorem continueBlink_next {s : State} (h : s.blState ≠ .off) : ∃ t, continueBlink s = .next t := by
  unfold continueBlink
  cases hb : s.blState with
  | off => exact absurd hb h
  | showing => exact ⟨_, rfl⟩
  | idle => exact ⟨_, rfl⟩

/-- Everything a step can do. -/
theorem step_cases {s u : State} (h : step s = .next u) :
    (s.ready = true ∧ s.inputs = [] ∧ u = s) ∨
    (s.ready = true ∧ ∃ d rest, s.inputs = .idle d :: rest ∧ u = idleFor d rest s) ∨
    (s.ready = true ∧ ∃ n rest, s.inputs = .reset n :: rest ∧ u = resetBlock rest s) ∨
    (s.ready = true ∧ ∃ a b rest, s.inputs = .packet a b :: rest ∧
      raceReset (resetBehind rest) (acceptPacket rest s) (runPacket a b (acceptPacket rest s)) =
        .next u) ∨
    (s.ready = false ∧ ∃ d rest, s.inputs = .idle d :: rest ∧
      busyStep { s with inputs := rest } = .next u) ∨
    (s.ready = false ∧ busyStep s = .next u) := by
  unfold step at h
  cases hr : s.ready with
  | true =>
    rw [hr, if_pos rfl] at h
    split at h
    · rename_i hi
      injection h with h
      exact .inl ⟨rfl, hi, h.symm⟩
    · rename_i d rest hi
      injection h with h
      exact .inr (.inl ⟨rfl, d, rest, hi, h.symm⟩)
    · rename_i n rest hi
      injection h with h
      exact .inr (.inr (.inl ⟨rfl, n, rest, hi, h.symm⟩))
    · rename_i a b rest hi
      exact .inr (.inr (.inr (.inl ⟨rfl, a, b, rest, hi, h⟩)))
  | false =>
    rw [hr, if_neg (by simp)] at h
    split at h
    · rename_i d rest hi
      exact .inr (.inr (.inr (.inr (.inl ⟨rfl, d, rest, hi, h⟩))))
    · exact .inr (.inr (.inr (.inr (.inr ⟨rfl, h⟩))))

end Sys2Proof.Machine
end

