-- ==== Sys2Proof/Tests/Slice0.lean ====
section
/-! SUPPORT. The model's own tests. Expected results are those of 95_test_vectors.md (cited by its section
or by the rule they follow from), never the model's own answers. After them, one witness for every statement of
Obligations.lean that has hypotheses: a concrete state and operands that meet all of them. -/

namespace Sys2Proof.Tests

open Sys2Proof.Machine Sys2Proof.Claims

/-! ## Helpers -/

/-- The reset state with `n` events to be answered done. -/
def ready (n : Nat) : State := { State.reset with answers := List.replicate n .done }

/-- `n` events done, then one failed. -/
def failing (n : Nat) (s : State) : State := { s with answers := List.replicate n .done ++ [.fail] }

/-- A configured strip with these records and this hue. -/
def strip (hue : BitVec 11) (records : List LedRecord) (n : Nat) : State :=
  { ready n with
    hue := hue
    ledcnt := records.length
    buf := records.zipIdx.map (fun p => (p.2, p.1))
    status := ⟨.ok, true, false, false, 0x10⟩ }

/-- A configured display. -/
def display (n : Nat) : State :=
  { ready n with
    pinOe := 0b1111
    defdelay := 500
    status := ⟨.ok, false, true, false, 0x20⟩ }

/-- A display whose blink bounded by elapsed time with no period goes on for ever (U16). -/
def endless : State :=
  { display 57 with
    ready := false
    blState := .showing
    blMode := .elapsed
    blChar := 0x38
    blElapse := 1 }

/-- The block after an event has failed. -/
def broken : State :=
  { State.reset with
    status := ⟨.hardwareIO, false, false, true, 0x10⟩
    trace := [⟨.busMode 0, .fail⟩] }

/-- Whether the command ends in a state with the property. -/
def after (i : Instr) (s : State) (p : State → Bool) : Bool :=
  match exec i s with
  | .next t => p t
  | .fault _ => false
  | .refused _ => false

/-- Whether the step does. -/
def stepped (s : State) (p : State → Bool) : Bool :=
  match step s with
  | .next t => p t
  | .fault _ => false
  | .refused _ => false

/-- The events of a trace that got the answer done. -/
def doneEventsOf (t : State) : List Event :=
  (t.trace.filter (fun e => e.answer == .done)).map TraceEntry.event

/-- The levels that the events put on the data line, in order. -/
def dataLevels (evs : List Event) : List Bool :=
  evs.filterMap (fun e => match e with
    | .pin .data l => some l
    | _ => none)

theorem answersDone_ready (n m : Nat) (h : m ≤ n) (s : State)
    (hs : s.answers = List.replicate n .done) : AnswersDone s m := by
  intro k hk
  simp [answerAt, hs, show k < n by omega]

theorem answersDone_failing (n : Nat) (s : State) :
    AnswersDone (failing n s) n ∧ answerAt (failing n s) n = .fail := by
  refine ⟨fun k hk => ?_, ?_⟩
  · simp [answerAt, failing, List.getElem?_append, hk]
  · simp [answerAt, failing]

/-! ## Commands without an encoding (30_encoding.md R63, R65) -/

theorem test_default_with_a_count_is_ill_formed : (Instr.configure true 5).wellFormed = false := by decide
theorem test_default_with_a_delay_is_ill_formed : (Instr.puts true 5 [0x31]).wellFormed = false := by
  decide
theorem test_256_characters_are_ill_formed :
    (Instr.puts false 0 (List.replicate 256 0x31)).wellFormed = false := by decide +kernel
theorem test_255_characters_are_well_formed :
    (Instr.puts true 0 (List.replicate 255 0x31)).wellFormed = true := by decide +kernel

/-! ## Words written out from 30_encoding.md R61 to R66 -/

theorem test_decode_hue2rgb :
    decode [0b00000000000000000000000000000001, 0b00000000000000000001001110001000] =
      .ok (.hue2rgb 5000) := by decide
theorem test_decode_configure :
    decode [0b00000000000000000000000000010000, 0b00000000000000000000000000000011] =
      .ok (.configure false 3) := by decide
theorem test_decode_configure_default :
    decode [0b00000000000000010000000000010000, 0] = .ok (.configure true 0) := by decide
theorem test_decode_set :
    decode [0b00000000000000000000000000010001, 0b00000000000000000000000000000010,
        0b00101000000111100001010000001010] = .ok (.set 2 0x281E140A) := by decide
theorem test_decode_advance : decode [0b00000000000000000000000000010010] = .ok .advance := by decide
theorem test_decode_scroll : decode [0b00000000000000000000000000010011] = .ok .scroll := by decide
theorem test_decode_render : decode [0b00000000000000000000000000010100] = .ok .render := by decide
theorem test_decode_segcfg :
    decode [0b00000000000000000000000000100000, 0b00000000000000000000000111110100] =
      .ok (.segcfg 500) := by decide
theorem test_decode_write :
    decode [0b00000000000000000000000000100001, 0b00000000000000000000000011111111] =
      .ok (.write 255) := by decide
theorem test_decode_clear : decode [0b00000000000000000000000000100010] = .ok .clear := by decide
theorem test_decode_putc :
    decode [0b00000000000000000100011000100011, 0b00000000000000000000000000000111] =
      .ok (.putc 0x46 7) := by decide
theorem test_decode_puts_default :
    decode [0b00000000000000010000010000100100, 0, 0b01000110011000010011001000110001] =
      .ok (.puts true 0 [0x31, 0x32, 0x61, 0x46]) := by decide
theorem test_decode_puts :
    decode [0b00000000000000000000010100100100, 0b00000000000000000000000000001010,
        0b00100000001010100010111000110000, 0b00000000000000000000000000111001] =
      .ok (.puts false 10 [0x30, 0x2E, 0x2A, 0x20, 0x39]) := by decide
theorem test_decode_blinkc :
    decode [0b00000000000000000011100000110000, 0b00000000000000000000000001100100,
        0b00000000000000001000000000000000, 0b00000000000000000000000000000011] =
      .ok (.blinkc 0x38 100 32768 3) := by decide
theorem test_decode_blink :
    decode [0b00000000000000000011100000110001, 0b00000000000000000000000001100100,
        0b00000000000000010000000000000000, 0b00000000000000000000000011111010] =
      .ok (.blink 0x38 100 65536 250) := by decide

/-- 95_test_vectors.md 2.5: the packets that are `Illegal`. -/
theorem test_illegal_packets :
    decode [0x00000000] = .error .reservedOpcode ∧ decode [0x000000FF] = .error .reservedOpcode ∧
    decode [0x00000001] = .error .wrongLength ∧ decode [0x00010023, 0] = .error .dfNotAllowed ∧
    decode [0x00000324, 0] = .error .wrongLength := by decide

/-- 95_test_vectors.md 2.5, the longest packet: 66 words, 255 characters. -/
theorem test_decode_longest_puts :
    decode (0x0000FF24 :: 0 :: (List.replicate 63 0x61616161 ++ [0x00616161])) =
      .ok (.puts false 0 (List.replicate 255 0x61)) := by decide +kernel

/-- spec/opcode_table.json's numbering: word 0 in bits [31:0], word 1 in bits [63:32]. -/
theorem test_table_word :
    decodeTableWord 64 (640 * 2 ^ 32 + 0x01) = some (.hue2rgb 640) ∧
    decodeTableWord 32 0x00000011 = some (.set 0 0) ∧ decodeTableWord 32 0x00010012 = none := by decide

/-- A packet of `HUE2RGB` set up by `withFetchWord` is the one the next step runs (R11). -/
theorem test_fetch_word :
    stepped (State.reset.withFetchWord 64 (640 * 2 ^ 32 + 0x01))
      (fun t => t.res == 0x00FF80 && t.responses == [0x00FF8000] && t.ready) = true := by decide

/-! ## Instructions, at most two tests each -/

/-- 95_test_vectors.md 2.1, hue 640. -/
theorem test_hue2rgb :
    after (.hue2rgb 640) (ready 0)
      (fun t => t.res == 0x00FF80 && t.responses == [0x00FF8000]) = true := by decide

/-- 95_test_vectors.md 2.1, a hue of -1. -/
theorem test_hue2rgb_refuses_negative :
    after (.hue2rgb 0xFFFFFFFF) (ready 0) (fun t => t.res == 0 && t.responses == [1]) = true := by
  decide

/-- 95_test_vectors.md 2.2. -/
theorem test_configure :
    after (.configure false 3) (ready 3) (fun t =>
      doneEventsOf t == [.busMode 0, .busBitOrder true, .busFreq 1000000] && t.ledcnt == 3 &&
      t.buf == [(0, ⟨0, 0, 0, 0⟩), (1, ⟨0, 0, 0, 0⟩), (2, ⟨0, 0, 0, 0⟩)] &&
      t.status.word == 0x1008) = true := by decide

/-- 95_test_vectors.md 2.2: 1025 exceeds `LED_COUNT_MAX`. -/
theorem test_configure_refuses_1025 :
    after (.configure false 0x401) (ready 3)
      (fun t => t.trace == [] && !t.status.ledcfg && t.responses == [1]) = true := by decide

/-- 95_test_vectors.md 2.2: brightness 40 masks to 8. -/
theorem test_set_masks_brightness :
    after (.set 2 0x281E140A) (strip 0 (List.replicate 3 ⟨0, 0, 0, 0⟩) 0)
      (fun t => Buffer.read t.buf 2 == ⟨8, 30, 20, 10⟩ && Buffer.read t.buf 1 == ⟨0, 0, 0, 0⟩) =
      true := by decide

/-- 95_test_vectors.md 2.2: the index `LEDCNT` is refused. -/
theorem test_set_refuses_the_count :
    after (.set 3 0) (strip 0 (List.replicate 3 ⟨1, 1, 1, 1⟩) 0) (fun t =>
      t.responses == [1] && t.buf == (strip 0 (List.replicate 3 ⟨1, 1, 1, 1⟩) 0).buf) = true := by
  decide

/-- 95_test_vectors.md 2.2: from 1530 `ADVANCE` wraps to 0, and every record is {31, b 0, g 0, r 255}. -/
theorem test_advance_wraps_to_0 :
    after .advance (strip 1530 [⟨0, 0, 0, 0⟩, ⟨1, 2, 3, 4⟩] 0) (fun t =>
      t.hue == 0 && t.buf == [(0, ⟨31, 0, 0, 255⟩), (1, ⟨31, 0, 0, 255⟩)]) = true := by decide

/-- 95_test_vectors.md 2.2: from 252 `ADVANCE` gives 258, {31, blue 0, green 255, red 253}. -/
theorem test_advance_258 :
    after .advance (strip 252 [⟨0, 0, 0, 0⟩] 0)
      (fun t => t.hue == 258 && t.buf == [(0, ⟨31, 0, 255, 253⟩)]) = true := by decide

/-- 95_test_vectors.md 2.2: [A, B, C] becomes [N1, A, B]. -/
theorem test_scroll_shifts :
    after .scroll (strip 0 [⟨1, 1, 1, 1⟩, ⟨2, 2, 2, 2⟩, ⟨3, 3, 3, 3⟩] 0) (fun t =>
      t.hue == 6 &&
      t.buf == [(0, ⟨31, 0, 6, 255⟩), (1, ⟨1, 1, 1, 1⟩), (2, ⟨2, 2, 2, 2⟩)]) = true := by decide

/-- 95_test_vectors.md 2.2: from 1530 `SCROLL` gives 6; an empty strip stays empty. -/
theorem test_scroll_wraps_to_6 :
    after .scroll (strip 1530 [] 0) (fun t => t.hue == 6 && t.buf == []) = true := by decide

/-- 95_test_vectors.md 2.2: `RENDER` of two records. -/
theorem test_render :
    after .render (strip 0 [⟨31, 0, 0, 255⟩, ⟨5, 3, 2, 1⟩] 16) (fun t =>
      doneEventsOf t == ([0, 0, 0, 0, 0xFF, 0, 0, 0xFF, 0xE5, 3, 2, 1, 0xFF, 0xFF, 0xFF, 0xFF].map
        Event.byte) && t.responses == [0]) = true := by decide

/-- 95_test_vectors.md P5: the sixth byte fails. -/
theorem test_render_sixth_byte_fails :
    after .render (failing 5 (strip 0 [⟨0, 0, 0, 0⟩] 0)) (fun t =>
      doneEventsOf t == ([0, 0, 0, 0, 0xE0].map Event.byte) && t.trace.length == 6 &&
      t.responses == [3] && t.status.word == 0x142B) = true := by decide

/-- 95_test_vectors.md 2.3. -/
theorem test_segcfg :
    after (.segcfg 0x1F4) (ready 4) (fun t =>
      doneEventsOf t == [.pinDir .data, .pinDir .clock, .pinDir .latch, .pinDir .clear] &&
      t.defdelay == 500 && t.pinOe == 0b1111 && t.status.word == 0x2010) = true := by decide

/-- 42_seven_segment.md R115: CLOCK fails, DATA stays at 0, `DEFDELAY` and `SEGCFG` are unchanged. -/
theorem test_segcfg_clock_fails :
    after (.segcfg 0x1F4) (failing 1 (ready 0)) (fun t =>
      t.defdelay == 0 && !t.pinData && !t.status.segcfg && t.status.fatal &&
      t.trace.length == 2) = true := by decide

/-- 95_test_vectors.md 2.3: the levels of 0xA5, and 27 events. -/
theorem test_write :
    after (.write 0xA5) (display 27) (fun t =>
      dataLevels (doneEventsOf t) == [false, true, false, true, true, false, true, false] &&
      t.trace.length == 27 && (doneEventsOf t).drop 24 ==
        [.pin .latch false, .pin .latch true, .pin .latch false]) = true := by decide

/-- 95_test_vectors.md 2.3, S8. -/
theorem test_write_refuses_256 :
    after (.write 0x100) (display 27) (fun t => t.trace == [] && t.responses == [1]) = true := by decide

/-- 95_test_vectors.md 2.3. -/
theorem test_clear :
    after .clear (display 30) (fun t =>
      (doneEventsOf t).take 3 == [.pin .clear true, .pin .clear false, .pin .clear true] &&
      dataLevels (doneEventsOf t) == List.replicate 8 true && t.trace.length == 30 &&
      t.pinClear && t.pinData) = true := by decide

/-- 95_test_vectors.md 2.3: `putc 'F', 7`. -/
theorem test_putc :
    after (.putc 0x46 7) (display 27) (fun t =>
      dataLevels (doneEventsOf t) == [true, false, false, false, true, true, true, false] &&
      (doneEventsOf t).drop 27 == [.wait 7] && t.time == 7) = true := by decide

/-- 95_test_vectors.md 2.3: `putc 'G'`. -/
theorem test_putc_refuses_G :
    after (.putc 0x47 0) (display 27) (fun t => t.trace == [] && t.responses == [1]) = true := by decide

/-- 95_test_vectors.md 2.3: `puts "12x", 0` shows two characters, then is refused. -/
theorem test_puts_stops_at_x :
    after (.puts false 0 [0x31, 0x32, 0x78]) (display 81) (fun t =>
      dataLevels (doneEventsOf t) ==
        [true, true, true, true, true, false, false, true] ++
        [true, false, true, false, false, true, false, false] &&
      t.trace.length == 56 && t.responses == [1]) = true := by decide

/-- 95_test_vectors.md 2.3: `DEFDELAY` 500 with `DF`. -/
theorem test_puts_default_delay :
    after (.puts true 0 [0x31, 0x46]) (display 54) (fun t => t.time == 1000 && t.responses == [0]) =
      true := by decide

/-- 95_test_vectors.md S10: three cycles, 171 pin events, 300 ticks. -/
theorem test_blinkc :
    after (.blinkc 0x38 100 0x8000 3) (display 171) (fun t =>
      t.time == 300 && (t.trace.filter (fun e => e.event.answered)).length == 171 &&
      t.responses == [0] && t.ready && t.pinClear && t.pinData) = true := by decide +kernel

/-- 95_test_vectors.md 2.4: an unknown character with no cycle to run; 43_blink.md R142: no register is loaded. -/
theorem test_blinkc_no_cycle :
    after (.blinkc 0x78 100 0x8000 0) (display 0) (fun t => t.trace == [] && t.responses == [0] &&
      t.blChar == 0 && t.blShow == 0) = true := by decide

/-- 43_blink.md R142, R144: an unknown character with a cycle to run ends before any event, the registers
loaded. -/
theorem test_blinkc_unknown :
    after (.blinkc 0x78 100 0x8000 3) (display 0) (fun t => t.trace == [] && t.responses == [1] &&
      t.blState == .off && t.blChar == 0x78 && t.blShow == 50 && t.blIdle == 50 && t.blCnt == 3) =
      true := by decide

/-- 95_test_vectors.md S11: `elapse` 250 runs three cycles of 100 ticks. -/
theorem test_blink :
    after (.blink 0x38 100 0x10000 250) (display 171) (fun t =>
      t.time == 300 && (t.trace.filter (fun e => e.event.answered)).length == 171 &&
      t.responses == [0] && t.ready) = true := by decide +kernel

/-- 95_test_vectors.md 2.4: `period` 0, `elapse` 1 does not end. -/
theorem test_blink_does_not_end :
    after (.blink 0x38 0 0 1) (display 57) (fun t => !t.ready && t.responses == [] &&
      t.trace.length == 59) = true := by decide +kernel

/-- 70_reset_and_hazards.md R180, R182: a reset after 5 of the 8 bytes of a `RENDER` leaves 5 bytes sent, no
response, and the block READY with nothing configured. -/
theorem test_reset_cuts_a_frame :
    stepped { strip 0 [] 8 with inputs := [.packet 0x00000014 [], .reset 5] } (fun t =>
      t.past.map TraceEntry.event == ([0, 0, 0, 0, 0xFF].map Event.byte) && t.trace == [] &&
      t.responses == [] && t.ready && !t.status.ledcfg && t.inputs == []) = true := by decide

/-- 70_reset_and_hazards.md R190: a reset behind a waiting packet ends the endless `BLINK`; the packet waits on. -/
theorem test_reset_passes_a_waiting_packet :
    stepped { endless with inputs := [.packet 0x00000012 [], .reset 0] } (fun t =>
      t.ready && t.trace == [] && t.inputs == [.packet 0x00000012 []]) = true := by decide

/-- 95_test_vectors.md 2.6: the order of the tests. -/
theorem test_priority :
    after .render { broken with status := ⟨.ok, false, false, true, 0⟩ }
      (fun t => t.status.code == .hardwareIO) = true ∧
    after (.write 256) (ready 0) (fun t => t.status.code == .notConfigured) = true ∧
    after (.blinkc 0x78 0xFFFFFFFF 0 1) (display 0) (fun t => t.status.code == .invalidArgument) = true ∧
    stepped { broken with inputs := [.packet 0x99 []] }
      (fun t => t.status.word == 0x9925 && t.responses == [5]) = true := by decide

/-- 95_test_vectors.md Part 3, lines of P2, P3 and P4 and their packets. -/
theorem test_assembler :
    (assembleLine defaultParams "set 1, 5, 1, 2, 3 ; blue".toList =
      .command (.set 1 0x05030201)) ∧
    assembleLine defaultParams "puts \"1f\"".toList = .command (.puts true 0 [0x31, 0x66]) ∧
    assembleLine defaultParams "blinkc '8', 0.1s, 0.5d, 3".toList =
      .command (.blinkc 0x38 100 32768 3) := by decide +kernel

/-! ## Witnesses: the hypotheses of each statement can be met, clause by clause, at the ends of its ranges -/

theorem display_usable (n : Nat) : SegUsable (display n) := ⟨rfl, rfl⟩

theorem strip_usable (hue : BitVec 11) (records : List LedRecord) (n : Nat) :
    LedUsable (strip hue records n) := ⟨rfl, rfl⟩

theorem strip_inv : Inv (strip 1530 [⟨31, 0, 0, 255⟩] 0) := by
  constructor <;> decide

theorem endless_inv : Inv endless := by
  constructor <;> decide

theorem witness_DecodeOfEncodeIsTheCommand :
    (Instr.puts true 0 (List.replicate 255 0x31)).wellFormed = true ∧
    (Instr.puts false 0xFFFFFFFF []).wellFormed = true ∧ (Instr.configure true 0).wellFormed = true := by
  decide +kernel

theorem witness_EncodeOfDecodeIsThePacket :
    ∃ i, decode (0x0000FF24 :: 0 :: (List.replicate 63 0x61616161 ++ [0x00616161])) = .ok i :=
  ⟨_, test_decode_longest_puts⟩

theorem witness_PacketLengthComesFromTheHeader :
    decode [0x00000012] = .ok .advance ∧
    ∃ i, decode (0x0000FF24 :: 0 :: (List.replicate 63 0x61616161 ++ [0x00616161])) = .ok i :=
  ⟨test_decode_advance, _, test_decode_longest_puts⟩

theorem witness_LegalPacketsAreExactlyThese :
    (∃ i, decode [0x00000124, 0, 0x00000061] = .ok i) ∧
    ¬ ∃ i, decode [0x00000124, 0, 0x00010061] = .ok i := by
  refine ⟨⟨.puts false 0 [0x61], by decide⟩, ?_⟩
  rintro ⟨i, h⟩
  rw [show decode [0x00000124, 0, 0x00010061] = .error .paddingNotZero from by decide] at h
  cases h

theorem witness_ByteChannelIsLittleEndian : 3 < 4 * [(0x11223344 : Word)].length ∧
    (bytesOfWords [0x11223344]).getD 0 0 = 0x44 ∧ (bytesOfWords [0x11223344]).getD 3 0 = 0x11 := by
  decide

theorem witness_StepRunsTheDecodedCommand :
    ∃ s : State, s.ready = true ∧ s.inputs = .packet 0x00000012 [] :: [.idle 1, .reset 0] ∧
      NoResetBehind [.idle 1, .reset 0] ∧ decode [0x00000012] = .ok .advance :=
  ⟨{ ready 0 with inputs := .packet 0x00000012 [] :: [.idle 1, .reset 0] }, rfl, rfl,
    by simp [NoResetBehind], by decide⟩

theorem witness_IllegalPacketChangesOnlyStatus :
    ∃ s : State, s.ready = true ∧ s.blState = .off ∧ s.status.fatal = true ∧
      s.inputs = .packet 0x00000099 [] :: [] ∧ NoResetBehind [] ∧
      decode [0x00000099] = .error .reservedOpcode :=
  ⟨{ broken with inputs := [.packet 0x00000099 []] }, rfl, rfl, rfl, rfl, by simp [NoResetBehind],
    by decide⟩

theorem witness_ResetRestoresEveryRegister :
    ∃ s t : State,
      (s.ready = false ∧ s.inputs = [.packet 0x00000012 []] ++ .reset 0 :: [] ∧
        OnlyPackets [.packet 0x00000012 []]) ∧
      t.ready = true ∧ t.inputs = [.reset 7] :=
  ⟨{ endless with inputs := [.packet 0x00000012 [], .reset 0] }, { broken with inputs := [.reset 7] },
    ⟨rfl, rfl, rfl⟩, rfl, rfl⟩

/-- A `RENDER` of an empty strip, 8 bytes, with a reset after `n` events. -/
def renderCut (n : Nat) : State :=
  { strip 0 [] 8 with inputs := [.packet 0x00000014 [], .reset n] }

theorem witness_ResetCutsACommandShort :
    (renderCut 0).ready = true ∧ (renderCut 0).inputs = .packet 0x00000014 [] :: .reset 0 :: [] ∧
    decode [0x00000014] = .ok .render ∧
    ∃ u, exec .render { renderCut 0 with ready := false, inputs := .reset 0 :: [] } = .next u ∧
      (renderCut 0).trace.length + 8 = u.trace.length :=
  ⟨rfl, rfl, by decide, _, rfl, by decide⟩

theorem witness_ResetCutsABusyBlockShort :
    ∃ s u : State, s.ready = false ∧
      s.inputs = [.packet 0x00000012 []] ++ .reset 59 :: [] ∧ OnlyPackets [.packet 0x00000012 []] ∧
      step { s with inputs := [.packet 0x00000012 []] } = .next u ∧
      s.trace.length + 59 = u.trace.length :=
  ⟨{ endless with inputs := [.packet 0x00000012 [], .reset 59] }, _, rfl, rfl, rfl, rfl,
    by decide +kernel⟩

theorem witness_ResetEndsAnEndlessBlink :
    ∃ s : State, SegUsable s ∧ s.ready = false ∧ s.blState = .showing ∧ s.blMode = .elapsed ∧
      segLookup s.params s.blChar = some 0x7F ∧ s.blShow = 0 ∧ s.blIdle = 0 ∧ s.params.tPin = 0 ∧
      s.time = s.blT0 ∧ 0 < s.blElapse.toNat ∧
      s.inputs = [.packet 0x00000012 []] ++ .reset 59 :: [] ∧ OnlyPackets [.packet 0x00000012 []] ∧
      AnswersDone s (57 * max 1 ((59 + 58) / 59)) :=
  ⟨{ endless with inputs := [.packet 0x00000012 [], .reset 59] }, ⟨rfl, rfl⟩, rfl, rfl, rfl, by decide,
    rfl, rfl, rfl, rfl, by decide, rfl, rfl, answersDone_ready 57 57 (by decide) _ rfl⟩

theorem witness_WaitingBlockOnlyLetsTimePass :
    ∃ s t : State, s.ready = true ∧ s.inputs = [] ∧ t.ready = true ∧ t.inputs = [.idle (2 ^ 64)] :=
  ⟨ready 0, { ready 0 with inputs := [.idle (2 ^ 64)] }, rfl, rfl, rfl, rfl⟩

theorem witness_BusyBlockTakesNoPacket :
    ∃ s : State, s.ready = false ∧ s.blState ≠ .off ∧
      s.inputs = .packet 0x00000012 [] :: .reset 0 :: [] :=
  ⟨{ endless with inputs := [.packet 0x00000012 [], .reset 0] }, rfl, by decide, rfl⟩

theorem witness_EveryStepKeepsTheInvariant :
    (∃ s t : State, Inv s ∧ s.ready = true ∧ step s = .next t) ∧
    ∃ s t : State, Inv s ∧ s.ready = false ∧ step s = .next t :=
  ⟨⟨_, _, strip_inv, rfl, rfl⟩, ⟨_, _, endless_inv, rfl, rfl⟩⟩

theorem witness_InvariantStatesContinue : (∃ s, Inv s ∧ s.ready = true) ∧ ∃ s, Inv s ∧ s.ready = false :=
  ⟨⟨_, strip_inv, rfl⟩, ⟨_, endless_inv, rfl⟩⟩

theorem witness_ParametersNeverChange : ∃ t, step endless = .next t := ⟨_, rfl⟩

theorem witness_HardwareIOIsSticky :
    broken.status.fatal = true ∧
    (∃ t, exec .render (failing 7 (strip 0 [] 0)) = .next t ∧ t.ready = true ∧
      t.status.code = .hardwareIO) ∧
    ∃ s t : State, s.status.fatal = true ∧ step s = .next t :=
  ⟨rfl, ⟨_, rfl, rfl, by decide⟩, broken, _, rfl, rfl⟩

theorem witness_UnconfiguredUnitsRefuse :
    (Instr.set 0 0).op ∈ [Op.set, .advance, .scroll, .render] ∧
    (Instr.blink 0 0 0 0).op ∈ [Op.write, .clear, .putc, .puts, .blinkc, .blink] ∧
    (ready 0).status.fatal = false ∧ (ready 0).status.ledcfg = false ∧
    (ready 0).status.segcfg = false ∧
    ∃ t, exec (.segcfg 0) (ready 4) = .next t := by
  refine ⟨by decide, by decide, rfl, rfl, rfl, _, rfl⟩

theorem witness_CodesACommandCanEndWith :
    ∃ t, exec .clear (display 30) = .next t ∧ t.ready = true := ⟨_, rfl, rfl⟩

theorem witness_OneResponsePerCommand :
    (∃ t, exec (.hue2rgb 640) (ready 0) = .next t ∧ t.ready = true) ∧
    ∃ t, exec (.blink 0x38 0 0 1) (display 57) = .next t ∧ t.ready = false :=
  ⟨⟨_, rfl, rfl⟩, ⟨_, rfl, by decide +kernel⟩⟩

theorem witness_StatusAfterACommand :
    ∃ t, exec (.configure true 0) (ready 3) = .next t ∧ t.ready = true ∧ t.status.code = .ok :=
  ⟨_, rfl, rfl, by decide +kernel⟩

theorem witness_EventsTakeTheAnswersInOrder :
    ∃ t, exec .render (failing 7 (strip 0 [] 0)) = .next t ∧ t.ready = true ∧
      (strip 0 [] 0).status.fatal = false := ⟨_, rfl, rfl, rfl⟩

theorem witness_TimeMovesByTheEvents : ∃ t, exec (.putc 0x46 7) (display 27) = .next t := ⟨_, rfl⟩

theorem witness_RejectedCommandsHaveNoSideEffect :
    (∃ t, exec (.write 256) (ready 0) = .next t ∧ t.ready = true ∧ t.status.code = .notConfigured) ∧
    (∃ t, exec .render broken = .next t ∧ t.ready = true ∧ t.status.code = .hardwareIO ∧
      broken.status.fatal = true) ∧
    (∃ t, exec (.puts false 0 [0x78]) (display 0) = .next t ∧ t.ready = true ∧
      t.status.code = .invalidArgument ∧ segLookup (display 0).params 0x78 = none ∧
      ¬ UnknownBlink (.puts false 0 [0x78]) (display 0)) ∧
    (∃ t, exec (.blink 0x78 100 32768 1) (display 0) = .next t ∧ t.ready = true ∧
      t.status.code = .invalidArgument ∧ UnknownBlink (.blink 0x78 100 32768 1) (display 0)) :=
  ⟨⟨_, rfl, rfl, by decide⟩, ⟨_, rfl, rfl, by decide, rfl⟩,
    ⟨_, rfl, rfl, by decide, by decide, by rintro ⟨_, _, _, _, h | h, _⟩ <;> cases h⟩,
    ⟨_, rfl, rfl, by decide, _, _, _, _, .inr rfl,
      ⟨by decide, by decide, by decide, by decide⟩, by decide⟩⟩

theorem witness_OperandsOutOfRangeAreRefused :
    ((-1 : Word).toInt < 0) ∧ 1535 < (1536 : Word).toInt ∧
    ((ready 0).params.ledCountMax : Int) < (1025 : Word).toInt ∧
    ((strip 0 [⟨0, 0, 0, 0⟩] 0).ledcnt : Int) ≤ (1 : Word).toInt ∧ 255 < (256 : Word).toInt ∧
    65536 < (65537 : Word).toInt ∧ (0x80000000 : Word).toInt < 0 ∧ (ready 0).status.fatal = false ∧
    LedUsable (strip 0 [⟨0, 0, 0, 0⟩] 0) ∧ SegUsable (display 0) :=
  ⟨by decide, by decide, by decide, by decide, by decide, by decide, by decide, rfl,
    strip_usable _ _ _, display_usable _⟩

theorem witness_FrameOfEveryCommand :
    (∃ t, exec (.set 1 0) (strip 0 [⟨0, 0, 0, 0⟩, ⟨1, 1, 1, 1⟩] 0) = .next t ∧ (0 : Nat) ≠ 1) ∧
    (∃ t, exec .scroll (strip 0 [⟨0, 0, 0, 0⟩] 0) = .next t ∧ (strip 0 [⟨0, 0, 0, 0⟩] 0).ledcnt ≤ 1) ∧
    ∃ t, exec (.write 1) (display 27) = .next t :=
  ⟨⟨_, rfl, by decide⟩, ⟨_, rfl, by decide⟩, ⟨_, rfl⟩⟩

theorem witness_HueFunctionIsTheBandTable :
    (1535 < 2048 ∧ 1535 < 1536 ∧ wheel 1535 = ⟨255, 0, 0⟩) ∧ 1536 < 2048 ∧ 2047 < 2048 := by decide

theorem witness_WheelIsSaturatedAndContinuous :
    255 < 1536 ∧ 255 % 256 = 255 ∧ 1535 % 256 = 255 ∧ 256 % 256 ≠ 255 ∧ wheel 255 = wheel 256 ∧
    wheel 1535 = wheel 0 := by decide

theorem witness_HueTableAndLogicRunAlike :
    ∃ t, exec .advance (strip 1530 [⟨0, 0, 0, 0⟩] 0) = .next t := ⟨_, rfl⟩

theorem witness_Hue2rgbReturnsTheColour :
    broken.status.fatal = true ∧ (ready 0).status.fatal = false ∧ (-1 : Word).toInt < 0 ∧
    1535 < (1536 : Word).toInt ∧ 0 ≤ (0 : Word).toInt ∧ (1535 : Word).toInt ≤ 1535 := by decide

theorem witness_ConfigureBuildsTheStrip :
    broken.status.fatal = true ∧ (ready 3).status.fatal = false ∧ AnswersDone (ready 3) 3 ∧
    0 ≤ (0 : Word).toInt ∧ (1024 : Word).toInt ≤ (ready 3).params.ledCountMax ∧
    (ready 3).params.ledCountMax < (1025 : Word).toInt ∧
    (AnswersDone (failing 0 (ready 0)) 0 ∧ answerAt (failing 0 (ready 0)) 0 = .fail) ∧
    (AnswersDone (failing 2 (ready 0)) 2 ∧ answerAt (failing 2 (ready 0)) 2 = .fail) :=
  ⟨rfl, rfl, answersDone_ready 3 3 (by decide) _ rfl, by decide, by decide, by decide,
    answersDone_failing _ _, answersDone_failing _ _⟩

theorem witness_SetWritesOneRecord :
    broken.status.fatal = true ∧ (ready 0).status.fatal = false ∧ (ready 0).status.ledcfg = false ∧
    LedUsable (strip 0 [⟨0, 0, 0, 0⟩] 0) ∧ (-1 : Word).toInt < 0 ∧
    ((strip 0 [⟨0, 0, 0, 0⟩] 0).ledcnt : Int) ≤ (1 : Word).toInt ∧ 0 ≤ (0 : Word).toInt ∧
    (0 : Word).toInt < (strip 0 [⟨0, 0, 0, 0⟩] 0).ledcnt ∧ 1 ≠ (0 : Word).toNat :=
  ⟨rfl, rfl, rfl, strip_usable _ _ _, by decide, by decide, by decide, by decide, by decide⟩

theorem witness_AdvanceColoursTheStrip :
    LedUsable (strip 1530 [⟨0, 0, 0, 0⟩] 0) ∧ (strip 1530 [⟨0, 0, 0, 0⟩] 0).hue.toNat + 6 > 1535 ∧
    LedUsable (strip 1524 [] 0) ∧ ¬ (strip 1524 [] 0).hue.toNat + 6 > 1535 ∧
    0 < (strip 1530 [⟨0, 0, 0, 0⟩] 0).ledcnt ∧ (strip 1530 [⟨0, 0, 0, 0⟩] 0).ledcnt ≤ 1 :=
  ⟨strip_usable _ _ _, by decide, strip_usable _ _ _, by decide, by decide, by decide⟩

theorem witness_ScrollShiftsTheStrip :
    LedUsable (strip 1530 [⟨0, 0, 0, 0⟩, ⟨1, 1, 1, 1⟩] 0) ∧ LedUsable (strip 0 [] 0) ∧
    1 ≤ (strip 1530 [⟨0, 0, 0, 0⟩, ⟨1, 1, 1, 1⟩] 0).ledcnt ∧
    1 < (strip 1530 [⟨0, 0, 0, 0⟩, ⟨1, 1, 1, 1⟩] 0).ledcnt ∧ (strip 0 [] 0).ledcnt ≤ 0 :=
  ⟨strip_usable _ _ _, strip_usable _ _ _, by decide, by decide, by decide⟩

theorem witness_AdvanceHasPeriod256 :
    LedUsable (strip 0 [⟨0, 0, 0, 0⟩] 0) ∧ (strip 0 [⟨0, 0, 0, 0⟩] 0).hue = 0 ∧ 1 ≤ 256 ∧
    0 < (strip 0 [⟨0, 0, 0, 0⟩] 0).ledcnt := ⟨strip_usable _ _ _, rfl, by decide, by decide⟩

theorem witness_ScrollHasPeriod255 :
    LedUsable (strip 0 [⟨0, 0, 0, 0⟩, ⟨1, 1, 1, 1⟩] 0) ∧
    (strip 0 [⟨0, 0, 0, 0⟩, ⟨1, 1, 1, 1⟩] 0).hue = 0 ∧ 1 ≤ 1 ∧
    1 < (strip 0 [⟨0, 0, 0, 0⟩, ⟨1, 1, 1, 1⟩] 0).ledcnt :=
  ⟨strip_usable _ _ _, rfl, by decide, by decide⟩

theorem witness_RenderSendsTheFrame :
    LedUsable (strip 0 [⟨0, 0, 0, 0⟩] 12) ∧ AnswersDone (strip 0 [⟨0, 0, 0, 0⟩] 12) 12 ∧
    LedUsable (failing 0 (strip 0 [] 0)) ∧ answerAt (failing 0 (strip 0 [] 0)) 0 = .fail ∧
    (AnswersDone (failing 7 (strip 0 [] 0)) 7 ∧ answerAt (failing 7 (strip 0 [] 0)) 7 = .fail) ∧
    7 < 8 + 4 * (failing 7 (strip 0 [] 0)).ledcnt :=
  ⟨strip_usable _ _ _, answersDone_ready 12 12 (by decide) _ rfl, ⟨rfl, rfl⟩,
    (answersDone_failing _ _).2, answersDone_failing _ _, by decide⟩

theorem witness_FrameByteFormula :
    LedUsable (strip 0 [⟨0, 0, 0, 0⟩] 12) ∧
    AnswersDone (strip 0 [⟨0, 0, 0, 0⟩] 12) (8 + 4 * (strip 0 [⟨0, 0, 0, 0⟩] 12).ledcnt) ∧
    3 < 4 ∧ 7 < 4 + 4 * (strip 0 [⟨0, 0, 0, 0⟩] 12).ledcnt ∧
    11 < 8 + 4 * (strip 0 [⟨0, 0, 0, 0⟩] 12).ledcnt :=
  ⟨strip_usable _ _ _, answersDone_ready 12 12 (by decide) _ rfl, by decide, by decide, by decide⟩

theorem witness_RenderAndSetRepeatHarmlessly :
    (∃ t, LedUsable (strip 0 [] 16) ∧ AnswersDone (strip 0 [] 16) (2 * (8 + 4 * 0)) ∧
      RepeatsTo .render 2 (strip 0 [] 16) t) ∧
    ∃ t u, exec (.set 0 1) (strip 0 [⟨0, 0, 0, 0⟩] 0) = .next t ∧ exec (.set 0 1) t = .next u :=
  ⟨⟨_, strip_usable _ _ _, answersDone_ready 16 16 (by decide) _ rfl, _, rfl, _, rfl, rfl⟩,
    ⟨_, _, rfl, rfl⟩⟩

theorem witness_SegcfgDrivesTheLinesLow :
    broken.status.fatal = true ∧ (ready 4).status.fatal = false ∧ AnswersDone (ready 4) 4 ∧
    (AnswersDone (failing 0 (ready 0)) 0 ∧ answerAt (failing 0 (ready 0)) 0 = .fail) ∧
    (AnswersDone (failing 3 (ready 0)) 3 ∧ answerAt (failing 3 (ready 0)) 3 = .fail) :=
  ⟨rfl, rfl, answersDone_ready 4 4 (by decide) _ rfl, answersDone_failing _ _,
    answersDone_failing _ _⟩

theorem witness_SegmentLookupIsCaseInsensitive :
    paramsOk defaultParams = true ∧ segLookup defaultParams 0x41 = some 0x77 ∧
    segLookup defaultParams 0x47 = none ∧ segLookup defaultParams 0x2A = some 0xFF ∧
    segLookup defaultParams 0x5B = none ∧ segLookup defaultParams 0x40 = none := by decide

theorem witness_WriteShiftsOneByte :
    SegUsable (display 27) ∧ AnswersDone (display 27) 27 ∧ 0 ≤ (0 : Word).toInt ∧
    (255 : Word).toInt ≤ 255 ∧ 255 < (256 : Word).toInt ∧ (-1 : Word).toInt < 0 ∧
    (ready 0).status.segcfg = false ∧
    (AnswersDone (failing 0 (display 0)) 0 ∧ answerAt (failing 0 (display 0)) 0 = .fail) ∧
    (AnswersDone (failing 26 (display 0)) 26 ∧ answerAt (failing 26 (display 0)) 26 = .fail) :=
  ⟨display_usable _, answersDone_ready 27 27 (by decide) _ rfl, by decide, by decide, by decide,
    by decide, rfl, answersDone_failing _ _, answersDone_failing _ _⟩

theorem witness_ShiftOutEmits27Events : AnswersDone (display 27) 27 :=
  answersDone_ready 27 27 (by decide) _ rfl

theorem witness_ClearBlanksTheDisplay :
    SegUsable (display 30) ∧ AnswersDone (display 30) 30 ∧
    (AnswersDone (failing 29 (display 0)) 29 ∧ answerAt (failing 29 (display 0)) 29 = .fail) :=
  ⟨display_usable _, answersDone_ready 30 30 (by decide) _ rfl, answersDone_failing _ _⟩

theorem witness_PutcShowsOneCharacter :
    SegUsable (display 27) ∧ AnswersDone (display 27) 27 ∧
    segLookup (display 27).params 0x46 = some 0x71 ∧ segLookup (display 27).params 0x47 = none ∧
    (AnswersDone (failing 26 (display 0)) 26 ∧ answerAt (failing 26 (display 0)) 26 = .fail) ∧
    segLookup (failing 26 (display 0)).params 0x46 = some 0x71 :=
  ⟨display_usable _, answersDone_ready 27 27 (by decide) _ rfl, by decide, by decide,
    answersDone_failing _ _, by decide⟩

theorem witness_PutsShowsEachCharacter :
    SegUsable (display 27) ∧ Patterns (display 27).params [0x31] [0x06] ∧
    Patterns (display 27).params [] [] ∧ AnswersDone (display 27) (27 * [(0x31 : Byte)].length) ∧
    segLookup (display 27).params 0x78 = none :=
  ⟨display_usable _, ⟨by decide, trivial⟩, trivial, answersDone_ready 27 27 (by decide) _ rfl,
    by decide⟩

theorem witness_PutsStopsAtAFailedEvent :
    SegUsable (failing 53 (display 0)) ∧
    Patterns (failing 53 (display 0)).params [0x31, 0x46] [0x06, 0x71] ∧
    53 < 27 * [(0x31 : Byte), 0x46].length ∧
    (AnswersDone (failing 53 (display 0)) 53 ∧ answerAt (failing 53 (display 0)) 53 = .fail) ∧
    (AnswersDone (failing 27 (display 0)) 27 ∧ answerAt (failing 27 (display 0)) 27 = .fail) ∧
    54 = 28 * (53 / 27) + 53 % 27 ∧ 28 = 28 * (27 / 27) + 27 % 27 :=
  ⟨⟨rfl, rfl⟩, ⟨by decide, by decide, trivial⟩, by decide, answersDone_failing _ _,
    answersDone_failing _ _, by decide, by decide⟩

theorem witness_BlinkDurationsAddUp :
    BlinkLegal 0x7FFFFFFF 65536 0x7FFFFFFF ∧ BlinkLegal 0 0 0 :=
  ⟨⟨by decide, by decide, by decide, by decide⟩, ⟨by decide, by decide, by decide, by decide⟩⟩

theorem witness_EndOfCycleTest :
    (∃ s : State, s.blMode = .count ∧ 0 < s.blCnt.toNat ∧ s.blCnt.toNat = 1) ∧
    ∃ s : State, s.blMode = .elapsed :=
  ⟨⟨{ display 0 with blCnt := 1 }, rfl, by decide, by decide⟩, ⟨endless, rfl⟩⟩

theorem witness_BlinkcRunsExactlyItsCycles :
    SegUsable (display 57) ∧ BlinkLegal 100 32768 1 ∧ BlinkLegal 100 32768 0 ∧
    segLookup (display 57).params 0x38 = some 0x7F ∧ 0 < (1 : Word).toNat ∧
    AnswersDone (display 57) (57 * (1 : Word).toNat) :=
  ⟨display_usable _, ⟨by decide, by decide, by decide, by decide⟩,
    ⟨by decide, by decide, by decide, by decide⟩, by decide, by decide,
    answersDone_ready 57 57 (by decide) _ rfl⟩

theorem witness_BlinkRunsUntilElapsed :
    SegUsable (display 171) ∧ BlinkLegal 100 65536 250 ∧ BlinkLegal 0 0 0 ∧
    segLookup (display 171).params 0x38 = some 0x7F ∧
    100 = (100 : Word).toNat + 57 * (display 171).params.tPin ∧
    (250 : Word).toNat + 100 < 2 ^ 64 ∧ 3 = max 1 (((250 : Word).toNat + (100 - 1)) / 100) ∧
    1 = max 1 (((0 : Word).toNat + (0 - 1)) / 0) ∧ AnswersDone (display 171) (57 * 3) :=
  ⟨display_usable _, ⟨by decide, by decide, by decide, by decide⟩,
    ⟨by decide, by decide, by decide, by decide⟩, by decide, by decide, by decide, by decide,
    by decide, answersDone_ready 171 171 (by decide) _ rfl⟩

theorem witness_ZeroPeriodBlinkNeverEnds :
    SegUsable (display 114) ∧ BlinkLegal 0 65536 1 ∧
    segLookup (display 114).params 0x38 = some 0x7F ∧
    (0 : Word).toNat + 57 * (display 114).params.tPin = 0 ∧ 0 < (1 : Word).toNat ∧
    (∀ n, HostInput.reset n ∉ (display 114).inputs) ∧ AnswersDone (display 114) (57 * (1 + 1)) :=
  ⟨display_usable _, ⟨by decide, by decide, by decide, by decide⟩, by decide, by decide, by decide,
    by simp [display, ready, State.reset], answersDone_ready 114 114 (by decide) _ rfl⟩

theorem witness_UnknownBlinkCharacter :
    SegUsable (display 0) ∧ BlinkLegal 100 32768 1 ∧ BlinkLegal 100 32768 0 ∧
    segLookup (display 0).params 0x78 = none ∧ (1 : Word) ≠ 0 :=
  ⟨display_usable _, ⟨by decide, by decide, by decide, by decide⟩,
    ⟨by decide, by decide, by decide, by decide⟩, by decide, by decide⟩

theorem witness_BlinkStopsAtAFailedEvent :
    SegUsable (failing 26 (display 0)) ∧ BlinkLegal 100 32768 1 ∧
    segLookup (failing 26 (display 0)).params 0x38 = some 0x7F ∧
    (AnswersDone (failing 26 (display 0)) 26 ∧ answerAt (failing 26 (display 0)) 26 = .fail) ∧
    (AnswersDone (failing 56 (display 0)) 56 ∧ answerAt (failing 56 (display 0)) 56 = .fail) ∧
    26 = (if 26 < 27 then 26 else 26 + 1) ∧ 57 = (if 56 < 27 then 56 else 56 + 1) ∧
    0 < (1 : Word).toNat :=
  ⟨⟨rfl, rfl⟩, ⟨by decide, by decide, by decide, by decide⟩, by decide, answersDone_failing _ _,
    answersDone_failing _ _, by decide, by decide, by decide⟩

theorem witness_WaitsMergeInTheObservation :
    sameTrace [⟨.wait 2, .done⟩, ⟨.byte 1, .done⟩, ⟨.wait 0, .done⟩]
      [⟨.wait 1, .done⟩, ⟨.wait 1, .done⟩, ⟨.byte 1, .done⟩] = true ∧
    sameTrace [⟨.wait 2, .done⟩] [⟨.wait 1, .done⟩] = false := by decide

theorem witness_AssembledCommandsAreWellFormed :
    ∃ i, assembleLine defaultParams "blinkc '8', 0.1s, 0.5d, 3".toList = .command i :=
  ⟨_, test_assembler.2.2⟩

end Sys2Proof.Tests
end

section
/-! SUPPORT. The observation of a trace (00_scope.md R8): how `consWait` and `normalizeTrace` behave, and the
obligation about them. -/

namespace Sys2Proof.Machine

/-! ## Waits and answered events -/

@[simp] theorem answered_wait (d : Nat) : (Event.wait d).answered = false := rfl

/-- The case split of `normalizeTrace`: a wait is merged into what follows, any other event stays. -/
theorem wait_or_answered (e : TraceEntry) : (∃ d a, e = ⟨.wait d, a⟩) ∨ e.event.answered = true := by
  obtain ⟨event, answer⟩ := e
  cases event with
  | wait d => exact .inl ⟨d, answer, rfl⟩
  | _ => exact .inr rfl

/-! ## consWait -/

@[simp] theorem consWait_zero (t : List TraceEntry) : consWait 0 t = t := rfl

theorem consWait_wait {d : Nat} (hd : d ≠ 0) (k : Nat) (a : Answer) (rest : List TraceEntry) :
    consWait d (⟨.wait k, a⟩ :: rest) = ⟨.wait (d + k), .done⟩ :: rest := by
  simp [consWait, hd]

/-- In front of a trace that does not begin with a wait, a wait that takes time stays an entry of its own. -/
theorem consWait_of_not_wait {d : Nat} (hd : d ≠ 0) {t : List TraceEntry}
    (ht : ∀ k a rest, t ≠ ⟨.wait k, a⟩ :: rest) : consWait d t = ⟨.wait d, .done⟩ :: t := by
  unfold consWait
  rw [if_neg hd]
  split
  next k a rest => exact absurd rfl (ht k a rest)
  next => rfl

/-- The case split of `consWait`, for a wait that takes time. -/
theorem begins_with_wait_or_not (t : List TraceEntry) :
    (∃ k a rest, t = ⟨.wait k, a⟩ :: rest) ∨ ∀ k a rest, t ≠ ⟨.wait k, a⟩ :: rest := by
  by_cases h : ∃ k a rest, t = ⟨.wait k, a⟩ :: rest
  · exact .inl h
  · exact .inr fun k a rest ht => h ⟨k, a, rest, ht⟩

/-- One wait in front of another is the wait of their sum. -/
theorem consWait_consWait (m n : Nat) (t : List TraceEntry) :
    consWait m (consWait n t) = consWait (m + n) t := by
  by_cases hm : m = 0
  · simp [hm]
  by_cases hn : n = 0
  · simp [hn]
  have hmn : m + n ≠ 0 := by omega
  obtain ⟨k, a, rest, rfl⟩ | ht := begins_with_wait_or_not t
  · rw [consWait_wait hn, consWait_wait hm, consWait_wait hmn, Nat.add_assoc]
  · rw [consWait_of_not_wait hn ht, consWait_wait hm, consWait_of_not_wait hmn ht]

/-- Merging waits neither adds nor drops an answered event. -/
@[simp] theorem filter_answered_consWait (d : Nat) (t : List TraceEntry) :
    (consWait d t).filter (fun e => e.event.answered) = t.filter (fun e => e.event.answered) := by
  by_cases hd : d = 0
  · simp [hd]
  obtain ⟨k, a, rest, rfl⟩ | ht := begins_with_wait_or_not t
  · simp [consWait_wait hd]
  · simp [consWait_of_not_wait hd ht]

/-! ## normalizeTrace -/

@[simp] theorem normalizeTrace_cons_wait (d : Nat) (a : Answer) (t : List TraceEntry) :
    normalizeTrace (⟨.wait d, a⟩ :: t) = consWait d (normalizeTrace t) := rfl

theorem normalizeTrace_cons_of_answered {e : TraceEntry} (he : e.event.answered = true)
    (t : List TraceEntry) : normalizeTrace (e :: t) = e :: normalizeTrace t := by
  obtain ⟨event, answer⟩ := e
  cases event with
  | wait d => simp at he
  | _ => rfl

/-- The normal form of a trace depends on its end only through the normal form of that end. -/
theorem normalizeTrace_append_congr (a : List TraceEntry) {t u : List TraceEntry}
    (h : normalizeTrace t = normalizeTrace u) : normalizeTrace (a ++ t) = normalizeTrace (a ++ u) := by
  induction a with
  | nil => exact h
  | cons e a ih =>
    obtain ⟨d, ans, rfl⟩ | he := wait_or_answered e
    · simp [ih]
    · simp [normalizeTrace_cons_of_answered he, ih]

/-- Normalizing keeps the answered events and their order. -/
@[simp] theorem filter_answered_normalizeTrace (t : List TraceEntry) :
    (normalizeTrace t).filter (fun e => e.event.answered) = t.filter (fun e => e.event.answered) := by
  induction t with
  | nil => rfl
  | cons e t ih =>
    obtain ⟨d, ans, rfl⟩ | he := wait_or_answered e
    · simp [ih]
    · simp [normalizeTrace_cons_of_answered he, he, ih]

/-! ## sameTrace -/

theorem sameTrace_iff (t u : List TraceEntry) :
    sameTrace t u = true ↔ normalizeTrace t = normalizeTrace u := by
  simp [sameTrace]

theorem sameTrace_append_left (a : List TraceEntry) {t u : List TraceEntry}
    (h : normalizeTrace t = normalizeTrace u) : sameTrace (a ++ t) (a ++ u) = true :=
  (sameTrace_iff _ _).2 (normalizeTrace_append_congr a h)

theorem filter_answered_eq_of_sameTrace {t u : List TraceEntry} (h : sameTrace t u = true) :
    t.filter (fun e => e.event.answered) = u.filter (fun e => e.event.answered) := by
  rw [← filter_answered_normalizeTrace t, (sameTrace_iff t u).1 h, filter_answered_normalizeTrace]

/-- Settles O57: `Wait(0)` leaves the normal form alone, a split wait merges again (`consWait_consWait`), and
normalizing keeps the answered events. -/
theorem waitsMergeInTheObservation : Obligations.WaitsMergeInTheObservation := by
  refine ⟨fun a b => ?_, fun a b m n => ?_, fun _ _ => filter_answered_eq_of_sameTrace⟩
  · rw [List.append_assoc]
    exact sameTrace_append_left a (by simp)
  · rw [List.append_assoc, List.append_assoc]
    exact sameTrace_append_left a (by simp [consWait_consWait])

end Sys2Proof.Machine
end

section
/-! SUPPORT. Which line registers a list of events leaves alone, and the two bodies that write behind their
events. -/

namespace Sys2Proof.Machine

open Sys2Proof.Claims

/-! ## The lines that events spare -/

/-- The level register of a line. -/
def level (l : Line) (s : State) : Bool :=
  match l with
  | .data => s.pinData
  | .clock => s.pinClock
  | .latch => s.pinLatch
  | .clear => s.pinClear

/-- No event of the list is on the line. -/
def Spares (l : Line) (evs : List Event) : Prop :=
  ∀ e ∈ evs, e ≠ .pinDir l ∧ ∀ b, e ≠ .pin l b

theorem level_doneEvents (l : Line) (evs : List Event) (s : State) :
    level l (doneEvents evs s) = levelAfter l evs (level l s) := by
  cases l with
  | data => exact doneEvents_pinData evs s
  | clock => exact doneEvents_pinClock evs s
  | latch => exact doneEvents_pinLatch evs s
  | clear => exact doneEvents_pinClear evs s

theorem levelAfter_of_spares {l : Line} {evs : List Event} (h : Spares l evs) (b : Bool) :
    levelAfter l evs b = b := by
  induction evs with
  | nil => rfl
  | cons e rest ih =>
    have he : levelStep l b e = b := by
      obtain ⟨hdir, hpin⟩ := h e List.mem_cons_self
      cases e with
      | pinDir k => exact if_neg fun hk => hdir (by rw [hk])
      | pin k v => exact if_neg fun hk => hpin v (by rw [hk])
      | _ => rfl
    show levelAfter l rest (levelStep l b e) = b
    rw [he]
    exact ih (fun x hx => h x (List.mem_cons_of_mem _ hx))

theorem level_setLevel_of_ne {l k : Line} (h : k ≠ l) (b : Bool) (s : State) :
    level l (setLevel k b s) = level l s := by
  cases l <;> simp [level, h]

theorem level_failedEvent {l : Line} {e : Event} (h : e ≠ .pinDir l ∧ ∀ b, e ≠ .pin l b) (s : State) :
    level l (failedEvent e s) = level l s := by
  obtain ⟨hdir, hpin⟩ := h
  cases e with
  | pinDir k =>
    rw [failedEvent, spoilEvent, level_setLevel_of_ne (fun hk => hdir (by rw [hk]))]
    cases l <;> rfl
  | pin k v =>
    rw [failedEvent, spoilEvent, level_setLevel_of_ne (fun hk => hpin v (by rw [hk]))]
    cases l <;> rfl
  | _ => cases l <;> rfl

/-- Events that spare a line leave its level, whichever of them fails. -/
theorem level_emitAll {l : Line} {evs : List Event} (h : Spares l evs) (s : State) :
    level l (emitAll evs s).state = level l s := by
  rcases emitAll_cases evs s with ⟨-, hr⟩ | ⟨pre, e, post, rfl, -, -, -, hr⟩ <;> rw [hr, Result.state]
  · rw [level_doneEvents, levelAfter_of_spares h]
  · rw [level_failedEvent (h e (by simp)), level_doneEvents,
      levelAfter_of_spares (fun x hx => h x (List.mem_append_left _ hx))]

/-- Events that spare every line leave the line registers. -/
theorem sameLines_emitAll {evs : List Event} (h : ∀ l, Spares l evs) (s : State) :
    SameLines s (emitAll evs s).state :=
  ⟨level_emitAll (h .data) s, level_emitAll (h .clock) s, level_emitAll (h .latch) s,
    level_emitAll (h .clear) s, (segKeeps_emitAll evs s (fun e he l => (h l e he).1)).1.pinOe⟩

/-- Events leave the stores and the blink registers alone, whichever they are; that `PIN_OE` is kept needs
more (`segKeeps_emitAll`). -/
theorem keeps_emitAll (evs : List Event) (s : State) :
    SegKeeps s { (emitAll evs s).state with pinOe := s.pinOe } ∧ BlinkKeeps s (emitAll evs s).state := by
  rcases emitAll_cases evs s with ⟨-, hr⟩ | ⟨pre, e, post, -, -, -, -, hr⟩ <;> rw [hr] <;>
    refine ⟨⟨?_, ?_, ?_, ?_, ?_, ?_, ?_, ?_⟩, ⟨?_, ?_, ?_, ?_, ?_, ?_, ?_, ?_⟩⟩ <;>
    simp [Result.state]

/-! ## The bodies that write behind their events -/

theorem spares_busEvents (p : Params) (l : Line) : Spares l (busEvents p) := by
  simp [Spares, busEvents]

/-- `CONFIGURE` builds the strip behind its three events, which are on no line, or stops at the one that
fails. -/
theorem configureBody_cases (n : Nat) (s : State) :
    ∃ u, SegKeeps s u ∧ BlinkKeeps s u ∧ SameLines s u ∧
      (configureBody n s = .ok (buildStrip n u) ∨ configureBody n s = .raised .hardwareIO u) := by
  have hspare := spares_busEvents s.params
  obtain ⟨hseg, hblink⟩ := segKeeps_emitAll (busEvents s.params) s (fun e he l => (hspare l e he).1)
  have hlines := sameLines_emitAll hspare s
  unfold configureBody
  rcases emitAll_cases (busEvents s.params) s with ⟨-, hr⟩ | ⟨_, _, _, -, -, -, -, hr⟩ <;>
    rw [hr] at hseg hblink hlines ⊢
  · exact ⟨_, hseg, hblink, hlines, .inl (bind_ok _ _)⟩
  · exact ⟨_, hseg, hblink, hlines, .inr (bind_raised _ _ _)⟩

/-- Every line is an output driven low (10_state.md R20). -/
def DrivenLow (s : State) : Prop := s.pinOe = 0b1111 ∧ ∀ l, level l s = false

theorem drivenLow_dirEvents (s : State) : DrivenLow (doneEvents dirEvents s) := by
  refine ⟨?_, fun l => ?_⟩
  · rw [doneEvents_pinOe]
    exact (by decide : ∀ m : BitVec 4, oeAfter dirEvents m = 0b1111) s.pinOe
  · rw [level_doneEvents]
    cases l <;> rfl

/-- `SEGCFG` writes once its four events have driven the lines low, or stops at the one that fails. -/
theorem segcfgBody_cases (d : Word) (s : State) :
    ∃ u, SegKeeps s { u with pinOe := s.pinOe } ∧ BlinkKeeps s u ∧
      (DrivenLow u ∧ segcfgBody d s =
          .ok { u with defdelay := d, status := { u.status with segcfg := true } } ∨
        segcfgBody d s = .raised .hardwareIO u) := by
  obtain ⟨hseg, hblink⟩ := keeps_emitAll dirEvents s
  unfold segcfgBody
  rcases emitAll_cases dirEvents s with ⟨-, hr⟩ | ⟨_, _, _, -, -, -, -, hr⟩ <;>
    rw [hr] at hseg hblink ⊢
  · have hlow := drivenLow_dirEvents s
    generalize doneEvents dirEvents s = u at hseg hblink hlow ⊢
    exact ⟨u, hseg, hblink, .inl ⟨hlow, rfl⟩⟩
  · exact ⟨_, hseg, hblink, .inr (bind_raised _ _ _)⟩

/-- `SCROLL` writes `HUE` and the records. -/
theorem scrollBody_eq (s : State) :
    commandBody .scroll s = .ok { s with
      hue := nextHue Config.wrapScroll s.hue
      buf := (shiftStrip { s with hue := nextHue Config.wrapScroll s.hue }).buf } := by
  simp only [commandBody, shiftStrip]
  split <;> rfl

end Sys2Proof.Machine
end

section
/-! SUPPORT. The ways a command can end and what it leaves in `STATUS`, once for all thirteen commands, with
the obligation about it. -/

namespace Sys2Proof.Machine

/-! ## The ways a command can end -/

theorem conclude_cases {op : Op} {d : State → BitVec 24} {r : Result} {t : State}
    (h : conclude op d r = .next t) :
    (∃ u, r = .ok u ∧ t = complete op.code (d u) u) ∨
    (∃ e u, r = .raised e u ∧ t = raise op.code e u) ∨
    ∃ u, r = .running u ∧ t = { u with ready := false } := by
  injection h with h
  cases r with
  | ok u => exact .inl ⟨u, rfl, h.symm⟩
  | raised e u => exact .inr (.inl ⟨e, u, rfl, h.symm⟩)
  | running u => exact .inr (.inr ⟨u, rfl, h.symm⟩)

/-- A command is refused by its tests, or its body decides. -/
theorem exec_cases {i : Instr} {s t : State} (h : exec i s = .next t) :
    (∃ e, commandTest i s = some e ∧ t = raise i.op.code e s) ∨
    (commandTest i s = none ∧ conclude i.op (commandData i) (commandBody i s) = .next t) := by
  cases hc : commandTest i s with
  | none => exact .inr ⟨rfl, exec_body hc ▸ h⟩
  | some e =>
    rw [exec_refused hc] at h
    injection h with h
    exact .inl ⟨e, rfl, h.symm⟩

/-- No command's body raises `OK` or a code beside `HardwareIO` and `InvalidArgument`. -/
theorem Result.Ran.code {s u : State} {e : Code} (h : (Result.raised e u).Ran s) :
    e = .hardwareIO ∨ e = .invalidArgument := by
  obtain ⟨-, -, ⟨he, -⟩ | ⟨he, -⟩⟩ := h
  · exact .inl he
  · exact .inr he

/-! ## STATUS -/

/-- The commands whose body leaves the stores alone, `STATUS` among them. -/
theorem segKeeps_commandBody {i : Instr} (s : State)
    (h : i.op ∈ [Op.render, .write, .clear, .putc, .puts, .blinkc, .blink]) :
    SegKeeps s (commandBody i s).state := by
  cases i with
  | render => exact (segKeeps_emitAll _ s (by simp [NoPinDir])).1
  | write v => exact (keeps_shiftOut _ s).1
  | clear => exact (keeps_clearSeq s).1
  | putc c d => exact (keeps_putcSeq _ _ s).1
  | puts df d cs => exact (keeps_putsSeq _ _ s).1
  | blinkc c p q n => exact keeps_blinkcBody c p q n s
  | blink c p q n => exact keeps_startBlink _ s ⟨rfl, rfl, rfl, rfl, rfl, rfl, rfl, rfl⟩
  | _ => simp [Instr.op] at h

/-- `STATUS` as the body of a command leaves it when it goes through: `CONFIGURE` and `SEGCFG` set their bits
(10_state.md R17). -/
def Status.passed (t : Status) (op : Op) : Status :=
  { t with
    ledcfg := t.ledcfg || decide (op = .configure)
    segcfg := t.segcfg || decide (op = .segcfg) }

theorem Status.passed_of_ne {op : Op} (t : Status) (h1 : op ≠ .configure) (h2 : op ≠ .segcfg) :
    t.passed op = t := by
  simp [Status.passed, h1, h2]

/-- What a body's result says of `STATUS`: only a body that goes through writes it. -/
def Result.StatusOf (op : Op) (s : State) : Result → Prop
  | .ok t => t.status = s.status.passed op
  | .raised _ t => t.status = s.status
  | .running t => t.status = s.status

theorem Result.StatusOf.of_same {op : Op} {s : State} {r : Result} (h : r.state.status = s.status)
    (h1 : op ≠ .configure) (h2 : op ≠ .segcfg) : r.StatusOf op s := by
  cases r with
  | ok t => exact h.trans (Status.passed_of_ne _ h1 h2).symm
  | raised e t => exact h
  | running t => exact h

theorem statusOf_commandBody (i : Instr) (s : State) : (commandBody i s).StatusOf i.op s := by
  cases i with
  | configure df n =>
    obtain ⟨u, hk, -, -, h | h⟩ := configureBody_cases (effectiveCount df n).toNat s
    · simp [commandBody, h, Result.StatusOf, Status.passed, buildStrip, Instr.op, hk.status]
    · simp [commandBody, h, Result.StatusOf, hk.status]
  | segcfg d =>
    obtain ⟨u, hk, -, ⟨-, h⟩ | h⟩ := segcfgBody_cases d s
    · have hs : u.status = s.status := hk.status
      simp [commandBody, h, Result.StatusOf, Status.passed, Instr.op, hs]
    · rw [commandBody, h]
      exact hk.status
  | hue2rgb hue => exact .of_same rfl (by simp [Instr.op]) (by simp [Instr.op])
  | set index led => exact .of_same rfl (by simp [Instr.op]) (by simp [Instr.op])
  | advance => exact .of_same rfl (by simp [Instr.op]) (by simp [Instr.op])
  | scroll => exact .of_same (by rw [scrollBody_eq]; rfl) (by simp [Instr.op]) (by simp [Instr.op])
  | _ =>
    exact .of_same (segKeeps_commandBody s (by simp [Instr.op])).status (by simp [Instr.op])
      (by simp [Instr.op])

/-- `STATUS` after a command that ended, by the code it ended with. -/
theorem exec_status {i : Instr} {s t : State} (h : exec i s = .next t) (hr : t.ready = true) :
    (t.status = (s.status.passed i.op).ended i.op.code .ok) ∨
    ∃ e, e ≠ .ok ∧ t.status = s.status.ended i.op.code e := by
  rcases exec_cases h with ⟨e, he, rfl⟩ | ⟨-, h⟩
  · refine .inr ⟨e, ?_, rfl⟩
    rcases commandTest_some he with ⟨rfl, -⟩ | ⟨-, rfl | rfl⟩ <;> decide
  · have hs := statusOf_commandBody i s
    have hran := ran_commandBody i s
    rcases conclude_cases h with ⟨u, hu, rfl⟩ | ⟨e, u, hu, rfl⟩ | ⟨u, hu, rfl⟩ <;>
      rw [hu] at hs hran
    · exact .inl (congrArg (Status.ended · i.op.code .ok) hs)
    · refine .inr ⟨e, ?_, congrArg (Status.ended · i.op.code e) hs⟩
      rcases hran.code with rfl | rfl <;> decide
    · cases hr

theorem word_reserved (t : Status) : t.word.extractLsb' 6 2 = 0 := by
  apply BitVec.eq_of_getLsbD_eq
  intro k hk
  have h1 : ¬ 6 + k < 3 := by omega
  have h2 : ¬ 6 + k - 3 < 1 := by omega
  have h3 : ¬ 6 + k - 3 - 1 < 1 := by omega
  have h4 : ¬ 6 + k - 3 - 1 - 1 < 1 := by omega
  have h5 : 6 + k - 3 - 1 - 1 - 1 < 2 := by omega
  simp only [Status.word, BitVec.getLsbD_extractLsb', BitVec.getLsbD_append]
  simp [h1, h2, h3, h4, h5]

theorem word_lastop (t : Status) : t.word.extractLsb' 8 8 = t.lastop := by
  apply BitVec.eq_of_getLsbD_eq
  intro k hk
  have h1 : ¬ 8 + k < 3 := by omega
  have h2 : ¬ 8 + k - 3 < 1 := by omega
  have h3 : ¬ 8 + k - 3 - 1 < 1 := by omega
  have h4 : ¬ 8 + k - 3 - 1 - 1 < 1 := by omega
  have h5 : ¬ 8 + k - 3 - 1 - 1 - 1 < 2 := by omega
  have h6 : 8 + k - 3 - 1 - 1 - 1 - 2 = k := by omega
  simp only [Status.word, BitVec.getLsbD_extractLsb', BitVec.getLsbD_append]
  simp [hk, h1, h2, h3, h4, h5, h6]

theorem word_code (t : Status) : t.word.extractLsb' 0 3 = t.code.bits := by
  apply BitVec.eq_of_getLsbD_eq
  intro k hk
  simp only [Status.word, BitVec.getLsbD_extractLsb', BitVec.getLsbD_append]
  simp [hk]

/-- Settles O22: the two ways `STATUS` is written (`exec_status`), and the fields of its word. -/
theorem statusAfterACommand : Obligations.StatusAfterACommand := by
  intro i s t h hr
  rw [word_reserved, word_lastop, word_code]
  rcases exec_status h hr with hs | ⟨e, he, hs⟩
  · simp [hs, Status.passed]
  · simp [hs, he, beq_eq_decide]

end Sys2Proof.Machine
end

section
/-! SUPPORT. The frame of every command: which registers its body may write, group by group, and the
obligation about it. -/

namespace Sys2Proof.Machine

open Sys2Proof.Claims

/-! ## The lines and the blink registers -/

theorem spares_bytes (bytes : List Byte) (l : Line) : Spares l (bytes.map Event.byte) := by
  simp [Spares]

theorem spares_clear_shiftEvents (v : Byte) : Spares .clear (shiftEvents v) := by
  simp [Spares, shiftEvents, bitEvents, latchEvents]

theorem pinClear_putcSeq (c : Byte) (d : Nat) (s : State) :
    (putcSeq c d s).state.pinClear = s.pinClear := by
  cases hc : segLookup s.params c with
  | none => rw [putcSeq_unknown d hc]; rfl
  | some p =>
    rw [putcSeq_eq d hc]
    refine level_emitAll (l := .clear) (fun e he => ?_) s
    rcases List.mem_append.1 he with he | he
    · exact spares_clear_shiftEvents p e he
    · simp [List.mem_singleton.1 he]

theorem pinClear_putsSeq (d : Nat) (cs : List Byte) (s : State) :
    (putsSeq d cs s).state.pinClear = s.pinClear := by
  induction cs generalizing s with
  | nil => rfl
  | cons c rest ih =>
    exact keeps_bind (K := fun a b => b.pinClear = a.pinClear) (fun h g => g.trans h)
      (pinClear_putcSeq c d s) ih

/-- `WRITE`, `PUTC` and `PUTS` leave `CLEAR`. -/
theorem pinClear_commandBody {i : Instr} (s : State) (h : i.op ∈ [Op.write, .putc, .puts]) :
    (commandBody i s).state.pinClear = s.pinClear := by
  cases i with
  | write v => exact level_emitAll (spares_clear_shiftEvents _) s
  | putc c d => exact pinClear_putcSeq _ _ s
  | puts df d cs => exact pinClear_putsSeq _ _ s
  | _ => simp [Instr.op] at h

/-- The colour wheel and the LED unit leave the lines. -/
theorem sameLines_commandBody {i : Instr} (s : State)
    (h : i.op ∈ [Op.hue2rgb, .configure, .set, .advance, .scroll, .render]) :
    SameLines s (commandBody i s).state := by
  cases i with
  | hue2rgb hue => exact ⟨rfl, rfl, rfl, rfl, rfl⟩
  | configure df n =>
    obtain ⟨u, -, -, hl, hb | hb⟩ := configureBody_cases (effectiveCount df n).toNat s <;>
      rw [commandBody, hb] <;> exact hl
  | set index led => exact ⟨rfl, rfl, rfl, rfl, rfl⟩
  | advance => exact ⟨rfl, rfl, rfl, rfl, rfl⟩
  | scroll => rw [scrollBody_eq]; exact ⟨rfl, rfl, rfl, rfl, rfl⟩
  | render => exact sameLines_emitAll (spares_bytes _) s
  | _ => simp [Instr.op] at h

/-- `SEGCFG` alone configures lines. -/
theorem pinOe_commandBody {i : Instr} (s : State) (h : i.op ≠ .segcfg) :
    (commandBody i s).state.pinOe = s.pinOe := by
  by_cases hseg : i.op ∈ [Op.render, .write, .clear, .putc, .puts, .blinkc, .blink]
  · exact (segKeeps_commandBody s hseg).pinOe
  · have hled : i.op ∈ [Op.hue2rgb, .configure, .set, .advance, .scroll, .render] := by
      cases i <;> simp_all [Instr.op]
    obtain ⟨-, -, -, -, hoe⟩ := sameLines_commandBody s hled
    exact hoe

/-- Every command but the blinks leaves the blink registers. -/
theorem blinkKeeps_commandBody {i : Instr} (s : State) (h : i.op ∉ [Op.blinkc, .blink]) :
    BlinkKeeps s (commandBody i s).state := by
  cases i with
  | hue2rgb hue => exact ⟨rfl, rfl, rfl, rfl, rfl, rfl, rfl, rfl⟩
  | configure df n =>
    obtain ⟨u, -, hk, -, hb | hb⟩ := configureBody_cases (effectiveCount df n).toNat s <;>
      rw [commandBody, hb]
    · exact hk.trans ⟨rfl, rfl, rfl, rfl, rfl, rfl, rfl, rfl⟩
    · exact hk
  | set index led => exact ⟨rfl, rfl, rfl, rfl, rfl, rfl, rfl, rfl⟩
  | advance => exact ⟨rfl, rfl, rfl, rfl, rfl, rfl, rfl, rfl⟩
  | scroll => rw [scrollBody_eq]; exact ⟨rfl, rfl, rfl, rfl, rfl, rfl, rfl, rfl⟩
  | render => exact (keeps_emitAll _ s).2
  | segcfg d =>
    obtain ⟨u, -, hk, ⟨-, hb⟩ | hb⟩ := segcfgBody_cases d s <;> rw [commandBody, hb]
    · exact hk.trans ⟨rfl, rfl, rfl, rfl, rfl, rfl, rfl, rfl⟩
    · exact hk
  | write v => exact (keeps_shiftOut _ s).2
  | clear => exact (keeps_clearSeq s).2
  | putc c d => exact (keeps_putcSeq _ _ s).2
  | puts df d cs => exact (keeps_putsSeq _ _ s).2
  | blinkc c p q n => simp [Instr.op] at h
  | blink c p q n => simp [Instr.op] at h

/-! ## The stores -/

/-- What a command may write of the stores (10_state.md R12 to R19, 20_memory.md R41). -/
structure StoreFrame (op : Op) (s t : State) : Prop where
  hue : op ∉ [Op.configure, .advance, .scroll] → t.hue = s.hue
  ledcnt : op ≠ .configure → t.ledcnt = s.ledcnt
  buf : op ∉ [Op.configure, .set, .advance, .scroll] → t.buf = s.buf
  res : op ≠ .hue2rgb → t.res = s.res
  defdelay : op ≠ .segcfg → t.defdelay = s.defdelay

theorem SegKeeps.storeFrame {op : Op} {s t : State} {oe : BitVec 4}
    (h : SegKeeps s { t with pinOe := oe }) : StoreFrame op s t :=
  ⟨fun _ => h.hue, fun _ => h.ledcnt, fun _ => h.buf, fun _ => h.res, fun _ => h.defdelay⟩

theorem storeFrame_commandBody (i : Instr) (s : State) : StoreFrame i.op s (commandBody i s).state := by
  cases i with
  | hue2rgb hue => exact ⟨fun _ => rfl, fun _ => rfl, fun _ => rfl, fun h => absurd rfl h, fun _ => rfl⟩
  | configure df n =>
    obtain ⟨u, hk, -, -, hb | hb⟩ := configureBody_cases (effectiveCount df n).toNat s <;>
      rw [commandBody, hb]
    · exact ⟨fun h => absurd List.mem_cons_self h, fun h => absurd rfl h,
        fun h => absurd List.mem_cons_self h, fun _ => hk.res, fun _ => hk.defdelay⟩
    · exact hk.storeFrame
  | set index led =>
    exact ⟨fun _ => rfl, fun _ => rfl, fun h => absurd (by simp [Instr.op]) h, fun _ => rfl, fun _ => rfl⟩
  | advance =>
    exact ⟨fun h => absurd (by simp [Instr.op]) h, fun _ => rfl, fun h => absurd (by simp [Instr.op]) h,
      fun _ => rfl, fun _ => rfl⟩
  | scroll =>
    rw [scrollBody_eq]
    exact ⟨fun h => absurd (by simp [Instr.op]) h, fun _ => rfl, fun h => absurd (by simp [Instr.op]) h,
      fun _ => rfl, fun _ => rfl⟩
  | segcfg d =>
    obtain ⟨u, hk, -, ⟨-, hb⟩ | hb⟩ := segcfgBody_cases d s <;> rw [commandBody, hb]
    · exact ⟨fun _ => hk.hue, fun _ => hk.ledcnt, fun _ => hk.buf, fun _ => hk.res,
        fun h => absurd rfl h⟩
    · exact hk.storeFrame
  | _ => exact (segKeeps_commandBody s (by simp [Instr.op])).storeFrame

/-- `SET` writes the record its index names and no other. -/
theorem read_setBody_other (index led : Word) (s : State) {j : Nat} (hj : j ≠ index.toInt.toNat) :
    Buffer.read (commandBody (.set index led) s).state.buf j = Buffer.read s.buf j :=
  read_write_other s.buf _ hj

/-- `ADVANCE` and `SCROLL` write no record at or above `LEDCNT`. -/
theorem read_commandBody_unused {i : Instr} (s : State) (h : i.op ∈ [Op.advance, .scroll]) {j : Nat}
    (hj : s.ledcnt ≤ j) : Buffer.read (commandBody i s).state.buf j = Buffer.read s.buf j := by
  cases i with
  | advance => exact (fillStrip_read _ j).trans (if_neg (Nat.not_lt.2 hj))
  | scroll => exact (shiftStrip_read _ j).trans (if_neg (Nat.not_lt.2 hj))
  | _ => simp [Instr.op] at h

/-- The commands without events leave the trace and `TIME`. -/
theorem noEvents_commandBody {i : Instr} (s : State)
    (h : i.op ∈ [Op.hue2rgb, .set, .advance, .scroll]) :
    (commandBody i s).state.trace = s.trace ∧ (commandBody i s).state.time = s.time := by
  cases i with
  | hue2rgb hue => exact ⟨rfl, rfl⟩
  | set index led => exact ⟨rfl, rfl⟩
  | advance => exact ⟨rfl, rfl⟩
  | scroll => rw [scrollBody_eq]; exact ⟨rfl, rfl⟩
  | _ => simp [Instr.op] at h

/-- `RES` and `DEFDELAY` are written by a body that goes through, or not at all. -/
theorem keeps_res_defdelay_of_not_ok {i : Instr} {s : State} (h : ∀ u, commandBody i s ≠ .ok u) :
    (commandBody i s).state.res = s.res ∧ (commandBody i s).state.defdelay = s.defdelay := by
  have hframe := storeFrame_commandBody i s
  cases i with
  | hue2rgb hue => exact absurd rfl (h _)
  | segcfg d =>
    obtain ⟨v, hk, -, ⟨-, hb⟩ | hb⟩ := segcfgBody_cases d s
    · exact absurd hb (h _)
    · exact ⟨hframe.res (by simp [Instr.op]), by rw [commandBody, hb]; exact hk.defdelay⟩
  | _ => exact ⟨hframe.res (by simp [Instr.op]), hframe.defdelay (by simp [Instr.op])⟩

/-! ## The frame of a command -/

theorem Result.Ran.environment {s : State} {r : Result} (h : r.Ran s) :
    r.state.params = s.params ∧ r.state.past = s.past ∧ r.state.inputs = s.inputs := by
  cases r with
  | ok t => obtain ⟨_, hr, -⟩ := h; exact ⟨hr.params, hr.past, hr.inputs⟩
  | raised e t => obtain ⟨_, hr, -⟩ := h; exact ⟨hr.params, hr.past, hr.inputs⟩
  | running t => obtain ⟨_, hr, -⟩ := h; exact ⟨hr.params, hr.past, hr.inputs⟩

/-- Everything the frame of a command says, but for what the code it ends with decides. -/
structure Frame (i : Instr) (s t : State) : Prop where
  stores : StoreFrame i.op s t
  setOther : ∀ index led, i = .set index led → ∀ j, j ≠ index.toInt.toNat →
    Buffer.read t.buf j = Buffer.read s.buf j
  unused : i.op ∈ [Op.advance, .scroll] → ∀ j, s.ledcnt ≤ j →
    Buffer.read t.buf j = Buffer.read s.buf j
  lines : i.op ∈ [Op.hue2rgb, .configure, .set, .advance, .scroll, .render] → SameLines s t
  pinOe : i.op ≠ .segcfg → t.pinOe = s.pinOe
  pinClear : i.op ∈ [Op.write, .putc, .puts] → t.pinClear = s.pinClear
  blink : i.op ∉ [Op.blinkc, .blink] → SameBlink s t
  noEvents : i.op ∈ [Op.hue2rgb, .set, .advance, .scroll] → t.trace = s.trace ∧ t.time = s.time
  environment : t.params = s.params ∧ t.past = s.past ∧ t.inputs = s.inputs

theorem BlinkKeeps.sameBlink {s t : State} (h : BlinkKeeps s t) : SameBlink s t :=
  ⟨h.mode, h.char, h.lit, h.dark, h.count, h.start, h.elapse⟩

theorem frame_commandBody (i : Instr) (s : State) : Frame i s (commandBody i s).state where
  stores := storeFrame_commandBody i s
  setOther := by
    rintro index led rfl j hj
    exact read_setBody_other index led s hj
  unused := fun h _ hj => read_commandBody_unused s h hj
  lines := sameLines_commandBody s
  pinOe := pinOe_commandBody s
  pinClear := pinClear_commandBody s
  blink := fun h => (blinkKeeps_commandBody s h).sameBlink
  noEvents := noEvents_commandBody s
  environment := (ran_commandBody i s).environment

/-- The end of a command writes nothing the frame speaks of. -/
theorem Frame.congr {i : Instr} {s u t : State} (h : Frame i s u)
    (ht : t = { u with
      ready := t.ready, status := t.status, responses := t.responses, blState := t.blState }) :
    Frame i s t := by
  rw [ht]
  exact ⟨⟨h.stores.hue, h.stores.ledcnt, h.stores.buf, h.stores.res, h.stores.defdelay⟩, h.setOther,
    h.unused, h.lines, h.pinOe, h.pinClear, h.blink, h.noEvents, h.environment⟩

/-- A refused command changes nothing the frame speaks of. -/
theorem frame_raise (i : Instr) (e : Code) (s : State) : Frame i s (raise i.op.code e s) :=
  ⟨⟨fun _ => rfl, fun _ => rfl, fun _ => rfl, fun _ => rfl, fun _ => rfl⟩, fun _ _ _ _ _ => rfl,
    fun _ _ _ => rfl, fun _ => ⟨rfl, rfl, rfl, rfl, rfl⟩, fun _ => rfl, fun _ => rfl,
    fun _ => ⟨rfl, rfl, rfl, rfl, rfl, rfl, rfl⟩, fun _ => ⟨rfl, rfl⟩, rfl, rfl, rfl⟩

theorem conclude_writes {op : Op} {d : State → BitVec 24} {r : Result} {t : State}
    (h : conclude op d r = .next t) :
    t = { r.state with
      ready := t.ready, status := t.status, responses := t.responses, blState := t.blState } := by
  rcases conclude_cases h with ⟨u, rfl, rfl⟩ | ⟨e, u, rfl, rfl⟩ | ⟨u, rfl, rfl⟩ <;> rfl

theorem frame_exec {i : Instr} {s t : State} (h : exec i s = .next t) : Frame i s t := by
  rcases exec_cases h with ⟨e, -, rfl⟩ | ⟨-, h⟩
  · exact frame_raise i e s
  · exact (frame_commandBody i s).congr (conclude_writes h)

/-- Without an `OK` in `STATUS.CODE` the command has left `RES` and `DEFDELAY`. -/
theorem exec_keeps_res_defdelay {i : Instr} {s t : State} (h : exec i s = .next t)
    (hok : t.status.code ≠ .ok) : t.res = s.res ∧ t.defdelay = s.defdelay := by
  rcases exec_cases h with ⟨e, -, rfl⟩ | ⟨-, h⟩
  · exact ⟨rfl, rfl⟩
  · rw [conclude_writes h]
    refine keeps_res_defdelay_of_not_ok (fun u hu => hok ?_)
    rw [hu] at h
    injection h with h
    rw [← h]
    rfl

/-- Settles O27: the frame of the body (`frame_commandBody`), which the end of the command keeps, and the two
registers that only an `OK` writes. -/
theorem frameOfEveryCommand : Obligations.FrameOfEveryCommand := by
  intro i s t h
  have hf := frame_exec h
  refine ⟨hf.stores.hue, hf.stores.ledcnt, hf.stores.buf, hf.setOther, hf.unused, fun hn => ?_,
    fun hn => ?_, hf.lines, hf.pinOe, hf.pinClear, hf.blink, hf.noEvents, hf.environment⟩
  · by_cases hop : i.op = .hue2rgb
    · exact (exec_keeps_res_defdelay h (fun hc => hn ⟨hop, hc⟩)).1
    · exact hf.stores.res hop
  · by_cases hop : i.op = .segcfg
    · exact (exec_keeps_res_defdelay h (fun hc => hn ⟨hop, hc⟩)).2
    · exact hf.stores.defdelay hop

end Sys2Proof.Machine
end

section
/-! SUPPORT. What a step does to the packets at the command port and to the parameters, and the obligations
about them. -/

namespace Sys2Proof.Machine

open Sys2Proof.Claims

/-! ## A packet that runs undisturbed -/

theorem runPacket_of_decode {h : Word} {ws : List Word} {i : Instr} (hd : decode (h :: ws) = .ok i)
    (s : State) : runPacket h ws s = exec i s := by
  unfold runPacket
  rw [hd]

theorem step_packet {s : State} {h : Word} {ws : List Word} {rest : List HostInput}
    (hr : s.ready = true) (hi : s.inputs = .packet h ws :: rest) :
    step s = raceReset (resetBehind rest) (acceptPacket rest s) (runPacket h ws (acceptPacket rest s)) := by
  unfold step
  rw [if_pos hr, hi]

/-- Settles O7: no reset races the command (`resetBehind_eq_none`). -/
theorem stepRunsTheDecodedCommand : Obligations.StepRunsTheDecodedCommand := by
  intro s h ws rest i hr hi hrest hd
  rw [step_packet hr hi, resetBehind_eq_none hrest, raceReset_none, runPacket_of_decode hd]
  rfl

/-! ## The packets among the inputs -/

@[simp] theorem packets_nil : packets [] = [] := rfl
@[simp] theorem packets_cons_packet (h : Word) (ws : List Word) (rest : List HostInput) :
    packets (.packet h ws :: rest) = .packet h ws :: packets rest := rfl
@[simp] theorem packets_cons_idle (d : Nat) (rest : List HostInput) :
    packets (.idle d :: rest) = packets rest := rfl
@[simp] theorem packets_cons_reset (n : Nat) (rest : List HostInput) :
    packets (.reset n :: rest) = packets rest := rfl

/-- Taking the next reset out of the inputs takes no packet. -/
@[simp] theorem packets_dropReset (inputs : List HostInput) :
    packets (dropReset inputs) = packets inputs := by
  induction inputs with
  | nil => rfl
  | cons x rest ih => cases x <;> simp [dropReset, ih]

@[simp] theorem packets_delayReset (m : Nat) (inputs : List HostInput) :
    packets (delayReset m inputs) = packets inputs := by
  induction inputs with
  | nil => rfl
  | cons x rest ih => cases x <;> simp [delayReset, ih]

/-! ## What runs keeps the parameters and the inputs -/

theorem conclude_environment {op : Op} {d : State → BitVec 24} {r : Result} {s t : State} (hr : r.Ran s)
    (h : conclude op d r = .next t) : t.params = s.params ∧ t.inputs = s.inputs := by
  obtain ⟨hp, -, hi⟩ := hr.environment
  rw [conclude_writes h]
  exact ⟨hp, hi⟩

theorem runPacket_environment {h : Word} {ws : List Word} {s t : State}
    (hrun : runPacket h ws s = .next t) : t.params = s.params ∧ t.inputs = s.inputs := by
  unfold runPacket at hrun
  split at hrun
  · obtain ⟨hp, -, hi⟩ := (frame_exec hrun).environment
    exact ⟨hp, hi⟩
  · injection hrun with hrun
    rw [← hrun]
    exact ⟨rfl, rfl⟩

theorem continueBlink_environment {s t : State} (h : continueBlink s = .next t) :
    t.params = s.params ∧ t.inputs = s.inputs := by
  unfold continueBlink at h
  split at h
  · cases h
  · exact conclude_environment (ran_blinkLoop _ s) h
  · exact conclude_environment
      ((ran_blinkDark s).bind (fun u _ => ran_blinkNext _ (ran_blinkLoop _) u)) h

/-- A reset racing what runs takes no packet and changes no parameter. -/
theorem raceReset_environment {r : Option Nat} {s u : State} {o : Host.Outcome State Fault Refusal}
    (ho : ∀ t, o = .next t → t.params = s.params ∧ t.inputs = s.inputs)
    (h : raceReset r s o = .next u) :
    u.params = s.params ∧ packets u.inputs = packets s.inputs := by
  rcases raceReset_cases h with ⟨v, rfl, hp, -⟩ | ⟨t, ht, hu⟩
  · exact ⟨hp, by simp⟩
  · obtain ⟨hp, hi⟩ := ho t ht
    rcases hu with rfl | ⟨m, rfl⟩ <;> exact ⟨hp, by simp [hi]⟩

theorem busyStep_environment {s u : State} (h : busyStep s = .next u) :
    u.params = s.params ∧ packets u.inputs = packets s.inputs :=
  raceReset_environment (fun _ => continueBlink_environment) h

/-- Settles O17: only a READY block takes a packet (`step_cases`); what runs, and a reset, take none. -/
theorem parametersNeverChange : Obligations.ParametersNeverChange := by
  intro s t h
  rcases step_cases h with ⟨-, -, rfl⟩ | ⟨-, d, rest, hi, rfl⟩ | ⟨-, n, rest, hi, rfl⟩ |
    ⟨-, a, b, rest, hi, h⟩ | ⟨-, d, rest, hi, h⟩ | ⟨-, h⟩
  · exact ⟨rfl, .inl rfl⟩
  · exact ⟨rfl, .inl (by simp [hi])⟩
  · exact ⟨rfl, .inl (by simp [hi])⟩
  · obtain ⟨hp, hk⟩ := raceReset_environment (fun _ => runPacket_environment) h
    exact ⟨hp, .inr ⟨.packet a b, by simp [hi, hk]⟩⟩
  · obtain ⟨hp, hk⟩ := busyStep_environment h
    exact ⟨hp, .inl (by simp [hi, hk])⟩
  · obtain ⟨hp, hk⟩ := busyStep_environment h
    exact ⟨hp, .inl hk.symm⟩

end Sys2Proof.Machine
end

section
/-! SUPPORT. The parts of the invariant, each tied to `Inv` by `Inv.sound` and `Sound.inv`: what the body of a
command does to each, and what a blink that is still running shows. -/

namespace Sys2Proof.Machine

open Sys2Proof.Claims

/-! ## The parts -/

/-- The clauses of `Inv` about the LED unit (R14, R33 (a), (b)). -/
structure StripInv (s : State) : Prop where
  hue : s.hue.toNat % 6 = 0 ∧ s.hue.toNat ≤ 1530
  countMax : s.ledcnt ≤ s.params.ledCountMax
  countUnconfigured : s.status.ledcfg = false → s.ledcnt = 0
  records : s.buf.map Prod.fst = List.range s.ledcnt

/-- The clauses of `Inv` about the lines, which hold while nothing has failed (R20, R33 (f), R128). -/
structure LinesRest (s : State) : Prop where
  outputs : s.pinOe = if s.status.segcfg then 0b1111 else 0b0000
  pulsesLow : PulsesLow s
  undriven : s.status.segcfg = false → s.pinData = false ∧ s.pinClear = false

/-- The clauses of `Inv` about the trace, by the value `FATAL` has or is about to take (R160, R161). -/
structure TraceInv (fatal : Bool) (trace : List TraceEntry) : Prop where
  fatalIff : fatal = trace.any (fun e => e.answer == .fail)
  failedLast : trace.dropLast.all (fun e => e.answer == .done) = true
  waitsDone : ∀ e ∈ trace, e.event.answered = false → e.answer = .done

/-- The invariant without `READY`, the blink and `STATUS.CODE`, by the value of `FATAL`. -/
structure Sound (fatal : Bool) (s : State) : Prop where
  strip : StripInv s
  lines : fatal = false → LinesRest s
  trace : TraceInv fatal s.trace

theorem Inv.sound {s : State} (h : Inv s) : Sound s.status.fatal s where
  strip := ⟨h.hue, h.countMax, h.countUnconfigured, h.records⟩
  lines := fun hf => ⟨h.outputs hf, h.pulsesLow hf, h.undriven hf⟩
  trace := ⟨h.fatalIff, h.failedLast, h.waitsDone⟩

theorem Sound.inv {s : State} (h : Sound s.status.fatal s) (hcode : s.status.code ≠ .typeConstraint)
    (hready : s.ready = true → s.blState = .off)
    (hbusy : s.ready = false → s.blState = .showing ∧ s.blMode = .elapsed ∧
      (s.status.segcfg = true ∧ s.status.fatal = false) ∧ s.blElapse ≠ 0) : Inv s where
  hue := h.strip.hue
  countMax := h.strip.countMax
  countUnconfigured := h.strip.countUnconfigured
  records := h.strip.records
  readyOff := hready
  busyBlink := hbusy
  outputs := fun hf => (h.lines hf).outputs
  pulsesLow := fun hf => (h.lines hf).pulsesLow
  undriven := fun hf => (h.lines hf).undriven
  codeProduced := hcode
  fatalIff := h.trace.fatalIff
  failedLast := h.trace.failedLast
  waitsDone := h.trace.waitsDone

/-- What `Sound` does not speak of. -/
theorem Sound.congr {fatal : Bool} {s t : State} (h : Sound fatal s)
    (ht : t = { s with
      ready := t.ready
      responses := t.responses
      blState := t.blState
      inputs := t.inputs
      status := { s.status with
        code := t.status.code, fatal := t.status.fatal, lastop := t.status.lastop } }) :
    Sound fatal t := by
  obtain ⟨⟨hhue, hmax, hunconf, hrec⟩, hlines, htrace⟩ := h
  rw [ht]
  exact ⟨⟨hhue, hmax, hunconf, hrec⟩,
    fun hf => ⟨(hlines hf).outputs, (hlines hf).pulsesLow, (hlines hf).undriven⟩, htrace⟩

/-! ## The trace -/

theorem allDone_iff_all {trace : List TraceEntry} :
    AllDone trace ↔ trace.all (fun e => e.answer == .done) = true := by
  simp [AllDone]

theorem allDone_iff_no_fail {trace : List TraceEntry} :
    AllDone trace ↔ trace.any (fun e => e.answer == .fail) = false := by
  have h : ∀ a : Answer, a = .done ↔ a ≠ .fail := by rintro (_ | _) <;> simp
  simp [AllDone, h]

theorem AllDone.traceInv {trace : List TraceEntry} (h : AllDone trace) : TraceInv false trace where
  fatalIff := (allDone_iff_no_fail.1 h).symm
  failedLast := allDone_iff_all.1 (fun e he => h e (List.dropLast_subset _ he))
  waitsDone := fun e he _ => h e he

theorem TraceInv.allDone {trace : List TraceEntry} (h : TraceInv false trace) : AllDone trace :=
  allDone_iff_no_fail.2 h.fatalIff.symm

theorem LastFailed.traceInv {trace : List TraceEntry} (h : LastFailed trace)
    (hw : ∀ e ∈ trace, e.event.answered = false → e.answer = .done) : TraceInv true trace where
  fatalIff := by
    obtain ⟨-, e, hlast, he⟩ := h
    symm
    rw [List.any_eq_true]
    exact ⟨e, List.mem_of_getLast? hlast, by simp [he]⟩
  failedLast := allDone_iff_all.1 h.1
  waitsDone := hw

/-- What was emitted keeps the trace's clauses while no event fails. -/
theorem TraceInv.ran_done {s t : State} {new : List TraceEntry} (h : TraceInv false s.trace)
    (hr : Ran s t new) (hd : AllDone new) : TraceInv false t.trace := by
  rw [hr.trace]
  exact (h.allDone.append hd).traceInv

/-- A failed event at the end is the one `FATAL` is about to record. -/
theorem TraceInv.ran_failed {s t : State} {new : List TraceEntry} (h : TraceInv false s.trace)
    (hr : Ran s t new) (hl : LastFailed new) : TraceInv true t.trace := by
  rw [hr.trace]
  refine (LastFailed.append h.allDone hl).traceInv (fun e he hw => ?_)
  rcases List.mem_append.1 he with he | he
  · exact h.waitsDone e he hw
  · exact hr.waits e he hw

/-! ## The strip -/

theorem StripInv.of_keeps {s t : State} {oe : BitVec 4} (h : StripInv s)
    (hk : SegKeeps s { t with pinOe := oe }) (hp : t.params = s.params) : StripInv t := by
  have hhue : t.hue = s.hue := hk.hue
  have hcnt : t.ledcnt = s.ledcnt := hk.ledcnt
  have hbuf : t.buf = s.buf := hk.buf
  have hst : t.status = s.status := hk.status
  exact ⟨hhue ▸ h.hue, by rw [hcnt, hp]; exact h.countMax, by rw [hst, hcnt]; exact h.countUnconfigured,
    by rw [hbuf, hcnt]; exact h.records⟩

/-- `HUE` stays a multiple of 6 up to 1530, whichever of its wrap targets it takes (R103, R106). -/
theorem nextHue_multiple {wrap : Nat} (hw : wrap % 6 = 0 ∧ wrap ≤ 1530) {hue : BitVec 11}
    (h : hue.toNat % 6 = 0 ∧ hue.toNat ≤ 1530) :
    (nextHue wrap hue).toNat % 6 = 0 ∧ (nextHue wrap hue).toNat ≤ 1530 := by
  rw [nextHue_toNat wrap hue (by omega)]
  split <;> omega

theorem stripInv_buildStrip {n : Nat} {s : State} (h : n ≤ s.params.ledCountMax) :
    StripInv (buildStrip n s) where
  hue := by simp [buildStrip]
  countMax := h
  countUnconfigured := fun hf => by simp [buildStrip] at hf
  records := buildStrip_keys n s

theorem stripInv_commandBody {i : Instr} {s : State} (h : StripInv s) (ht : commandTest i s = none) :
    StripInv (commandBody i s).state := by
  have hparams := (ran_commandBody i s).environment.1
  cases i with
  | hue2rgb hue => exact ⟨h.hue, h.countMax, h.countUnconfigured, h.records⟩
  | configure df n =>
    obtain ⟨-, hok⟩ := firstFailure_eq_none.1 ht
    obtain ⟨h0, hmax⟩ := (countOk_iff _ _).1 (argumentTest_eq_none.1 hok)
    obtain ⟨u, hk, -, -, hb | hb⟩ := configureBody_cases (effectiveCount df n).toNat s <;>
      rw [commandBody, hb] at hparams ⊢
    · have hp : u.params = s.params := hparams
      exact stripInv_buildStrip (by rw [hp]; omega)
    · exact h.of_keeps hk hparams
  | set index led =>
    obtain ⟨-, hok⟩ := firstFailure_eq_none.1 ht
    obtain ⟨h0, hlt⟩ := (indexOk_iff _ _).1 (argumentTest_eq_none.1 hok)
    have hi : index.toInt.toNat < s.ledcnt := by omega
    exact ⟨h.hue, h.countMax, h.countUnconfigured, setBody_keys s led h.records hi⟩
  | advance =>
    exact ⟨nextHue_multiple (by decide) h.hue, h.countMax, h.countUnconfigured,
      fillStrip_keys _ h.records⟩
  | scroll =>
    rw [scrollBody_eq]
    exact ⟨nextHue_multiple (by decide) h.hue, h.countMax, h.countUnconfigured,
      shiftStrip_keys _ h.records⟩
  | segcfg d =>
    obtain ⟨u, hk, -, ⟨-, hb⟩ | hb⟩ := segcfgBody_cases d s <;> rw [commandBody, hb] at hparams ⊢
    · have hu : StripInv u := h.of_keeps hk hparams
      exact ⟨hu.hue, hu.countMax, hu.countUnconfigured, hu.records⟩
    · exact h.of_keeps hk hparams
  | _ => exact h.of_keeps (segKeeps_commandBody s (by simp [Instr.op])) hparams

/-! ## The lines -/

theorem LinesRest.of_sameLines {s t : State} (h : LinesRest s) (hl : SameLines s t)
    (hseg : t.status.segcfg = s.status.segcfg) : LinesRest t := by
  obtain ⟨hdata, hclock, hlatch, hclear, hoe⟩ := hl
  obtain ⟨hout, ⟨hc, hla⟩, hun⟩ := h
  exact ⟨by rw [hoe, hseg, hout], ⟨hclock.trans hc, hlatch.trans hla⟩, by rwa [hseg, hdata, hclear]⟩

/-- With `SEGCFG` 1 only `PIN_OE` and the pulsed lines matter. -/
theorem LinesRest.of_segKeeps {s t : State} (h : LinesRest s) (hseg : s.status.segcfg = true)
    (hk : SegKeeps s t) (hlow : PulsesLow t) : LinesRest t where
  outputs := by rw [hk.pinOe, hk.status, h.outputs]
  pulsesLow := hlow
  undriven := fun hf => by rw [hk.status, hseg] at hf; cases hf

theorem segcfg_of_commandTest {i : Instr} {s : State}
    (hop : i.op ∈ [Op.write, .clear, .putc, .puts, .blinkc, .blink]) (ht : commandTest i s = none) :
    s.status.segcfg = true := by
  have hpre : segPreamble s = none := by
    cases i with
    | write v => exact (firstFailure_eq_none.1 ht).1
    | clear => exact ht
    | putc c d => exact ht
    | puts df d cs => exact ht
    | blinkc c p q n => exact (firstFailure_eq_none.1 ht).1
    | blink c p q n => exact (firstFailure_eq_none.1 ht).1
    | _ => simp [Instr.op] at hop
  exact (segPreamble_eq_none.1 hpre).2

/-- Where the pulsed lines rest after any seven-segment command (42_seven_segment.md R128). -/
theorem restsLow_commandBody {i : Instr} (s : State)
    (hop : i.op ∈ [Op.write, .clear, .putc, .puts, .blinkc, .blink]) : RestsLow s (commandBody i s) := by
  cases i with
  | write v => exact restsLow_shiftOut _ s
  | clear => exact restsLow_clearSeq s
  | putc c d => exact restsLow_putcSeq _ _ s
  | puts df d cs => exact restsLow_putsSeq _ _ s
  | blinkc c p q n =>
    show RestsLow s (blinkcBody c p q n s)
    unfold blinkcBody
    split
    · exact fun hs _ => hs
    · exact restsLow_blinkLoop _ (loadBlinkc c p q n s)
  | blink c p q n => exact restsLow_blinkLoop _ (loadBlink c p q n s)
  | _ => simp [Instr.op] at hop

/-- The body did not stop at a failed event. -/
def Result.NoFailure (r : Result) : Prop := ∀ t, r ≠ .raised .hardwareIO t

theorem Result.StatusOf.segcfg {op : Op} {s : State} {r : Result} (h : r.StatusOf op s)
    (hop : op ≠ .segcfg) : r.state.status.segcfg = s.status.segcfg := by
  cases r with
  | ok t => rw [Result.state, h]; simp [Status.passed, hop]
  | raised e t => exact congrArg Status.segcfg h
  | running t => exact congrArg Status.segcfg h

theorem Result.StatusOf.fatal {op : Op} {s : State} {r : Result} (h : r.StatusOf op s) :
    r.state.status.fatal = s.status.fatal := by
  cases r with
  | ok t => rw [Result.state, h]; rfl
  | raised e t => exact congrArg Status.fatal h
  | running t => exact congrArg Status.fatal h

theorem linesRest_commandBody {i : Instr} {s : State} (h : LinesRest s) (ht : commandTest i s = none)
    (hnf : (commandBody i s).NoFailure) : LinesRest (commandBody i s).state := by
  by_cases hseg : i.op ∈ [Op.write, .clear, .putc, .puts, .blinkc, .blink]
  · exact h.of_segKeeps (segcfg_of_commandTest hseg ht)
      (segKeeps_commandBody s (List.mem_cons_of_mem _ hseg)) (restsLow_commandBody s hseg h.pulsesLow hnf)
  · cases i with
    | segcfg d =>
      obtain ⟨u, -, -, ⟨⟨hoe, hlow⟩, hb⟩ | hb⟩ := segcfgBody_cases d s
      · rw [commandBody, hb]
        exact ⟨hoe, ⟨hlow .clock, hlow .latch⟩, fun hf => by cases hf⟩
      · exact absurd hb (hnf u)
    | write | clear | putc | puts | blinkc | blink => simp [Instr.op] at hseg
    | _ =>
      exact h.of_sameLines (sameLines_commandBody s (by simp [Instr.op]))
        ((statusOf_commandBody _ s).segcfg (by simp [Instr.op]))

/-! ## A blink still running -/

theorem loadBlinkc_blCnt {n : Word} (hn : 0 ≤ n.toInt) (c : Byte) (p q : Word) (s : State) :
    (loadBlinkc c p q n s).blCnt.toNat = n.toNat := by
  show (BitVec.ofNat 31 n.toInt.toNat).toNat = n.toNat
  rw [toInt_toNat hn, BitVec.toNat_ofNat, Nat.mod_eq_of_lt (toNat_lt hn)]

/-- A `BLINKC` always ends: one step may run all its cycles. -/
theorem blinkcBody_not_running {n : Word} (hn : 0 ≤ n.toInt) (c : Byte) (p q : Word) (s u : State) :
    blinkcBody c p q n s ≠ .running u := by
  unfold blinkcBody
  split
  · simp
  · rename_i h0
    have hpos : n.toNat ≠ 0 := fun hz => h0 (BitVec.eq_of_toNat_eq hz)
    refine blinkLoop_count_not_running _ _ u rfl ?_ (Nat.le_max_right 1 _)
    rw [loadBlinkc_blCnt hn]
    omega

/-- A blink loop bounded by elapsed time that is still running: what the invariant says of a BUSY block. -/
theorem blinkLoop_shows {n : Nat} {s t : State} (hn : 0 < n) (hm : s.blMode = .elapsed)
    (h : blinkLoop n s = .running t) : t.blState = .showing ∧ t.blMode = .elapsed ∧ t.blElapse ≠ 0 := by
  obtain ⟨hstate, helapse⟩ := blinkLoop_running hn hm h
  have hfixed := fixed_blinkLoop n s
  rw [h] at hfixed
  exact ⟨hstate, hfixed.mode.trans hm, helapse⟩

/-- The only command that can be left running is a `BLINK` (43_blink.md R148). -/
theorem commandBody_running {i : Instr} {s t : State} (ht : commandTest i s = none)
    (h : commandBody i s = .running t) :
    i.op = .blink ∧ t.blState = .showing ∧ t.blMode = .elapsed ∧ t.blElapse ≠ 0 := by
  cases i with
  | hue2rgb hue => cases h
  | configure df n =>
    obtain ⟨u, -, -, -, hb | hb⟩ := configureBody_cases (effectiveCount df n).toNat s <;>
      cases hb.symm.trans h
  | set index led => cases h
  | advance => cases h
  | scroll => cases h
  | render => exact absurd h (emitAll_not_running _ s t)
  | segcfg d =>
    obtain ⟨u, -, -, ⟨-, hb⟩ | hb⟩ := segcfgBody_cases d s <;> cases hb.symm.trans h
  | write v => exact absurd h (emitAll_not_running _ s t)
  | clear => exact absurd h (clearSeq_not_running s t)
  | putc c d => exact absurd h (putcSeq_not_running _ _ s t)
  | puts df d cs => exact absurd h (putsSeq_not_running _ _ s t)
  | blinkc c p q n =>
    obtain ⟨-, hok⟩ := firstFailure_eq_none.1 ht
    obtain ⟨-, -, -, hn⟩ := (blinkOperandsOk_iff p q n).1 (argumentTest_eq_none.1 hok)
    exact absurd h (blinkcBody_not_running hn c p q s t)
  | blink c p q n => exact ⟨rfl, blinkLoop_shows (cyclesPerStep_pos _) rfl h⟩

end Sys2Proof.Machine
end

section
/-! SUPPORT. Every step keeps the invariant: what a command's body must give (`Result.Sound`), that the
thirteen bodies and the blink loop give it, and the cases of a step. -/

namespace Sys2Proof.Machine

/-! ## The end of a command -/

/-- A command that ends, if what its body left is sound for the `FATAL` that the end writes. -/
theorem Sound.inv_endCommand {op : Byte} {c : Code} {d : BitVec 24} {s : State}
    (h : Sound (s.status.fatal || c == .hardwareIO) s) (hc : c ≠ .typeConstraint) :
    Inv (endCommand op c d s) :=
  Sound.inv (h.congr rfl) hc (fun _ => rfl) (fun hr => by cases hr)

/-- What a body's result must give for the invariant, from a state in which nothing has failed. -/
def Result.Sound : Result → Prop
  | .ok t => t.status.fatal = false ∧ Machine.Sound false t
  | .raised e t => t.status.fatal = false ∧ e ≠ .typeConstraint ∧ Machine.Sound (e == .hardwareIO) t
  | .running t => t.status.fatal = false ∧ Machine.Sound false t ∧ t.status.code ≠ .typeConstraint ∧
      t.blState = .showing ∧ t.blMode = .elapsed ∧ t.status.segcfg = true ∧ t.blElapse ≠ 0

theorem Result.Sound.inv_conclude {op : Op} {d : State → BitVec 24} {r : Result} {t : State}
    (hr : r.Sound) (h : conclude op d r = .next t) : Inv t := by
  rcases conclude_cases h with ⟨u, rfl, rfl⟩ | ⟨e, u, rfl, rfl⟩ | ⟨u, rfl, rfl⟩
  · obtain ⟨hf, hs⟩ := hr
    exact Machine.Sound.inv_endCommand (by rw [hf]; exact hs) (by decide)
  · obtain ⟨hf, he, hs⟩ := hr
    exact Machine.Sound.inv_endCommand (by rw [hf]; exact hs) he
  · obtain ⟨hf, hs, hcode, hstate, hmode, hseg, helapse⟩ := hr
    rw [← hf] at hs
    exact Machine.Sound.inv (hs.congr rfl) hcode (fun hready => by cases hready)
      (fun _ => ⟨hstate, hmode, ⟨hseg, hf⟩, helapse⟩)

/-- A body's result is sound if each part of the invariant is kept and a blink still running shows. -/
theorem Result.Ran.sound {s : State} {r : Result} (hran : r.Ran s) (hs : Machine.Sound false s)
    (hfatal : r.state.status.fatal = false) (hstrip : StripInv r.state)
    (hlines : r.NoFailure → LinesRest r.state)
    (hrun : ∀ t, r = .running t → t.status.code ≠ .typeConstraint ∧ t.blState = .showing ∧
      t.blMode = .elapsed ∧ t.status.segcfg = true ∧ t.blElapse ≠ 0) : r.Sound := by
  cases r with
  | ok t =>
    obtain ⟨new, hr, hd⟩ := hran
    exact ⟨hfatal, hstrip, fun _ => hlines (fun u hu => by cases hu), hs.trace.ran_done hr hd⟩
  | raised e t =>
    obtain ⟨new, hr, ⟨rfl, hl⟩ | ⟨rfl, hd⟩⟩ := hran
    · exact ⟨hfatal, by decide, hstrip, (fun hf => by cases hf), hs.trace.ran_failed hr hl⟩
    · exact ⟨hfatal, by decide, hstrip, fun _ => hlines (fun u hu => by cases hu),
        hs.trace.ran_done hr hd⟩
  | running t =>
    obtain ⟨new, hr, hd⟩ := hran
    exact ⟨hfatal, ⟨hstrip, fun _ => hlines (fun u hu => by cases hu), hs.trace.ran_done hr hd⟩,
      hrun t rfl⟩

/-! ## The commands -/

theorem sound_commandBody {i : Instr} {s : State} (hs : Sound false s)
    (hcode : s.status.code ≠ .typeConstraint) (ht : commandTest i s = none) : (commandBody i s).Sound := by
  have hstatus := statusOf_commandBody i s
  refine (ran_commandBody i s).sound hs (hstatus.fatal.trans (fatal_of_commandTest ht))
    (stripInv_commandBody hs.strip ht) (linesRest_commandBody (hs.lines rfl) ht) (fun t hrun => ?_)
  obtain ⟨hop, hstate, hmode, helapse⟩ := commandBody_running ht hrun
  rw [hrun] at hstatus
  have hst : t.status = s.status := hstatus
  have hseg : s.status.segcfg = true := segcfg_of_commandTest (by simp [hop]) ht
  exact ⟨by rwa [hst], hstate, hmode, by rwa [hst], helapse⟩

/-- A test that fails leaves `FATAL` as it is (60_exceptions.md R161). -/
theorem fatal_of_commandTest_some {i : Instr} {s : State} {e : Code} (h : commandTest i s = some e) :
    (s.status.fatal || e == .hardwareIO) = s.status.fatal ∧ e ≠ .typeConstraint := by
  rcases commandTest_some h with ⟨rfl, hf⟩ | ⟨hf, rfl | rfl⟩ <;> rw [hf] <;> decide

theorem Sound.inv_exec {i : Instr} {s t : State} (hs : Sound s.status.fatal s)
    (hcode : s.status.code ≠ .typeConstraint) (h : exec i s = .next t) : Inv t := by
  rcases exec_cases h with ⟨e, he, rfl⟩ | ⟨ht, h⟩
  · obtain ⟨hf, hne⟩ := fatal_of_commandTest_some he
    exact Sound.inv_endCommand (by rw [hf]; exact hs) hne
  · rw [fatal_of_commandTest ht] at hs
    exact (sound_commandBody hs hcode ht).inv_conclude h

/-! ## The inputs -/

/-- `TIME` and the inputs are free. -/
theorem Inv.congr {s t : State} (h : Inv s) (ht : t = { s with inputs := t.inputs, time := t.time }) :
    Inv t := by
  rw [ht]
  exact ⟨h.hue, h.countMax, h.countUnconfigured, h.records, h.readyOff, h.busyBlink, h.outputs, h.pulsesLow,
    h.undriven, h.codeProduced, h.fatalIff, h.failedLast, h.waitsDone⟩

/-- Reset gives the invariant whatever the block was doing. -/
theorem inv_resetBlock (rest : List HostInput) (s : State) : Inv (resetBlock rest s) := by
  constructor <;> simp [Status.reset]

/-- Settles O15: the reset state is what a reset makes of itself. -/
theorem resetMeetsTheInvariant : Obligations.ResetMeetsTheInvariant := inv_resetBlock [] State.reset

theorem inv_runPacket {a : Word} {b : List Word} {rest : List HostInput} {s t : State} (h : Inv s)
    (hrun : runPacket a b (acceptPacket rest s) = .next t) : Inv t := by
  have hs : Sound (acceptPacket rest s).status.fatal (acceptPacket rest s) := h.sound.congr rfl
  unfold runPacket at hrun
  split at hrun
  · exact hs.inv_exec h.codeProduced hrun
  · injection hrun with hrun
    subst hrun
    have hcode : (Code.illegalCommand == .hardwareIO) = false := rfl
    exact Sound.inv_endCommand (by simpa [hcode] using hs) (by decide)

/-- A BUSY block of the invariant goes on with a `BLINK`. -/
theorem inv_continueBlink {s t : State} (h : Inv s) (hb : s.ready = false)
    (hrun : continueBlink s = .next t) : Inv t := by
  obtain ⟨hstate, hmode, ⟨hseg, hfatal⟩, -⟩ := h.busyBlink hb
  have hs := h.sound
  rw [hfatal] at hs
  have hk := keeps_blinkLoop (cyclesPerStep s) s
  have hran := ran_blinkLoop (cyclesPerStep s) s
  unfold continueBlink at hrun
  rw [hstate] at hrun
  refine Result.Sound.inv_conclude (hran.sound hs (hk.status ▸ hfatal)
    (hs.strip.of_keeps hk hran.environment.1) (fun hnf => ?_) (fun u hu => ?_)) hrun
  · exact (hs.lines rfl).of_segKeeps hseg hk (restsLow_blinkLoop _ s (hs.lines rfl).pulsesLow hnf)
  · rw [hu] at hk
    have hst : u.status = s.status := hk.status
    obtain ⟨hshow, hel, helapse⟩ := blinkLoop_shows (cyclesPerStep_pos s) hmode hu
    exact ⟨by rw [hst]; exact h.codeProduced, hshow, hel, by rwa [hst], helapse⟩

/-- A race keeps the invariant: either side of it meets it. -/
theorem inv_raceReset {r : Option Nat} {s u : State} {o : Host.Outcome State Fault Refusal}
    (ho : ∀ t, o = .next t → Inv t) (h : raceReset r s o = .next u) : Inv u := by
  rcases raceReset_cases h with ⟨v, rfl, -⟩ | ⟨t, ht, rfl | ⟨m, rfl⟩⟩
  · exact inv_resetBlock _ v
  · exact ho _ ht
  · exact (ho t ht).congr rfl

theorem inv_busyStep {s t : State} (h : Inv s) (hb : s.ready = false) (hstep : busyStep s = .next t) :
    Inv t :=
  inv_raceReset (fun _ => inv_continueBlink h hb) hstep

/-- Settles O14: by the cases of a step; a command by its body (`sound_commandBody`), a BUSY block by its
blink loop (`inv_continueBlink`), a reset by what it writes. -/
theorem everyStepKeepsTheInvariant : Obligations.EveryStepKeepsTheInvariant := by
  intro s t hs h
  rcases step_cases h with ⟨-, -, rfl⟩ | ⟨-, d, rest, -, rfl⟩ | ⟨-, n, rest, -, rfl⟩ |
    ⟨-, a, b, rest, -, h⟩ | ⟨hb, d, rest, -, h⟩ | ⟨hb, h⟩
  · exact hs
  · exact hs.congr rfl
  · exact inv_resetBlock rest s
  · exact inv_raceReset (fun _ => inv_runPacket hs) h
  · exact inv_busyStep (s := { s with inputs := rest }) (hs.congr rfl) hb h
  · exact inv_busyStep hs hb h

end Sys2Proof.Machine
end

section
/-! SUPPORT. The byte channel (20_memory.md R45): the bytes of a packet by their position, with the obligation
about them. -/

namespace Sys2Proof

theorem bytesOfWords_cons (w : Word) (ws : List Word) :
    bytesOfWords (w :: ws) = wordBytes w ++ bytesOfWords ws := rfl

/-- Byte `k` of a word is the `k`-th digit of its value to the base 256. -/
theorem wordBytes_getD_toNat (w : Word) {k : Nat} (hk : k < 4) :
    ((wordBytes w).getD k 0).toNat = w.toNat / 2 ^ (8 * k) % 256 := by
  have hbyte : (wordBytes w).getD k 0 = w.extractLsb' (8 * k) 8 := by
    interval_cases k <;> rfl
  rw [hbyte, BitVec.extractLsb'_toNat, Nat.shiftRight_eq_div_pow]

/-- Byte `k` of a packet is byte `k % 4` of its word `k / 4`. -/
theorem bytesOfWords_getD (ws : List Word) {k : Nat} (hk : k < 4 * ws.length) :
    (bytesOfWords ws).getD k 0 = (wordBytes (ws.getD (k / 4) 0)).getD (k % 4) 0 := by
  induction ws generalizing k with
  | nil => simp at hk
  | cons w rest ih =>
    rw [bytesOfWords_cons]
    by_cases hfirst : k < 4
    · rw [List.getD_append _ _ _ _ hfirst, Nat.div_eq_of_lt hfirst, Nat.mod_eq_of_lt hfirst,
        List.getD_cons_zero]
    · obtain ⟨j, rfl⟩ := Nat.exists_eq_add_of_le' (Nat.le_of_not_lt hfirst)
      rw [List.length_cons] at hk
      rw [List.getD_append_right _ _ _ _ (Nat.le_add_left 4 j), wordBytes_length, Nat.add_sub_cancel,
        ih (by omega), Nat.add_div_right j (by decide), Nat.add_mod_right, List.getD_cons_succ]

theorem wordsOfBytes_bytesOfWords (ws : List Word) : wordsOfBytes (bytesOfWords ws) = some ws := by
  rw [wordsOfBytes, if_pos (by simp), packBytes_bytesOfWords]

/-- The header and the delay of a `PUTS` fill the first eight bytes; the characters follow. -/
theorem bytesOfWords_encode_puts_getD (df : Bool) (d : Word) (cs : List Byte) {k : Nat}
    (hk : k < cs.length) : (bytesOfWords (encode (.puts df d cs))).getD (8 + k) 0 = cs.getD k 0 := by
  rw [encode, bytesOfWords_cons, bytesOfWords_cons, bytesOfWords_packBytes, ← List.append_assoc,
    List.getD_append_right _ _ _ _ (by simp), List.length_append, wordBytes_length, wordBytes_length,
    Nat.add_sub_cancel_left, List.getD_append _ _ _ _ hk]

/-- Settles O6: packing undoes unpacking, the bytes of a packet by position (`bytesOfWords_getD`), and the
characters of a `PUTS` behind its two first words. -/
theorem byteChannelIsLittleEndian : Obligations.ByteChannelIsLittleEndian := by
  refine ⟨wordsOfBytes_bytesOfWords, fun ws k hk => ?_, fun df d cs k hk => ?_⟩
  · rw [bytesOfWords_getD ws hk, wordBytes_getD_toNat _ (Nat.mod_lt k (by decide))]
  · exact bytesOfWords_encode_puts_getD df d cs hk

end Sys2Proof
end

section
/-! SUPPORT. `RENDER` and `SET` as one equation each where their tests decide, and what a second one of them
does (20_memory.md R50). -/

namespace Sys2Proof.Machine

open Sys2Proof.Claims

/-! ## The frame -/

theorem ledBytes_map_byte (r : LedRecord) : (ledBytes r).map Event.byte = ledGroup r := by
  have hheader : ∀ b : BitVec 5, (0b111#3 ++ b : BitVec 8) = 0xE0 ||| b.setWidth 8 := by decide
  simp [ledBytes, ledGroup, hheader]

theorem memRead_succ (m : Buffer) (a n : Nat) :
    memRead m a (n + 1) = Buffer.read m a :: memRead m (a + 1) n := by
  simp [memRead, List.range_succ_eq_map, Nat.add_assoc, Nat.add_comm 1]

theorem ledGroups_eq (m : Buffer) (a n : Nat) :
    ((memRead m a n).flatMap ledBytes).map Event.byte = ledGroups m a n := by
  induction n generalizing a with
  | zero => rfl
  | succ n ih =>
    rw [memRead_succ, List.flatMap_cons, List.map_append, ledBytes_map_byte, ih, ledGroups]

/-- The bytes `RENDER` sends are the frame of R109. -/
theorem frameBytes_map_byte (m : Buffer) (n : Nat) :
    (frameBytes (memRead m 0 n)).map Event.byte = frame m n := by
  rw [frameBytes, List.map_append, List.map_append, ledGroups_eq]
  rfl

theorem answeredCount_ledGroups (m : Buffer) (a n : Nat) : answeredCount (ledGroups m a n) = 4 * n := by
  induction n generalizing a with
  | zero => rfl
  | succ n ih =>
    rw [ledGroups, answeredCount_append, ih, show answeredCount (ledGroup (Buffer.read m a)) = 4 from rfl]
    omega

theorem answeredCount_frame (m : Buffer) (n : Nat) : answeredCount (frame m n) = 8 + 4 * n := by
  rw [frame, answeredCount_append, answeredCount_append, answeredCount_ledGroups,
    show answeredCount [.byte 0, .byte 0, .byte 0, .byte 0] = 4 from rfl,
    show answeredCount [.byte 0xFF, .byte 0xFF, .byte 0xFF, .byte 0xFF] = 4 from rfl]
  omega

/-! ## RENDER -/

/-- The block behind a whole frame. -/
def rendered (s : State) : State := complete Op.render.code 0 (doneEvents (frame s.buf s.ledcnt) s)

theorem exec_render_done {s : State} (hu : LedUsable s) (hd : AnswersDone s (8 + 4 * s.ledcnt)) :
    exec .render s = .next (rendered s) := by
  have hbody : commandBody .render s = .ok (doneEvents (frame s.buf s.ledcnt) s) := by
    rw [commandBody, frameBytes_map_byte]
    exact emitAll_done _ _ (by rwa [answeredCount_frame])
  rw [exec_body (i := .render) (ledPreamble_eq_none.2 hu), hbody]
  rfl

@[simp] theorem rendered_trace (s : State) :
    (rendered s).trace = s.trace ++ sent (frame s.buf s.ledcnt) := doneEvents_trace _ s
@[simp] theorem rendered_buf (s : State) : (rendered s).buf = s.buf := doneEvents_buf _ s
@[simp] theorem rendered_hue (s : State) : (rendered s).hue = s.hue := doneEvents_hue _ s
@[simp] theorem rendered_ledcnt (s : State) : (rendered s).ledcnt = s.ledcnt := doneEvents_ledcnt _ s

/-- The end of a command leaves the unit usable unless an event failed. -/
theorem ledUsable_endCommand {s : State} (h : LedUsable s) (op : Byte) {c : Code} (hc : c ≠ .hardwareIO)
    (d : BitVec 24) : LedUsable (endCommand op c d s) := by
  obtain ⟨hfatal, hcfg⟩ := h
  exact ⟨by simp [Status.ended, hfatal, hc], hcfg⟩

theorem ledUsable_rendered {s : State} (h : LedUsable s) : LedUsable (rendered s) :=
  ledUsable_endCommand (by simpa [LedUsable] using h) _ (by decide) _

/-- A whole frame takes its answers off the front of the list. -/
theorem answersDone_rendered {s : State} {n : Nat} (h : AnswersDone s (8 + 4 * s.ledcnt + n)) :
    AnswersDone (rendered s) n := by
  intro k hk
  have hframe : answerAt (rendered s) k = answerAt s (k + (8 + 4 * s.ledcnt)) := by
    rw [← answeredCount_frame s.buf, ← answerAt_doneEvents]
    exact answerAt_congr k rfl rfl
  rw [hframe]
  exact h _ (by omega)

theorem repeatsTo_render_two {s t : State} (hu : LedUsable s)
    (hd : AnswersDone s (2 * (8 + 4 * s.ledcnt))) (h : RepeatsTo .render 2 s t) :
    t = rendered (rendered s) := by
  obtain ⟨u, hfirst, v, hsecond, rfl⟩ := h
  rw [exec_render_done hu (fun k hk => hd k (by omega))] at hfirst
  injection hfirst with hfirst
  subst hfirst
  have hd2 : AnswersDone (rendered s) (8 + 4 * (rendered s).ledcnt) := by
    rw [rendered_ledcnt]
    exact answersDone_rendered (fun k hk => hd k (by omega))
  rw [exec_render_done (ledUsable_rendered hu) hd2] at hsecond
  injection hsecond with hsecond
  exact hsecond.symm

/-! ## SET -/

/-- Of two writes to the same record the second decides. -/
theorem write_write_same (m : Buffer) (i : Nat) (r q : LedRecord) :
    Buffer.write i r (Buffer.write i q m) = Buffer.write i r m := by
  induction m with
  | nil => simp [Buffer.write]
  | cons a rest ih =>
    obtain ⟨j, p⟩ := a
    rcases lt_trichotomy i j with hlt | rfl | hgt
    · simp [Buffer.write, hlt]
    · simp [Buffer.write]
    · simp [Buffer.write, hgt.not_gt, hgt.ne', ih]

/-- The block with the record of a `SET` written. -/
def withRecord (index led : Word) (s : State) : State :=
  { s with buf := Buffer.write (int32 index).toNat (ledOfWord led) s.buf }

/-- A second write behind the end of the first `SET` finds its record there. -/
theorem withRecord_endCommand_withRecord (index led : Word) (op : Byte) (c : Code) (d : BitVec 24)
    (s : State) :
    withRecord index led (endCommand op c d (withRecord index led s)) =
      endCommand op c d (withRecord index led s) := by
  simp [withRecord, endCommand, write_write_same]

/-- `SET` with an index in use writes one record. -/
theorem exec_set_inUse {s : State} (hu : LedUsable s) {index : Word} (led : Word)
    (hi : indexOk s.ledcnt index = true) :
    exec (.set index led) s = .next (endCommand Op.set.code .ok 0 (withRecord index led s)) := by
  have htest : commandTest (.set index led) s = none :=
    firstFailure_eq_none.2 ⟨ledPreamble_eq_none.2 hu, argumentTest_eq_none.2 hi⟩
  rw [exec_body htest]
  rfl

/-- `SET` with any other index is refused. -/
theorem exec_set_outOfRange {s : State} (hu : LedUsable s) {index : Word} (led : Word)
    (hi : indexOk s.ledcnt index = false) :
    exec (.set index led) s = .next (endCommand Op.set.code .invalidArgument 0 s) := by
  have htest : commandTest (.set index led) s = some .invalidArgument := by
    rw [commandTest, ledPreamble_eq_none.2 hu, hi]
    rfl
  rw [exec_refused htest]
  rfl

/-- A second end with the same code and opcode adds a response and nothing else. -/
theorem endCommand_endCommand (op : Byte) (c : Code) (d : BitVec 24) (s : State) :
    endCommand op c d (endCommand op c d s) =
      { endCommand op c d s with
        responses := (endCommand op c d s).responses ++ [responseWord c d] } := by
  simp [endCommand, Status.ended]

theorem exec_set_again {s t u : State} (hu : LedUsable s) {index led : Word}
    (h1 : exec (.set index led) s = .next t) (h2 : exec (.set index led) t = .next u) :
    u = { t with responses := u.responses } := by
  cases hi : indexOk s.ledcnt index with
  | true =>
    obtain rfl := Host.Outcome.next.inj ((exec_set_inUse hu led hi).symm.trans h1)
    have hut := ledUsable_endCommand (s := withRecord index led s) hu Op.set.code (c := .ok) (by decide) 0
    obtain rfl := Host.Outcome.next.inj ((exec_set_inUse hut led hi).symm.trans h2)
    rw [withRecord_endCommand_withRecord, endCommand_endCommand]
  | false =>
    obtain rfl := Host.Outcome.next.inj ((exec_set_outOfRange hu led hi).symm.trans h1)
    have hut := ledUsable_endCommand hu Op.set.code (c := .invalidArgument) (by decide) 0
    obtain rfl := Host.Outcome.next.inj ((exec_set_outOfRange hut led hi).symm.trans h2)
    rw [endCommand_endCommand]

/-- Settles O40: a second frame is read from the buffer the first one left alone (`repeatsTo_render_two`), and a
second `SET` writes the record that is there, or is refused as the first was. -/
theorem renderAndSetRepeatHarmlessly : Obligations.RenderAndSetRepeatHarmlessly := by
  refine ⟨fun s t hu hd h => ?_, fun index led s t u hu => exec_set_again hu⟩
  rw [repeatsTo_render_two hu hd h]
  simp

end Sys2Proof.Machine
end

section
/-! SUPPORT. The encoder in one shape for the thirteen commands: a header of three fields, then the operand words.
That decoding and encoding undo each other, and the obligations about them. -/

namespace Sys2Proof

/-! ## Well-formed commands -/

@[simp] theorem defaultOperandOk_iff {df : Bool} {w : Word} :
    defaultOperandOk df w = true ↔ (df = true → w = 0) := by
  cases df <;> simp [defaultOperandOk]

@[simp] theorem stringLengthOk_iff {cs : List Byte} : stringLengthOk cs = true ↔ cs.length ≤ 255 := by
  simp [stringLengthOk]

theorem wellFormed_configure {df : Bool} {n : Word} :
    (Instr.configure df n).wellFormed = true ↔ (df = true → n = 0) := defaultOperandOk_iff

theorem wellFormed_puts {df : Bool} {d : Word} {cs : List Byte} :
    (Instr.puts df d cs).wellFormed = true ↔ (df = true → d = 0) ∧ cs.length ≤ 255 := by
  simp [Instr.wellFormed]

/-! ## The packet of a command -/

/-- What the `A` field of a command's header holds: a character, the length of a string, or 0 (R63, R65). -/
def Instr.fieldA : Instr → Byte
  | .putc c _ => c
  | .puts _ _ cs => BitVec.ofNat 8 cs.length
  | .blinkc c _ _ _ => c
  | .blink c _ _ _ => c
  | _ => 0

/-- The `DF` bit of a command's header (R61). -/
def Instr.fieldDf : Instr → Bool
  | .configure df _ => df
  | .puts df _ _ => df
  | _ => false

/-- Words 1 and up of a command's packet (R63). -/
def Instr.operandWords : Instr → List Word
  | .hue2rgb hue => [hue]
  | .configure _ n => [n]
  | .set index led => [index, led]
  | .advance => []
  | .scroll => []
  | .render => []
  | .segcfg d => [d]
  | .write v => [v]
  | .clear => []
  | .putc _ d => [d]
  | .puts _ d cs => d :: packBytes cs
  | .blinkc _ p q n => [p, q, n]
  | .blink _ p q e => [p, q, e]

/-- Every packet: a header, then the operand words. -/
theorem encode_eq (i : Instr) :
    encode i = headerWord i.op.code i.fieldA i.fieldDf :: i.operandWords := by
  cases i <;> rfl

/-! ## A string in its payload -/

/-- The payload of a string is its characters, then zero bytes. -/
theorem payloadChars_packBytes (cs : List Byte) : payloadChars cs.length (packBytes cs) = cs := by
  rw [payloadChars, bytesOfWords_packBytes, List.take_left]

theorem paddingZero_packBytes (cs : List Byte) : paddingZero cs.length (packBytes cs) = true := by
  rw [paddingZero, bytesOfWords_packBytes, List.drop_left, List.all_replicate]
  simp

/-- A payload has as many characters as its length field says, if it has the words for them. -/
theorem payloadChars_length {len : Nat} {payload : List Word} (h : payload.length = (len + 3) / 4) :
    (payloadChars len payload).length = len := by
  rw [payloadChars, List.length_take, bytesOfWords_length, h]
  omega

/-- The characters of a payload whose padding is 0 pack to that payload. -/
theorem packBytes_payloadChars {len : Nat} {payload : List Word} (h : payload.length = (len + 3) / 4)
    (hpad : paddingZero len payload = true) : packBytes (payloadChars len payload) = payload := by
  have hzeros : (bytesOfWords payload).drop len = List.replicate (4 * ((len + 3) / 4) - len) 0 := by
    rw [List.eq_replicate_iff]
    refine ⟨by simp [h], fun b hb => ?_⟩
    simpa using List.all_eq_true.1 hpad b hb
  rw [← packBytes_append_zeros, payloadChars_length h, ← hzeros, payloadChars, List.take_append_drop,
    packBytes_bytesOfWords]

/-! ## Decoding an encoded command -/

theorem fieldA_eq_zero {i : Instr} (h : i.op.format.aMustBeZero = true) : i.fieldA = 0 := by
  cases i with
  | putc | puts | blinkc | blink => cases h
  | _ => rfl

theorem dfAllowed_of_fieldDf {i : Instr} (h : i.fieldDf = true) : i.op.dfAllowed = true := by
  cases i with
  | configure | puts => rfl
  | _ => cases h

/-- The length of a string is its own `A` field. -/
theorem fieldA_puts_toNat {df : Bool} {d : Word} {cs : List Byte}
    (h : (Instr.puts df d cs).wellFormed = true) : (Instr.puts df d cs).fieldA.toNat = cs.length := by
  obtain ⟨-, hlen⟩ := wellFormed_puts.1 h
  exact Nat.mod_eq_of_lt (by omega)

theorem operandWords_length {i : Instr} (h : i.wellFormed = true) :
    i.operandWords.length + 1 = i.op.format.words i.fieldA := by
  cases i with
  | puts df d cs =>
    simp only [Instr.op, Op.format, Format.words, fieldA_puts_toNat h]
    simp only [Instr.operandWords, List.length_cons, packBytes_length]
    omega
  | _ => rfl

theorem operandWords_default {i : Instr} (h : i.wellFormed = true) (hdf : i.fieldDf = true) :
    i.operandWords.getD 0 0 = 0 := by
  cases i with
  | configure df n => exact wellFormed_configure.1 h hdf
  | puts df d cs => exact (wellFormed_puts.1 h).1 hdf
  | _ => cases hdf

theorem operandWords_padding {i : Instr} (h : i.wellFormed = true) (hop : i.op = .puts) :
    paddingZero i.fieldA.toNat (i.operandWords.drop 1) = true := by
  cases i with
  | puts df d cs =>
    rw [fieldA_puts_toNat h]
    exact paddingZero_packBytes cs
  | _ => cases hop

/-- The decoder's last step reads back what the encoder wrote. -/
theorem readOperands_encoded {i : Instr} (h : i.wellFormed = true) :
    readOperands i.op (headerWord i.op.code i.fieldA i.fieldDf) i.operandWords = i := by
  cases i with
  | puts df d cs =>
    simp only [Instr.op, readOperands, headerDf_headerWord, headerA_headerWord, fieldA_puts_toNat h]
    simp [Instr.fieldDf, Instr.operandWords, payloadChars_packBytes]
  | _ => simp [Instr.op, readOperands, headerDf_headerWord, headerA_headerWord, Instr.fieldDf, Instr.fieldA,
      Instr.operandWords]

theorem decode_encode {i : Instr} (h : i.wellFormed = true) : decode (encode i) = .ok i := by
  rw [encode_eq, decode_headerWord _ _ _ _ fieldA_eq_zero dfAllowed_of_fieldDf (operandWords_length h)
    (operandWords_default h) (operandWords_padding h), readOperands_encoded h]

/-- Settles O2: the packet of a command passes every test of the decoder, which then reads its fields back. -/
theorem decodeOfEncodeIsTheCommand : Obligations.DecodeOfEncodeIsTheCommand :=
  fun _ => decode_encode

/-! ## Encoding a decoded packet -/

theorem op_readOperands (op : Op) (h : Word) (ws : List Word) : (readOperands op h ws).op = op := by
  cases op <;> rfl

theorem fieldDf_readOperands {op : Op} {h : Word} (ws : List Word)
    (hdf : headerDf h = true → op.dfAllowed = true) : (readOperands op h ws).fieldDf = headerDf h := by
  cases op with
  | configure | puts => rfl
  | _ => exact (Bool.eq_false_iff.2 fun hd => by cases hdf hd).symm

/-- The words behind the second one of a `PUTS` packet are as many as its string needs (R67). -/
theorem payload_length {ws : List Word} {a : Byte} (h : ws.length + 1 = Op.puts.format.words a) :
    (ws.drop 1).length = (a.toNat + 3) / 4 := by
  simp only [Op.format, Format.words] at h
  rw [List.length_drop]
  omega

theorem fieldA_readOperands {op : Op} {h : Word} {ws : List Word}
    (ha : op.format.aMustBeZero = true → headerA h = 0)
    (hlen : ws.length + 1 = op.format.words (headerA h)) : (readOperands op h ws).fieldA = headerA h := by
  cases op with
  | putc | blinkc | blink => rfl
  | puts =>
    rw [readOperands, Instr.fieldA, payloadChars_length (payload_length hlen), BitVec.ofNat_toNat,
      BitVec.setWidth_eq]
  | _ => exact (ha rfl).symm

theorem map_getD_range (ws : List Word) : (List.range ws.length).map (fun k => ws.getD k 0) = ws := by
  apply List.ext_getElem
  · simp
  · simp +contextual

theorem operandWords_readOperands {op : Op} {h : Word} {ws : List Word}
    (hlen : ws.length + 1 = op.format.words (headerA h))
    (hpad : op = .puts → paddingZero (headerA h).toNat (ws.drop 1) = true) :
    (readOperands op h ws).operandWords = ws := by
  cases op with
  | puts =>
    rw [readOperands, Instr.operandWords, packBytes_payloadChars (payload_length hlen) (hpad rfl)]
    cases ws with
    | nil =>
      simp only [Op.format, Format.words, List.length_nil] at hlen
      omega
    | cons d payload => rfl
  | _ =>
    have hws := map_getD_range ws
    rw [Nat.succ.inj hlen] at hws
    exact hws

theorem wellFormed_readOperands {op : Op} {h : Word} {ws : List Word}
    (h0 : headerDf h = true → ws.getD 0 0 = 0) : (readOperands op h ws).wellFormed = true := by
  cases op with
  | configure => exact wellFormed_configure.2 h0
  | puts =>
    refine wellFormed_puts.2 ⟨h0, ?_⟩
    have hbyte := (headerA h).isLt
    rw [payloadChars, List.length_take]
    omega
  | _ => rfl

theorem encode_decode {p : List Word} {i : Instr} (hd : decode p = .ok i) :
    i.wellFormed = true ∧ encode i = p := by
  cases p with
  | nil => cases hd
  | cons h ws =>
    obtain ⟨op, hop, hres, ha, hdf, hlen, h0, hpad, rfl⟩ := decode_ok hd
    refine ⟨wellFormed_readOperands h0, ?_⟩
    rw [encode_eq, op_readOperands, code_of_opOfCode hop, fieldA_readOperands ha hlen,
      fieldDf_readOperands ws hdf, operandWords_readOperands hlen hpad, headerWord_fields h hres]

/-- Settles O3: the command read from a packet has that packet's header fields and operand words. -/
theorem encodeOfDecodeIsThePacket : Obligations.EncodeOfDecodeIsThePacket :=
  fun _ _ => encode_decode

end Sys2Proof
end

section
/-! SUPPORT. Which packets decode (30_encoding.md R68): the tests of the decoder as one equivalence, each of them in
plain arithmetic on the words, and the length of a packet (R67), with the obligations about them. -/

namespace Sys2Proof

/-! ## The length of a packet (R67) -/

theorem packetLength_of_opOfCode {h : Word} {op : Op} (hop : opOfCode (headerOp h) = some op) :
    packetLength h = op.format.words (headerA h) := by
  rw [packetLength, hop]

/-- Every packet has a header, and the longest one is a `PUTS` of 255 characters. -/
theorem words_bounds (f : Format) (a : Byte) : 1 ≤ f.words a ∧ f.words a ≤ 66 := by
  cases f with
  | S =>
    have ha := a.isLt
    simp only [Format.words]
    omega
  | _ => simp [Format.words]

/-- Settles O5: the decoder's length test (`decode_ok`), and the length of each format. -/
theorem packetLengthComesFromTheHeader : Obligations.PacketLengthComesFromTheHeader := by
  intro h ws i hd
  obtain ⟨op, hop, -, -, -, hlen, -, -, rfl⟩ := decode_ok hd
  rw [packetLength_of_opOfCode hop]
  obtain ⟨hmin, hmax⟩ := words_bounds op.format (headerA h)
  refine ⟨hlen, hmin, hmax, ?_⟩
  cases op with
  | puts =>
    simp only [readOperands, payloadChars_length (payload_length hlen)]
    rfl
  | _ => rfl

/-! ## The tests of the decoder as one equivalence -/

theorem decode_ok_iff (h : Word) (ws : List Word) :
    (∃ i, decode (h :: ws) = .ok i) ↔
      ∃ op : Op, headerOp h = op.code ∧ headerReserved h = 0 ∧
        (op.format.aMustBeZero = true → headerA h = 0) ∧ (headerDf h = true → op.dfAllowed = true) ∧
        ws.length + 1 = op.format.words (headerA h) ∧ (headerDf h = true → ws.getD 0 0 = 0) ∧
        (op = .puts → paddingZero (headerA h).toNat (ws.drop 1) = true) := by
  constructor
  · rintro ⟨i, hd⟩
    obtain ⟨op, hop, hres, ha, hdf, hlen, h0, hpad, -⟩ := decode_ok hd
    exact ⟨op, (code_of_opOfCode hop).symm, hres, ha, hdf, hlen, h0, hpad⟩
  · rintro ⟨op, hop, hres, ha, hdf, hlen, h0, hpad⟩
    rw [← headerWord_fields h hres, hop]
    exact ⟨_, decode_headerWord op _ _ ws ha hdf hlen h0 hpad⟩

/-! ## The header in plain arithmetic (R61) -/

theorem headerOp_toNat (h : Word) : (headerOp h).toNat = h.toNat % 256 := by
  rw [headerOp, BitVec.extractLsb'_toNat, Nat.shiftRight_zero]

theorem headerA_toNat (h : Word) : (headerA h).toNat = h.toNat / 256 % 256 := by
  rw [headerA, BitVec.extractLsb'_toNat, Nat.shiftRight_eq_div_pow]

theorem headerA_eq_zero_iff (h : Word) : headerA h = 0 ↔ h.toNat / 256 % 256 = 0 := by
  rw [← headerA_toNat, ← BitVec.toNat_inj]
  rfl

theorem headerReserved_eq_zero_iff (h : Word) : headerReserved h = 0 ↔ h.toNat / 131072 = 0 := by
  have hh := h.isLt
  rw [← BitVec.toNat_inj, headerReserved, BitVec.extractLsb'_toNat, Nat.shiftRight_eq_div_pow,
    Nat.mod_eq_of_lt (by omega)]
  rfl

theorem headerDf_iff (h : Word) : headerDf h = true ↔ h.toNat / 65536 % 2 = 1 := by
  rw [headerDf, BitVec.getLsbD, Nat.testBit_eq_decide_div_mod_eq, decide_eq_true_iff]

/-! ## The opcodes in plain arithmetic (R66) -/

theorem exists_code_iff (n : Nat) :
    (∃ o : Op, n = o.code.toNat) ↔
      n ∈ [0x01, 0x10, 0x11, 0x12, 0x13, 0x14, 0x20, 0x21, 0x22, 0x23, 0x24, 0x30, 0x31] := by
  constructor
  · rintro ⟨o, rfl⟩
    cases o <;> decide
  · intro hn
    have hmem : ∀ n ∈ [0x01, 0x10, 0x11, 0x12, 0x13, 0x14, 0x20, 0x21, 0x22, 0x23, 0x24, 0x30, 0x31],
        ∃ o ∈ Op.all, n = o.code.toNat := by decide
    obtain ⟨o, -, ho⟩ := hmem n hn
    exact ⟨o, ho⟩

theorem aMustBeZero_eq_false_iff (o : Op) :
    o.format.aMustBeZero = false ↔ o.code.toNat ∈ [0x23, 0x24, 0x30, 0x31] := by
  cases o <;> decide

theorem dfAllowed_iff (o : Op) : o.dfAllowed = true ↔ o.code.toNat ∈ [0x10, 0x24] := by
  cases o <;> decide

theorem eq_puts_iff (o : Op) : o = .puts ↔ o.code.toNat = 0x24 := by
  cases o <;> decide

/-- The length of each format, by the opcodes that have it. -/
theorem words_iff (o : Op) (a : Byte) (n : Nat) :
    n + 1 = o.format.words a ↔
      (o.code.toNat ∈ [0x12, 0x13, 0x14, 0x22] → n = 0) ∧
      (o.code.toNat ∈ [0x01, 0x10, 0x20, 0x21, 0x23] → n = 1) ∧
      (o.code.toNat = 0x11 → n = 2) ∧
      (o.code.toNat ∈ [0x30, 0x31] → n = 3) ∧
      (o.code.toNat = 0x24 → n = 1 + (a.toNat + 3) / 4) := by
  cases o with
  | puts =>
    have hlen : n + 1 = 2 + (a.toNat + 3) / 4 ↔ n = 1 + (a.toNat + 3) / 4 := by omega
    simpa [Op.code, Op.format, Format.words] using hlen
  | _ => simp [Op.code, Op.format, Format.words]

/-! ## The decoder's tests in plain arithmetic (R68) -/

/-- Step 3. -/
theorem aTest_iff (h : Word) (o : Op) :
    (o.format.aMustBeZero = true → headerA h = 0) ↔
      h.toNat / 256 % 256 = 0 ∨ o.code.toNat ∈ [0x23, 0x24, 0x30, 0x31] := by
  rw [← headerA_eq_zero_iff, ← aMustBeZero_eq_false_iff]
  cases o.format.aMustBeZero <;> simp

/-- Step 4. -/
theorem dfTest_iff (h : Word) (o : Op) :
    (headerDf h = true → o.dfAllowed = true) ↔
      h.toNat / 65536 % 2 = 0 ∨ o.code.toNat ∈ [0x10, 0x24] := by
  rw [headerDf_iff, dfAllowed_iff, ← Nat.mod_two_ne_one, imp_iff_not_or]

/-- The bytes behind the first `n` are all 0. -/
theorem all_zero_drop_iff (bs : List Byte) (n : Nat) :
    (bs.drop n).all (· == 0) = true ↔ ∀ k, n ≤ k → k < bs.length → bs.getD k 0 = 0 := by
  simp only [List.all_eq_true, beq_iff_eq, List.mem_drop_iff_getElem]
  constructor
  · intro h k hk hlt
    obtain ⟨j, rfl⟩ := Nat.exists_eq_add_of_le hk
    rw [List.getD_eq_getElem _ _ hlt]
    exact h _ ⟨j, by omega, rfl⟩
  · rintro h b ⟨j, hj, rfl⟩
    rw [← List.getD_eq_getElem _ 0]
    exact h _ (Nat.le_add_right n j) (by omega)

/-- Step 7. -/
theorem paddingTest_iff (len : Nat) (ws : List Word) :
    paddingZero len (ws.drop 1) = true ↔ ∀ k, len ≤ k → k < 4 * (ws.length - 1) →
      (ws.getD (1 + k / 4) 0).toNat / 2 ^ (8 * (k % 4)) % 256 = 0 := by
  rw [paddingZero, all_zero_drop_iff, bytesOfWords_length, List.length_drop]
  refine forall_congr' fun k => imp_congr_right fun _ => imp_congr_right fun hk => ?_
  have hword : (ws.drop 1).getD (k / 4) 0 = ws.getD (1 + k / 4) 0 := by
    simp only [List.getD, List.getElem?_drop]
  rw [bytesOfWords_getD _ (by rwa [List.length_drop]), hword,
    ← wordBytes_getD_toNat _ (Nat.mod_lt k (by decide)), ← BitVec.toNat_inj]
  rfl

theorem headerOp_eq_code_iff (h : Word) (o : Op) :
    headerOp h = o.code ↔ h.toNat % 256 = o.code.toNat := by
  rw [← headerOp_toNat, BitVec.toNat_inj]

/-- Settles O4: the decoder's tests (`decode_ok_iff`), each in plain arithmetic for the opcode of the header. -/
theorem legalPacketsAreExactlyThese : Obligations.LegalPacketsAreExactlyThese := by
  intro h ws op a df
  rw [decode_ok_iff, ← exists_code_iff, ← exists_and_right]
  refine exists_congr fun o => ?_
  rw [headerOp_eq_code_iff]
  refine and_congr_right fun hop => ?_
  rw [headerReserved_eq_zero_iff, aTest_iff, dfTest_iff, words_iff, headerDf_iff, eq_puts_iff,
    paddingTest_iff, headerA_toNat, ← hop]
  simp only [and_assoc, op, a, df]

end Sys2Proof
end

section
/-! SUPPORT. A step from a state of the invariant goes on, and the response of a command, with the obligations
about them. -/

namespace Sys2Proof.Machine

/-! ## A step that goes on -/

theorem busyStep_next {s : State} (h : s.blState ≠ .off) : ∃ t, busyStep s = .next t := by
  obtain ⟨t, ht⟩ := continueBlink_next h
  rw [busyStep, ht]
  exact raceReset_next _ s t

theorem step_next_of_ready {s : State} (hr : s.ready = true) : ∃ t, step s = .next t := by
  cases hi : s.inputs with
  | nil => exact ⟨s, by rw [step, if_pos hr, hi]⟩
  | cons x rest =>
    cases x with
    | idle d => exact ⟨idleFor d rest s, by rw [step, if_pos hr, hi]⟩
    | reset n => exact ⟨resetBlock rest s, by rw [step, if_pos hr, hi]⟩
    | packet a b =>
      obtain ⟨t, ht⟩ := runPacket_next a b (acceptPacket rest s)
      rw [step_packet hr hi, ht]
      exact raceReset_next _ _ t

theorem step_next_of_busy {s : State} (hb : s.ready = false) (h : s.blState ≠ .off) :
    ∃ t, step s = .next t := by
  rw [step, if_neg (by simp [hb])]
  split
  · exact busyStep_next h
  · exact busyStep_next h

/-- Settles O16: a BUSY block of the invariant shows in a blink, so the one fault of `step` cannot come. -/
theorem invariantStatesContinue : Obligations.InvariantStatesContinue := by
  intro s h
  cases hr : s.ready with
  | true => exact step_next_of_ready hr
  | false =>
    obtain ⟨hshow, -⟩ := h.busyBlink hr
    exact step_next_of_busy hr (by simp [hshow])

/-! ## The response of a command (R70) -/

/-- The fields of a response word, lowest bits first. -/
theorem responseWord_fields (c : Code) (d : BitVec 24) :
    (responseWord c d).extractLsb' 0 3 = c.bits ∧ (responseWord c d).extractLsb' 3 5 = 0 ∧
      (responseWord c d).extractLsb' 8 24 = d := by
  refine ⟨BitVec.extractLsb'_append_eq_right, ?_, ?_⟩
  · exact (BitVec.extractLsb'_append_eq_of_le (Nat.le_refl 3)).trans BitVec.extractLsb'_append_eq_right
  · exact (BitVec.extractLsb'_append_eq_of_le (by decide)).trans BitVec.extractLsb'_append_eq_left

/-- Everything a command can leave: its end with `OK`, its end with another code, or a `BLINK` still running. -/
theorem exec_outcomes {i : Instr} {s t : State} (h : exec i s = .next t) :
    (∃ u, u.responses = s.responses ∧ t = complete i.op.code (commandData i u) u) ∨
    (∃ e u, e ≠ .ok ∧ u.responses = s.responses ∧ t = raise i.op.code e u) ∨
    (t.ready = false ∧ i.op = .blink ∧ t.responses = s.responses) := by
  rcases exec_cases h with ⟨e, he, rfl⟩ | ⟨htest, h⟩
  · refine .inr (.inl ⟨e, s, ?_, rfl, rfl⟩)
    rcases commandTest_some he with ⟨rfl, -⟩ | ⟨-, rfl | rfl⟩ <;> decide
  · have hran := ran_commandBody i s
    rcases conclude_cases h with ⟨u, hu, rfl⟩ | ⟨e, u, hu, rfl⟩ | ⟨u, hu, rfl⟩ <;> rw [hu] at hran
    · obtain ⟨_, hr, -⟩ := hran
      exact .inl ⟨u, hr.responses, rfl⟩
    · have hne : e ≠ .ok := by rcases hran.code with rfl | rfl <;> decide
      obtain ⟨_, hr, -⟩ := hran
      exact .inr (.inl ⟨e, u, hne, hr.responses, rfl⟩)
    · obtain ⟨_, hr, -⟩ := hran
      exact .inr (.inr ⟨rfl, (commandBody_running htest hu).1, hr.responses⟩)

theorem commandData_eq (i : Instr) (s : State) :
    commandData i s = if i.op = .hue2rgb then s.res else 0 := by
  cases i <;> rfl

/-- Settles O21: the ways a command can end (`exec_outcomes`), and the fields of its response word. -/
theorem oneResponsePerCommand : Obligations.OneResponsePerCommand := by
  intro i s t h
  rcases exec_outcomes h with ⟨u, hu, rfl⟩ | ⟨e, u, he, hu, rfl⟩ | hrun
  · obtain ⟨hcode, hzero, hdata⟩ := responseWord_fields .ok (commandData i u)
    refine .inl ⟨rfl, _, congrArg (· ++ [_]) hu, hcode, hzero, ?_⟩
    rw [hdata, commandData_eq]
    simp [complete, Status.ended]
  · obtain ⟨hcode, hzero, hdata⟩ := responseWord_fields e 0
    refine .inl ⟨rfl, _, congrArg (· ++ [_]) hu, hcode, hzero, ?_⟩
    rw [hdata, if_neg fun ⟨_, hok⟩ => he hok]
  · exact .inr hrun

end Sys2Proof.Machine
end

section
/-! SUPPORT. Every command the assembler accepts has an encoding (30_encoding.md R75, R76), with the obligation about
it. -/

namespace Sys2Proof.Machine

/-! ## Operands -/

/-- A string operand fits in the length field. -/
theorem stringOperand_length {t : List Char} {cs : List Byte} (h : stringOperand t = some cs) :
    cs.length ≤ 255 := by
  unfold stringOperand at h
  split at h
  next bs hbs =>
    split at h
    next hlen =>
      cases h
      exact stringLengthOk_iff.1 hlen
    next => cases h
  next => cases h

/-! ## Commands -/

/-- Whatever the option gives has an encoding. -/
def Encodable (o : Option Instr) : Prop := ∀ i ∈ o, i.wellFormed = true

theorem encodable_none : Encodable none := fun _ h => by cases h

theorem encodable_some {i : Instr} (h : i.wellFormed = true) : Encodable (some i) := by
  rintro _ ⟨⟩
  exact h

theorem encodable_map {α : Type} {o : Option α} {f : α → Instr} (h : ∀ a ∈ o, (f a).wellFormed = true) :
    Encodable (o.map f) := by
  intro i hi
  obtain ⟨a, ha, rfl⟩ := Option.map_eq_some_iff.1 hi
  exact h a ha

/-- By the branches of `assembleOperands`: of the commands with a condition, `configure` is `default` with operand 0
or has no `DF`, and a `puts` (without and with a delay) has a string operand. -/
theorem encodable_assembleOperands (p : Params) (op : Op) (args : List (List Char)) :
    Encodable (assembleOperands p op args) := by
  fun_cases assembleOperands p op args with
  | case15 t =>
    exact encodable_map fun cs hcs => wellFormed_puts.2 ⟨fun _ => rfl, stringOperand_length hcs⟩
  | case16 t d cs w hw hcs =>
    exact encodable_some (wellFormed_puts.2 ⟨nofun, stringOperand_length hcs⟩)
  | case5 | case14 | case17 | case19 | case21 | case22 => exact encodable_none
  | case1 | case3 | case4 | case9 | case10 | case12 => exact encodable_map fun _ _ => rfl
  | _ => exact encodable_some rfl

/-- A line is a command only through the operands of its mnemonic. -/
theorem assembleLine_command {p : Params} {line : List Char} {i : Instr}
    (h : assembleLine p line = .command i) : ∃ op args, assembleOperands p op args = some i := by
  unfold assembleLine at h
  dsimp only at h
  split at h
  · cases h
  · split at h
    next j hj =>
      cases h
      obtain ⟨op, -, hop⟩ := Option.bind_eq_some_iff.1 hj
      exact ⟨op, _, hop⟩
    next => cases h

/-- Settles O58: a line's command comes from `assembleOperands` (`assembleLine_command`), each branch of which gives
a well-formed one. -/
theorem assembledCommandsAreWellFormed : Obligations.AssembledCommandsAreWellFormed := by
  intro p line i h
  obtain ⟨op, args, hop⟩ := assembleLine_command h
  exact encodable_assembleOperands p op args i hop

end Sys2Proof.Machine
end

section
/-! SUPPORT. The packets written out from the spec. -/

namespace Sys2Proof

/-- Settles O1: the decoder evaluates each of these packets. -/
theorem specPacketsDecode : Obligations.SpecPacketsDecode := by
  unfold Obligations.SpecPacketsDecode
  decide

end Sys2Proof
end

section
/-! SUPPORT. The wheel in plain arithmetic: the hue function is the band table in either implementation, each
channel as a number, and the obligations about the table and its shape (40_color_wheel.md R86, R88, R91). -/

namespace Sys2Proof.Machine

open Sys2Proof.Claims

/-! ## The hue function is the band table -/

/-- The position of a hue in its band (R87). -/
theorem extractLsb_ramp (h : Nat) :
    (BitVec.ofNat 11 h).extractLsb' 0 8 = BitVec.ofNat 8 (h % 256) := by
  apply BitVec.eq_of_toNat_eq
  rw [BitVec.extractLsb'_toNat, BitVec.toNat_ofNat, BitVec.toNat_ofNat, Nat.shiftRight_zero]
  omega

/-- The band of a hue (R87). -/
theorem extractLsb_band {h : Nat} (hh : h < 2048) :
    ((BitVec.ofNat 11 h).extractLsb' 8 3).toNat = h / 256 := by
  rw [BitVec.extractLsb'_toNat, BitVec.toNat_ofNat, Nat.shiftRight_eq_div_pow]
  omega

/-- The falling ramp does not wrap. -/
theorem sub_ofNat_mod (h : Nat) :
    (255 : Byte) - BitVec.ofNat 8 (h % 256) = BitVec.ofNat 8 (255 - h % 256) := by
  have h255 : (255 : Byte).toNat = 255 := rfl
  apply BitVec.eq_of_toNat_eq
  rw [BitVec.toNat_sub, BitVec.toNat_ofNat, BitVec.toNat_ofNat, h255]
  omega

theorem hueLogic_eq_wheel {h : Nat} (hh : h < 1536) :
    hueLogic (BitVec.ofNat 11 h) = ⟨false, wheel h⟩ := by
  unfold hueLogic wheel
  simp only [extractLsb_ramp, extractLsb_band (show h < 2048 by omega), sub_ofNat_mod]
  split_ifs
  · rw [show h / 256 = 0 by omega]; rfl
  · rw [show h / 256 = 1 by omega]; rfl
  · rw [show h / 256 = 2 by omega]; rfl
  · rw [show h / 256 = 3 by omega]; rfl
  · rw [show h / 256 = 4 by omega]; rfl
  · rw [show h / 256 = 5 by omega]; rfl

theorem colourOf_eq_wheel (p : Params) {h : Nat} (hh : h < 1536) :
    colourOf p (BitVec.ofNat 11 h) = wheel h := by
  rw [colourOf, huePort_eq_hueLogic, hueLogic_eq_wheel hh]

theorem hueToRgb_eq_wheel (p : Params) {h : Nat} (hh : h < 1536) :
    hueToRgb p (BitVec.ofNat 11 h) = some (wheel h) := by
  rw [hueToRgb, huePort_eq_hueLogic, hueLogic_eq_wheel hh, if_neg Bool.false_ne_true]

theorem hueToRgb_eq_none (p : Params) {hue : BitVec 11} (hh : 1536 ≤ hue.toNat) :
    hueToRgb p hue = none := by
  rw [hueToRgb, huePort_eq_hueLogic, hueLogic_err, if_pos (decide_eq_true hh)]

/-- Settles O28: on the wheel the bands (`hueLogic_eq_wheel`), above it `hue_err` (`hueLogic_err`); the ROM reads
the same (`huePort_eq_hueLogic`). -/
theorem hueFunctionIsTheBandTable : Obligations.HueFunctionIsTheBandTable := by
  intro p h hh
  split
  next hw => exact hueToRgb_eq_wheel p hw
  next hw =>
    refine hueToRgb_eq_none p ?_
    rw [BitVec.toNat_ofNat, Nat.mod_eq_of_lt hh]
    omega

/-! ## The channels as numbers -/

/-- The rows of the band table (R86) with the channels as numbers. -/
def BandRow (h r g b : Nat) : Prop :=
  (h < 256 ∧ r = 255 ∧ g = h ∧ b = 0) ∨
  (256 ≤ h ∧ h < 512 ∧ r = 511 - h ∧ g = 255 ∧ b = 0) ∨
  (512 ≤ h ∧ h < 768 ∧ r = 0 ∧ g = 255 ∧ b = h - 512) ∨
  (768 ≤ h ∧ h < 1024 ∧ r = 0 ∧ g = 1023 - h ∧ b = 255) ∨
  (1024 ≤ h ∧ h < 1280 ∧ r = h - 1024 ∧ g = 0 ∧ b = 255) ∨
  (1280 ≤ h ∧ h < 1536 ∧ r = 255 ∧ g = 0 ∧ b = 1535 - h)

theorem bandRow_wheel {h : Nat} (hh : h < 1536) :
    BandRow h (wheel h).red.toNat (wheel h).green.toNat (wheel h).blue.toNat := by
  have hbyte {n : Nat} (hn : n < 256) : (BitVec.ofNat 8 n).toNat = n := Nat.mod_eq_of_lt hn
  have hup := hbyte (show h % 256 < 256 by omega)
  have hdown := hbyte (show 255 - h % 256 < 256 by omega)
  unfold BandRow wheel
  split_ifs
  · exact .inl ⟨by omega, rfl, hup.trans (by omega), rfl⟩
  · exact .inr (.inl ⟨by omega, by omega, hdown.trans (by omega), rfl, rfl⟩)
  · exact .inr (.inr (.inl ⟨by omega, by omega, rfl, rfl, hup.trans (by omega)⟩))
  · exact .inr (.inr (.inr (.inl ⟨by omega, by omega, rfl, hdown.trans (by omega), rfl⟩)))
  · exact .inr (.inr (.inr (.inr (.inl ⟨by omega, by omega, hup.trans (by omega), rfl, rfl⟩))))
  · exact .inr (.inr (.inr (.inr (.inr ⟨by omega, hh, rfl, rfl, hdown.trans (by omega)⟩))))

theorem rgb_eq_iff {c d : Rgb} :
    c = d ↔ c.red.toNat = d.red.toNat ∧ c.green.toNat = d.green.toNat ∧ c.blue.toNat = d.blue.toNat := by
  obtain ⟨r, g, b⟩ := c
  obtain ⟨r', g', b'⟩ := d
  simp only [Rgb.mk.injEq, BitVec.toNat_inj]

theorem count_three_eq_one_iff (a b c n : Nat) :
    [a, b, c].count n = 1 ↔
      (a = n ∧ b ≠ n ∧ c ≠ n) ∨ (a ≠ n ∧ b = n ∧ c ≠ n) ∨ (a ≠ n ∧ b ≠ n ∧ c = n) := by
  simp only [List.count_cons, List.count_nil, beq_iff_eq]
  split_ifs <;> omega

/-! ## The shape of the wheel (R88) -/

theorem wheel_extremes {h : Nat} (hh : h < 1536) :
    max (wheel h).red.toNat (max (wheel h).green.toNat (wheel h).blue.toNat) = 255 ∧
      min (wheel h).red.toNat (min (wheel h).green.toNat (wheel h).blue.toNat) = 0 := by
  have hrow := bandRow_wheel hh
  unfold BandRow at hrow
  omega

theorem wheel_one_zero_one_full_iff {h : Nat} (hh : h < 1536) :
    ([(wheel h).red.toNat, (wheel h).green.toNat, (wheel h).blue.toNat].count 0 = 1 ∧
      [(wheel h).red.toNat, (wheel h).green.toNat, (wheel h).blue.toNat].count 255 = 1) ↔
      h % 256 ≠ 0 ∧ h % 256 ≠ 255 := by
  have hrow := bandRow_wheel hh
  unfold BandRow at hrow
  rw [count_three_eq_one_iff, count_three_eq_one_iff]
  omega

theorem wheel_edge {h : Nat} (hh : h < 1536) (he : h % 256 = 255) :
    wheel h = wheel ((h + 1) % 1536) := by
  have hrow := bandRow_wheel hh
  have hnext := bandRow_wheel (Nat.mod_lt (h + 1) (by decide : 1536 > 0))
  unfold BandRow at hrow hnext
  rw [rgb_eq_iff]
  omega

theorem wheel_step {h : Nat} (hh : h < 1536) (he : h % 256 ≠ 255) :
    ((wheel h).red.toNat : Int) - (wheel (h + 1)).red.toNat +
        (((wheel h).green.toNat : Int) - (wheel (h + 1)).green.toNat) +
        (((wheel h).blue.toNat : Int) - (wheel (h + 1)).blue.toNat) ∈ [(1 : Int), -1] ∧
      (((wheel h).red = (wheel (h + 1)).red ∧ (wheel h).green = (wheel (h + 1)).green) ∨
       ((wheel h).red = (wheel (h + 1)).red ∧ (wheel h).blue = (wheel (h + 1)).blue) ∨
       ((wheel h).green = (wheel (h + 1)).green ∧ (wheel h).blue = (wheel (h + 1)).blue)) := by
  have hrow := bandRow_wheel hh
  have hnext := bandRow_wheel (show h + 1 < 1536 by omega)
  unfold BandRow at hrow hnext
  simp only [← BitVec.toNat_inj, List.mem_cons, List.not_mem_nil, or_false]
  omega

theorem wheel_shared {h k : Nat} (hlt : h < k) (hk : k < 1536) (heq : wheel h = wheel k) :
    (h % 256 = 255 ∧ k = h + 1) ∨ (h = 0 ∧ k = 1535) := by
  have hrow := bandRow_wheel (Nat.lt_trans hlt hk)
  have hrow' := bandRow_wheel hk
  unfold BandRow at hrow hrow'
  rw [rgb_eq_iff] at heq
  omega

/-- Settles O29: the hue function is `wheel` (`hueToRgb_eq_wheel`), whose shape is one lemma per property. -/
theorem wheelIsSaturatedAndContinuous : Obligations.WheelIsSaturatedAndContinuous := fun p =>
  ⟨wheel, fun _ => hueToRgb_eq_wheel p, fun _ => wheel_extremes, fun _ => wheel_one_zero_one_full_iff,
    fun _ => wheel_edge, fun _ => wheel_step, fun _ _ => wheel_shared, by decide⟩

end Sys2Proof.Machine
end

section
/-! SUPPORT. A refusal, and an end with `OK`, in the terms of the statements (`ended`); `HUE2RGB`, with the
obligation about it (40_color_wheel.md R90). -/

namespace Sys2Proof.Machine

open Sys2Proof.Claims

/-! ## The end of a command, in the terms of the statements -/

/-- An end that leaves `FATAL` as it is writes `STATUS.CODE` and `LASTOP` only. -/
theorem endCommand_eq_ended {c : Code} {s : State}
    (h : (s.status.fatal || c == .hardwareIO) = s.status.fatal) (op : Byte) (d : BitVec 24) :
    endCommand op c d s = ended op c (responseWord c d) s := by
  simp [endCommand, ended, Status.ended, h]

/-- A refused command only ends. -/
theorem exec_eq_ended_of_commandTest {i : Instr} {s : State} {e : Code} (h : commandTest i s = some e) :
    exec i s = .next (ended i.op.code e (responseWord e 0) s) := by
  rw [exec_refused h, raise, endCommand_eq_ended (fatal_of_commandTest_some h).1]

theorem fatalRefuses (i : Instr) : FatalRefuses i i.op.code :=
  fun _ h => exec_eq_ended_of_commandTest (commandTest_fatal i h)

theorem responseWord_ok (d : BitVec 24) : responseWord .ok d = d ++ 0#8 := by
  apply BitVec.eq_of_toNat_eq
  show (d ++ 0#5 ++ 0#3).toNat = _
  rw [BitVec.toNat_append, BitVec.toNat_append, BitVec.toNat_append]
  show (d.toNat <<< 5 ||| 0) <<< 3 ||| 0 = d.toNat <<< 8 ||| 0
  rw [Nat.or_zero, Nat.or_zero, Nat.or_zero, ← Nat.shiftLeft_add]

/-! ## HUE2RGB -/

theorem exec_hue2rgb_outOfRange {hue : Word} {s : State} (hf : s.status.fatal = false)
    (h : hue.toInt < 0 ∨ 1535 < hue.toInt) :
    exec (.hue2rgb hue) s = .next (ended 0x01 .invalidArgument 1 s) := by
  have hbad : hueOperandOk hue = false := not_of_iff (hueOperandOk_iff hue) (by omega)
  refine exec_eq_ended_of_commandTest ?_
  rw [commandTest, fatalTest_eq_none.2 hf, hbad]
  rfl

/-- The body stores the colour of the wheel. -/
theorem hue2rgbBody_eq {hue : Word} (h0 : 0 ≤ hue.toInt) (h1 : hue.toInt ≤ 1535) (s : State) :
    hue2rgbBody hue s = .ok { s with res := rgbBits (wheel hue.toNat) } := by
  have hnat := toInt_toNat h0
  rw [hue2rgbBody, int32, hnat, colourOf_eq_wheel _ (by omega)]

theorem exec_hue2rgb_inRange {hue : Word} {s : State} (hf : s.status.fatal = false)
    (h0 : 0 ≤ hue.toInt) (h1 : hue.toInt ≤ 1535) :
    exec (.hue2rgb hue) s = .next (ended 0x01 .ok (rgbBits (wheel hue.toNat) ++ 0#8)
      { s with res := rgbBits (wheel hue.toNat) }) := by
  have htest : commandTest (.hue2rgb hue) s = none :=
    firstFailure_eq_none.2
      ⟨fatalTest_eq_none.2 hf, argumentTest_eq_none.2 ((hueOperandOk_iff hue).2 ⟨h0, h1⟩)⟩
  rw [exec_body htest, commandBody, hue2rgbBody_eq h0 h1, conclude_ok, complete,
    endCommand_eq_ended (Bool.or_false _), responseWord_ok]
  rfl

/-- Settles O31: refused by its tests in their order, else the colour of the wheel (`hue2rgbBody_eq`). -/
theorem hue2rgbReturnsTheColour : Obligations.Hue2rgbReturnsTheColour := fun hue =>
  ⟨fatalRefuses (.hue2rgb hue), fun _ hf => ⟨exec_hue2rgb_outOfRange hf, exec_hue2rgb_inRange hf⟩⟩

end Sys2Proof.Machine
end

section
/-! SUPPORT. How the hue function is built shows nowhere: every body of a command runs alike under either
`HUE_IMPL`, with the obligation about it (40_color_wheel.md R89, 20_memory.md R43). -/

namespace Sys2Proof.Machine

/-- The block with the hue function built as given. -/
def withImpl (u : HueImpl) (s : State) : State := { s with params := { s.params with hueImpl := u } }

/-- A body's result in the block so built. -/
def Result.withImpl (u : HueImpl) : Result → Result
  | .ok s => .ok (Machine.withImpl u s)
  | .raised e s => .raised e (Machine.withImpl u s)
  | .running s => .running (Machine.withImpl u s)

/-- A body that runs alike however the hue function is built. -/
def RunsAlike (f : State → Result) : Prop := ∀ u s, f (withImpl u s) = (f s).withImpl u

/-! ## Sequences and events -/

theorem Result.withImpl_bind {g : State → Result} (hg : RunsAlike g) (u : HueImpl) (r : Result) :
    (r.withImpl u).bind g = (r.bind g).withImpl u := by
  cases r with
  | ok s => exact hg u s
  | raised e s => rfl
  | running s => rfl

theorem RunsAlike.bind {f g : State → Result} (hf : RunsAlike f) (hg : RunsAlike g) :
    RunsAlike (fun s => (f s).bind g) := by
  intro u s
  show (f (withImpl u s)).bind g = ((f s).bind g).withImpl u
  rw [hf u s, Result.withImpl_bind hg]

theorem doneEvent_withImpl (e : Event) (u : HueImpl) (s : State) :
    doneEvent e (withImpl u s) = withImpl u (doneEvent e s) := by
  cases e with
  | pinDir l => cases l <;> rfl
  | pin l b => cases l <;> rfl
  | _ => rfl

theorem failedEvent_withImpl (e : Event) (u : HueImpl) (s : State) :
    failedEvent e (withImpl u s) = withImpl u (failedEvent e s) := by
  cases e with
  | pinDir l => cases l <;> rfl
  | pin l b => cases l <;> rfl
  | _ => rfl

theorem runsAlike_emit (e : Event) : RunsAlike (emit e) := by
  intro u s
  have hanswer : answerAt (withImpl u s) 0 = answerAt s 0 := rfl
  rw [emit_eq, emit_eq, hanswer, doneEvent_withImpl, failedEvent_withImpl]
  split <;> rfl

theorem runsAlike_emitAll (evs : List Event) : RunsAlike (emitAll evs) := by
  induction evs with
  | nil => exact fun _ _ => rfl
  | cons e rest ih => exact (runsAlike_emit e).bind ih

/-! ## The seven-segment bodies -/

theorem runsAlike_clearSeq : RunsAlike clearSeq :=
  (runsAlike_emitAll clearPulse).bind (runsAlike_emitAll (shiftEvents 0))

theorem runsAlike_putcSeq (c : Byte) (d : Nat) : RunsAlike (putcSeq c d) := by
  intro u s
  have hlookup : segLookup (withImpl u s).params c = segLookup s.params c := rfl
  unfold putcSeq
  rw [hlookup]
  cases segLookup s.params c with
  | none => rfl
  | some p => exact (runsAlike_emitAll (shiftEvents p)).bind (runsAlike_emit (.wait d)) u s

theorem runsAlike_putsSeq (d : Nat) (cs : List Byte) : RunsAlike (putsSeq d cs) := by
  induction cs with
  | nil => exact fun _ _ => rfl
  | cons c rest ih => exact (runsAlike_putcSeq c d).bind ih

/-! ## The blinks -/

theorem runsAlike_blinkShow : RunsAlike blinkShow := fun u s =>
  runsAlike_putcSeq s.blChar s.blShow.toNat u { s with blState := .showing }

theorem runsAlike_blinkDark : RunsAlike blinkDark := fun u s =>
  runsAlike_clearSeq.bind (runsAlike_emit (.wait s.blIdle.toNat)) u { s with blState := .idle }

theorem endOfCycle_withImpl (u : HueImpl) (s : State) :
    endOfCycle (withImpl u s) = withImpl u (endOfCycle s) := by
  have hmode : (withImpl u s).blMode = s.blMode := rfl
  unfold endOfCycle
  rw [hmode]
  cases s.blMode <;> rfl

theorem RunsAlike.blinkNext {loop : State → Result} (h : RunsAlike loop) : RunsAlike (blinkNext loop) := by
  intro u s
  unfold Machine.blinkNext
  rw [endOfCycle_withImpl, h u]
  show (if (endOfCycle s).blState = .off then _ else _) = _
  split <;> rfl

theorem runsAlike_blinkLoop (n : Nat) : RunsAlike (blinkLoop n) := by
  induction n with
  | zero => exact fun _ _ => rfl
  | succ n ih => exact (runsAlike_blinkShow.bind runsAlike_blinkDark).bind ih.blinkNext

theorem runsAlike_startBlink {load : State → State} (h : ∀ u s, load (withImpl u s) = withImpl u (load s)) :
    RunsAlike (startBlink load) := by
  intro u s
  rw [startBlink, h]
  exact runsAlike_blinkLoop (cyclesPerStep (load s)) u (load s)

theorem runsAlike_blinkcBody (c : Byte) (p q n : Word) : RunsAlike (blinkcBody c p q n) := by
  intro u s
  unfold blinkcBody
  split
  · rfl
  · exact runsAlike_startBlink (fun _ _ => rfl) u s

/-! ## The colour wheel and the strip -/

/-- The one place that reads `HUE_IMPL`. -/
theorem colourOf_withImpl (u : HueImpl) (s : State) (hue : BitVec 11) :
    colourOf (withImpl u s).params hue = colourOf s.params hue := by
  rw [colourOf, colourOf, huePort_eq_hueLogic, huePort_eq_hueLogic]

theorem hueRecord_withImpl (u : HueImpl) (s : State) : hueRecord (withImpl u s) = hueRecord s :=
  congrArg (recordOfColour s.params.globalBrightness) (colourOf_withImpl u s s.hue)

theorem runsAlike_hue2rgbBody (hue : Word) : RunsAlike (hue2rgbBody hue) := by
  intro u s
  rw [hue2rgbBody, colourOf_withImpl]
  rfl

theorem fillStrip_withImpl (u : HueImpl) (s : State) :
    fillStrip (withImpl u s) = withImpl u (fillStrip s) := by
  rw [fillStrip, hueRecord_withImpl]
  rfl

theorem shiftStrip_withImpl (u : HueImpl) (s : State) :
    shiftStrip (withImpl u s) = withImpl u (shiftStrip s) := by
  rw [shiftStrip, shiftStrip, hueRecord_withImpl, apply_ite (withImpl u)]
  rfl

/-! ## The commands -/

theorem runsAlike_commandBody (i : Instr) : RunsAlike (commandBody i) := by
  cases i with
  | hue2rgb hue => exact runsAlike_hue2rgbBody hue
  | configure df n =>
    exact fun u s => (runsAlike_emitAll (busEvents s.params)).bind
      (g := fun t => .ok (buildStrip (effectiveCount df n).toNat t)) (fun _ _ => rfl) u s
  | set index led => exact fun _ _ => rfl
  | advance =>
    exact fun u s => congrArg Result.ok
      (fillStrip_withImpl u { s with hue := nextHue Config.wrapAdvance s.hue })
  | scroll =>
    exact fun u s => congrArg Result.ok
      (shiftStrip_withImpl u { s with hue := nextHue Config.wrapScroll s.hue })
  | render =>
    exact fun u s => runsAlike_emitAll ((frameBytes (memRead s.buf 0 s.ledcnt)).map Event.byte) u s
  | segcfg d =>
    exact (runsAlike_emitAll dirEvents).bind
      (g := fun t => .ok { t with defdelay := d, status := { t.status with segcfg := true } })
      (fun _ _ => rfl)
  | write v => exact runsAlike_emitAll (shiftEvents (v.extractLsb' 0 8))
  | clear => exact runsAlike_clearSeq
  | putc c d => exact runsAlike_putcSeq c (uint32 d)
  | puts df d cs => exact fun u s => runsAlike_putsSeq (putsDelay df d s) cs u s
  | blinkc c p q n => exact runsAlike_blinkcBody c p q n
  | blink c p q n => exact runsAlike_startBlink (fun _ _ => rfl)

theorem commandTest_withImpl (i : Instr) (u : HueImpl) (s : State) :
    commandTest i (withImpl u s) = commandTest i s := by
  cases i <;> rfl

theorem commandData_withImpl (i : Instr) (u : HueImpl) (s : State) :
    commandData i (withImpl u s) = commandData i s := by
  cases i <;> rfl

theorem conclude_withImpl {i : Instr} {r : Result} {t : State} (u : HueImpl)
    (h : conclude i.op (commandData i) r = .next t) :
    conclude i.op (commandData i) (r.withImpl u) = .next (withImpl u t) := by
  rcases conclude_cases h with ⟨v, rfl, rfl⟩ | ⟨e, v, rfl, rfl⟩ | ⟨v, rfl, rfl⟩
  · rw [Result.withImpl, conclude_ok, commandData_withImpl]
    rfl
  · rfl
  · rfl

/-- Settles O30: the tests read nothing of `HUE_IMPL`, the bodies run alike (`runsAlike_commandBody`), and so do
their ends. -/
theorem hueTableAndLogicRunAlike : Obligations.HueTableAndLogicRunAlike := by
  intro i s t u h
  show exec i (withImpl u s) = .next (withImpl u t)
  rcases exec_cases h with ⟨e, htest, rfl⟩ | ⟨htest, h⟩ <;> rw [← commandTest_withImpl i u] at htest
  · exact exec_refused htest
  · rw [exec_body htest, runsAlike_commandBody i u s]
    exact conclude_withImpl u h

end Sys2Proof.Machine
end

section
/-! SUPPORT. `SET`, `ADVANCE` and `SCROLL` in the terms of the statements, what repeating the latter two
leaves, and the obligations about them (41_led_strip.md R97, R99, R103, R104, R106, R107). -/

namespace Sys2Proof.Machine

open Sys2Proof.Claims

/-! ## How a command of the LED unit starts and ends -/

/-- The commands that R97 guards find the unit not configured before they look at an operand. -/
theorem commandTest_unconfigured {i : Instr} (h : i.op ∈ [Op.set, .advance, .scroll, .render]) {s : State}
    (hf : s.status.fatal = false) (hc : s.status.ledcfg = false) :
    commandTest i s = some .notConfigured := by
  have hpre : ledPreamble s = some .notConfigured := by simp [ledPreamble, hf, hc]
  cases i with
  | set index led => rw [commandTest, hpre]; rfl
  | advance => exact hpre
  | scroll => exact hpre
  | render => exact hpre
  | _ => simp [Instr.op] at h

theorem ledPreamble_refuses {i : Instr} (h : i.op ∈ [Op.set, .advance, .scroll, .render]) :
    LedPreamble i i.op.code :=
  ⟨fatalRefuses i, fun _ hf hc => exec_eq_ended_of_commandTest (commandTest_unconfigured h hf hc)⟩

theorem endCommand_ok_eq_endedOk (op : Byte) (s : State) : endCommand op .ok 0 s = endedOk op s :=
  endCommand_eq_ended (Bool.or_false _) op 0

/-- A command whose tests pass and whose body goes through, with no `DATA`. -/
theorem exec_eq_endedOk {i : Instr} {s t : State} (ht : commandTest i s = none)
    (hb : commandBody i s = .ok t) (hop : i.op ≠ .hue2rgb) :
    exec i s = .next (endedOk i.op.code t) := by
  have hdata : commandData i t = 0 := by rw [commandData_eq, if_neg hop]
  rw [exec_body ht, hb, conclude_ok, complete, hdata, endCommand_ok_eq_endedOk]

/-! ## SET (R99) -/

/-- The record of an LED word in plain arithmetic. -/
theorem ledOfWord_eq (w : Word) :
    ledOfWord w = ⟨BitVec.ofNat 5 (w.toNat / 2 ^ 24), BitVec.ofNat 8 (w.toNat / 2 ^ 16),
      BitVec.ofNat 8 (w.toNat / 2 ^ 8), BitVec.ofNat 8 w.toNat⟩ := by
  simp only [ledOfWord, BitVec.extractLsb', Nat.shiftRight_eq_div_pow, Nat.pow_zero, Nat.div_one]

/-- Settles O33: refused by its tests in their order, else one write to the buffer, of which a read knows the
record (`read_write_same`) and spares the others (`read_write_other`). -/
theorem setWritesOneRecord : Obligations.SetWritesOneRecord := by
  refine fun index led => ⟨ledPreamble_refuses (i := .set index led) (by simp [Instr.op]), fun s hu =>
    ⟨fun hbad => ?_, fun h0 hlt => ⟨Buffer.write index.toNat (ledOfWord led) s.buf, ?_, ?_, ?_⟩⟩⟩
  · rw [exec_set_outOfRange hu led (not_of_iff (indexOk_iff _ _) (by omega)),
      endCommand_eq_ended (Bool.or_false _)]
    rfl
  · rw [exec_set_inUse hu led ((indexOk_iff _ _).2 ⟨h0, hlt⟩), endCommand_ok_eq_endedOk, withRecord, int32,
      toInt_toNat h0]
    rfl
  · rw [read_write_same, ledOfWord_eq]
  · exact fun j hj => read_write_other _ _ hj

/-! ## ADVANCE and SCROLL (R103, R106) -/

/-- The record of the current hue is the band table's (R86). -/
theorem hueRecord_eq_wheelRecord {s : State} (h : s.hue.toNat < 1536) :
    hueRecord s = wheelRecord s.params s.hue.toNat := by
  have hcolour : colourOf s.params s.hue = wheel s.hue.toNat := by
    rw [← colourOf_eq_wheel s.params h, BitVec.ofNat_toNat, BitVec.setWidth_eq]
  rw [hueRecord, hcolour]
  rfl

/-- The block with the hue moved on, behind which the records are written. -/
def hueMoved (wrap : Nat) (s : State) : State := { s with hue := nextHue wrap s.hue }

/-- The record of the hue moved on, which is on the wheel again. -/
theorem hueRecord_hueMoved {wrap : Nat} (hw : wrap < 1536) (s : State) :
    hueRecord (hueMoved wrap s) =
      wheelRecord s.params (if s.hue.toNat + 6 > 1535 then wrap else s.hue.toNat + 6) := by
  have hnext : (hueMoved wrap s).hue.toNat = _ := nextHue_toNat wrap s.hue (by omega)
  rw [hueRecord_eq_wheelRecord (by rw [hnext]; split <;> omega), hnext]
  rfl

/-- The block behind an `ADVANCE`. -/
def advanced (s : State) : State := endedOk Op.advance.code (fillStrip (hueMoved Config.wrapAdvance s))

/-- The block behind a `SCROLL`. -/
def scrolled (s : State) : State := endedOk Op.scroll.code (shiftStrip (hueMoved Config.wrapScroll s))

theorem exec_advance {s : State} (hu : LedUsable s) : exec .advance s = .next (advanced s) :=
  exec_eq_endedOk (i := .advance) (ledPreamble_eq_none.2 hu) rfl (by decide)

theorem exec_scroll {s : State} (hu : LedUsable s) : exec .scroll s = .next (scrolled s) :=
  exec_eq_endedOk (i := .scroll) (ledPreamble_eq_none.2 hu) rfl (by decide)

/-- `SCROLL`'s shift writes the records and nothing else. -/
theorem shiftStrip_eq (s : State) : shiftStrip s = { s with buf := (shiftStrip s).buf } := by
  unfold shiftStrip
  split <;> rfl

theorem advanced_hue_toNat (s : State) :
    (advanced s).hue.toNat = if s.hue.toNat + 6 > 1535 then 0 else s.hue.toNat + 6 :=
  nextHue_toNat Config.wrapAdvance s.hue (by decide)
@[simp] theorem advanced_ledcnt (s : State) : (advanced s).ledcnt = s.ledcnt := rfl

/-- Every record behind an `ADVANCE`. -/
theorem read_advanced (s : State) (j : Nat) :
    Buffer.read (advanced s).buf j =
      if j < s.ledcnt then hueRecord (hueMoved Config.wrapAdvance s) else Buffer.read s.buf j :=
  fillStrip_read (hueMoved Config.wrapAdvance s) j

theorem scrolled_eq (s : State) :
    scrolled s = endedOk Op.scroll.code
      { hueMoved Config.wrapScroll s with buf := (scrolled s).buf } :=
  congrArg (endedOk Op.scroll.code) (shiftStrip_eq (hueMoved Config.wrapScroll s))

theorem scrolled_hue_toNat (s : State) :
    (scrolled s).hue.toNat = if s.hue.toNat + 6 > 1535 then 6 else s.hue.toNat + 6 := by
  rw [scrolled_eq]
  exact nextHue_toNat Config.wrapScroll s.hue (by decide)
@[simp] theorem scrolled_ledcnt (s : State) : (scrolled s).ledcnt = s.ledcnt := by rw [scrolled_eq]; rfl
@[simp] theorem scrolled_params (s : State) : (scrolled s).params = s.params := by rw [scrolled_eq]; rfl

/-- Every record behind a `SCROLL`. -/
theorem read_scrolled (s : State) (j : Nat) :
    Buffer.read (scrolled s).buf j =
      if j < s.ledcnt then
        (if j = 0 then hueRecord (hueMoved Config.wrapScroll s) else Buffer.read s.buf (j - 1))
      else Buffer.read s.buf j :=
  shiftStrip_read (hueMoved Config.wrapScroll s) j

theorem ledUsable_advanced {s : State} (hu : LedUsable s) : LedUsable (advanced s) := hu

theorem ledUsable_scrolled {s : State} (hu : LedUsable s) : LedUsable (scrolled s) := by
  rw [scrolled_eq]; exact hu

/-- Settles O34: `HUE` moves on, and every record in use takes the new hue's colour (`read_advanced`). -/
theorem advanceColoursTheStrip : Obligations.AdvanceColoursTheStrip := by
  refine ⟨ledPreamble_refuses (i := .advance) (by decide), fun s hu =>
    ⟨(advanced s).buf, exec_advance hu, fun j hj => ?_, fun j hj => ?_⟩⟩
  · rw [read_advanced, if_pos hj, hueRecord_hueMoved (by decide)]
  · rw [read_advanced, if_neg (by omega)]

/-- Settles O35: `HUE` moves on, and the records move up behind the new hue's (`read_scrolled`). -/
theorem scrollShiftsTheStrip : Obligations.ScrollShiftsTheStrip := by
  refine ⟨ledPreamble_refuses (i := .scroll) (by decide), fun s hu =>
    ⟨(scrolled s).buf, ?_, fun h1 => ?_, fun j h1 hj => ?_, fun j hj => ?_⟩⟩
  · rw [exec_scroll hu]
    exact congrArg _ (scrolled_eq s)
  · rw [read_scrolled, if_pos (by omega), if_pos rfl, hueRecord_hueMoved (by decide)]
  · rw [read_scrolled, if_pos hj, if_neg (by omega)]
  · rw [read_scrolled, if_neg (by omega)]

/-! ## Repeating a command -/

/-- A command that ends in `f` on every usable strip, and leaves it usable, ends in the iterate of `f`. -/
theorem repeatsTo_iterate {i : Instr} {f : State → State}
    (hexec : ∀ {s}, LedUsable s → exec i s = .next (f s)) (hkeep : ∀ {s}, LedUsable s → LedUsable (f s))
    (k : Nat) {s : State} (hu : LedUsable s) : RepeatsTo i k s (f^[k] s) := by
  induction k generalizing s with
  | zero => rfl
  | succ k ih => exact ⟨f s, hexec hu, ih (hkeep hu)⟩

/-- What one call leaves of a state, every number of calls leaves. -/
theorem iterate_keeps {α : Type} {g : State → α} {f : State → State} (hf : ∀ s, g (f s) = g s) (k : Nat)
    (s : State) : g (f^[k] s) = g s := by
  induction k generalizing s with
  | zero => rfl
  | succ k ih => exact (ih (f s)).trans (hf s)

/-- From `HUE` = 0 the k-th `ADVANCE` leaves 6k modulo 256 calls. -/
theorem hue_iterate_advanced {s : State} (h0 : s.hue = 0) (k : Nat) :
    (advanced^[k] s).hue.toNat = 6 * (k % 256) := by
  induction k with
  | zero => rw [Function.iterate_zero, id, h0]; rfl
  | succ k ih =>
    rw [Function.iterate_succ_apply', advanced_hue_toNat, ih]
    split <;> omega

/-- Settles O36: the hue of the k-th iterate (`hue_iterate_advanced`), whose last call has given every record in
use the same colour (`read_advanced`). -/
theorem advanceHasPeriod256 : Obligations.AdvanceHasPeriod256 := by
  intro s hu h0 k hk
  refine ⟨advanced^[k] s, repeatsTo_iterate exec_advance ledUsable_advanced k hu, hue_iterate_advanced h0 k,
    iterate_keeps advanced_ledcnt k s, ?_⟩
  obtain ⟨m, rfl⟩ : ∃ m, k = m + 1 := ⟨k - 1, by omega⟩
  rw [Function.iterate_succ_apply', advanced_ledcnt]
  intro i j hi hj
  rw [read_advanced, if_pos hi, read_advanced, if_pos hj]

/-- From `HUE` = 0 the first `SCROLL` leaves 6, and from then on the period is 255 calls. -/
theorem hue_iterate_scrolled {s : State} (h0 : s.hue = 0) (k : Nat) :
    (scrolled^[k + 1] s).hue.toNat = 6 * (k % 255 + 1) := by
  induction k with
  | zero => rw [Function.iterate_one, scrolled_hue_toNat, h0]; rfl
  | succ k ih =>
    rw [Function.iterate_succ_apply', scrolled_hue_toNat, ih]
    split <;> omega

/-- The record at the front behind a `SCROLL` is that of its hue. -/
theorem read_scrolled_front {s : State} (hn : 0 < s.ledcnt) :
    Buffer.read (scrolled s).buf 0 = wheelRecord s.params (scrolled s).hue.toNat := by
  rw [read_scrolled, if_pos hn, if_pos rfl, hueRecord_hueMoved (by decide), scrolled_hue_toNat]

/-- The records behind k `SCROLL`s: the newest first, behind them the ones that stood in front before. -/
theorem read_iterate_scrolled {s : State} (h0 : s.hue = 0) (k : Nat) {j : Nat} (hj : j < s.ledcnt) :
    Buffer.read (scrolled^[k] s).buf j =
      if j < k then wheelRecord s.params (6 * ((k - 1 - j) % 255 + 1)) else Buffer.read s.buf (j - k) := by
  induction k generalizing j with
  | zero => rfl
  | succ k ih =>
    have hlen := iterate_keeps scrolled_ledcnt k s
    cases j with
    | zero =>
      have hhue := hue_iterate_scrolled h0 k
      rw [Function.iterate_succ_apply'] at hhue ⊢
      rw [read_scrolled_front (by omega), iterate_keeps scrolled_params, hhue, if_pos (Nat.succ_pos k)]
      rfl
    | succ j =>
      rw [Function.iterate_succ_apply', read_scrolled, if_pos (by omega), if_neg (Nat.succ_ne_zero j),
        Nat.add_sub_cancel, ih (by omega), Nat.add_sub_cancel, Nat.add_sub_add_right, Nat.sub_sub,
        Nat.add_comm 1 j]
      simp only [Nat.add_lt_add_iff_right]

/-- Settles O37: the hue of the k-th iterate (`hue_iterate_scrolled`) and its records
(`read_iterate_scrolled`). -/
theorem scrollHasPeriod255 : Obligations.ScrollHasPeriod255 := by
  intro s hu h0 k hk
  have hlen := iterate_keeps scrolled_ledcnt k s
  refine ⟨scrolled^[k] s, repeatsTo_iterate exec_scroll ledUsable_scrolled k hu, ?_, hlen,
    fun j hjk hj => ?_, fun j hkj hj => ?_⟩
  · obtain ⟨m, rfl⟩ : ∃ m, k = m + 1 := ⟨k - 1, by omega⟩
    exact hue_iterate_scrolled h0 m
  · rw [read_iterate_scrolled h0 k (by omega), if_pos hjk]
  · rw [read_iterate_scrolled h0 k (by omega), if_neg (by omega)]

end Sys2Proof.Machine
end

section
/-! SUPPORT. A command that sends events on the serial bus, whole and with one that fails; `CONFIGURE`, `RENDER`
and the frame by its bytes, with the obligations about them (41_led_strip.md R95, R109, R110). -/

namespace Sys2Proof.Machine

open Sys2Proof.Claims

/-! ## A command's answered events, one of which fails -/

/-- The event that fails, among events that are all answered. -/
theorem emitAll_fails_at {evs : List Event} (hall : ∀ e ∈ evs, e.answered = true) {s : State} {k : Nat}
    (hk : k < evs.length) (hd : AnswersDone s k) (hf : answerAt s k = .fail) :
    emitAll evs s = .raised .hardwareIO (failedEvent evs[k] (doneEvents (evs.take k) s)) := by
  have hcount : answeredCount (evs.take k) = k := answeredCount_take evs hall k hk.le
  exact emitAll_fails evs s k _ (List.getElem?_eq_getElem hk) (hall _ (List.getElem_mem hk))
    (by rwa [hcount]) (by rwa [hcount])

/-- The block that a failed event leaves. -/
theorem failedAt_raise {evs : List Event} {s : State} {k : Nat} (hk : k < evs.length) (op : Byte) :
    FailedAt evs k op s (raise op .hardwareIO (failedEvent evs[k] (doneEvents (evs.take k) s))) := by
  refine ⟨⟨evs[k], List.getElem?_eq_getElem hk, ?_⟩, ?_, ?_, rfl, rfl⟩
  · rw [raise, endCommand_trace, failedEvent_trace, doneEvents_trace]
    rfl
  · simp [raise, Status.ended]
  · rw [raise, endCommand_responses, failedEvent_responses, doneEvents_responses]
    rfl

theorem sameStores_raise (e : Event) (evs : List Event) (op : Byte) (c : Code) (s : State) :
    SameStores s (raise op c (failedEvent e (doneEvents evs s))) := by
  simp [SameStores, raise]

/-- A command whose body is answered events and a write behind them stops at the one that fails, before the
write. -/
theorem exec_fails_at {i : Instr} {evs : List Event} {write : State → Result} {s : State}
    (ht : commandTest i s = none) (hb : commandBody i s = (emitAll evs s).bind write)
    (hall : ∀ e ∈ evs, e.answered = true) {k : Nat} (hk : k < evs.length) (hd : AnswersDone s k)
    (hf : answerAt s k = .fail) :
    ∃ t, exec i s = .next t ∧ FailedAt evs k i.op.code s t ∧ SameStores s t := by
  rw [exec_body ht, hb, emitAll_fails_at hall hk hd hf, bind_raised, conclude_raised]
  exact ⟨_, rfl, failedAt_raise hk _, sameStores_raise _ _ _ _ s⟩

/-! ## Events on the serial bus -/

/-- Whether an event is on the serial bus, not on a line and no wait (00_scope.md R8). -/
def Event.onBus : Event → Bool
  | .busMode _ => true
  | .busBitOrder _ => true
  | .busFreq _ => true
  | .byte _ => true
  | .pinDir _ => false
  | .pin _ _ => false
  | .wait _ => false

/-- Every event is on the bus. -/
def OnBus (evs : List Event) : Prop := ∀ e ∈ evs, e.onBus = true

/-- An event on the bus is answered, takes `T_BYTE` and touches no line. -/
theorem Event.of_onBus {e : Event} (h : e.onBus = true) :
    e.answered = true ∧ (∀ p, eventTicks p e = p.tByte) ∧ ∀ l, e ≠ .pinDir l ∧ ∀ b, e ≠ .pin l b := by
  cases e with
  | pinDir l => cases h
  | pin l b => cases h
  | wait d => cases h
  | _ => simp [Event.answered, eventTicks]

theorem OnBus.answered {evs : List Event} (h : OnBus evs) : ∀ e ∈ evs, e.answered = true :=
  fun e he => (Event.of_onBus (h e he)).1

theorem OnBus.answeredCount {evs : List Event} (h : OnBus evs) : answeredCount evs = evs.length :=
  answeredCount_all evs h.answered

theorem OnBus.ticks {evs : List Event} (h : OnBus evs) (p : Params) :
    ticksOf p evs = evs.length * p.tByte := by
  have hticks : ∀ e ∈ evs, eventTicks p e = p.tByte := fun e he =>
    have ⟨_, ht, _⟩ := Event.of_onBus (h e he)
    ht p
  rw [ticksOf, List.map_congr_left hticks, List.map_const', List.sum_replicate, smul_eq_mul]

theorem OnBus.spares {evs : List Event} (h : OnBus evs) (l : Line) : Spares l evs :=
  fun e he =>
    have ⟨_, _, hline⟩ := Event.of_onBus (h e he)
    hline l

/-- Events on the bus add to the trace and take their ticks. -/
theorem OnBus.block_doneEvents {evs : List Event} (h : OnBus evs) (s : State) :
    block (doneEvents evs s) = block (emitted evs (evs.length * s.params.tByte) s) := by
  rw [doneEvents_eq, levelAfter_of_spares (h.spares .data), levelAfter_of_spares (h.spares .clock),
    levelAfter_of_spares (h.spares .latch), levelAfter_of_spares (h.spares .clear),
    oeAfter_noPinDir evs _ (fun e he l => (h.spares l e he).1), h.ticks]
  rfl

/-- A command of the strip that sends such events, one of which fails, leaves the lines and the blink registers
too. -/
theorem exec_fails_on_bus {i : Instr} (hi : i.op = .configure ∨ i.op = .render) {evs : List Event}
    (hbus : OnBus evs) {write : State → Result} {s : State} (ht : commandTest i s = none)
    (hb : commandBody i s = (emitAll evs s).bind write) {k : Nat} (hk : k < evs.length)
    (hd : AnswersDone s k) (hf : answerAt s k = .fail) :
    ∃ t, exec i s = .next t ∧ FailedAt evs k i.op.code s t ∧ SameStores s t ∧ SameLines s t ∧
      SameBlink s t := by
  obtain ⟨t, hexec, hfailed, hstores⟩ := exec_fails_at ht hb hbus.answered hk hd hf
  have hframe := frame_exec hexec
  refine ⟨t, hexec, hfailed, hstores, hframe.lines ?_, hframe.blink ?_⟩
  · rcases hi with h | h <;> rw [h] <;> decide
  · rcases hi with h | h <;> rw [h] <;> decide

theorem block_endedOk (op : Byte) (s : State) : block (endedOk op s) = endedOk op (block s) := rfl

/-! ## CONFIGURE (R95) -/

theorem onBus_busEvents (p : Params) : OnBus (busEvents p) := by
  simp [OnBus, busEvents, Event.onBus]

/-- Records written from nothing are listed in order. -/
theorem memWrite_nil_replicate (r : LedRecord) (a n : Nat) :
    memWrite [] a (List.replicate n r) = (List.range' a n).map (fun i => (i, r)) := by
  induction n generalizing a with
  | zero => rfl
  | succ n ih =>
    rw [List.replicate_succ, memWrite, ih, List.range'_succ, List.map_cons]
    cases n with
    | zero => rfl
    | succ n => rw [List.range'_succ, List.map_cons, Buffer.write, if_pos (Nat.lt_succ_self a)]

theorem block_buildStrip (n : Nat) (s : State) : block (buildStrip n s) = buildStrip n (block s) := rfl

theorem commandTest_configure_inRange {df : Bool} {w : Word} {s : State} (hf : s.status.fatal = false)
    (h0 : 0 ≤ effectiveCount df w) (hmax : effectiveCount df w ≤ s.params.ledCountMax) :
    commandTest (.configure df w) s = none :=
  firstFailure_eq_none.2
    ⟨fatalTest_eq_none.2 hf, argumentTest_eq_none.2 ((countOk_iff _ _).2 ⟨h0, hmax⟩)⟩

theorem exec_configure_outOfRange {df : Bool} {w : Word} {s : State} (hf : s.status.fatal = false)
    (h : effectiveCount df w < 0 ∨ (s.params.ledCountMax : Int) < effectiveCount df w) :
    exec (.configure df w) s = .next (ended 0x10 .invalidArgument 1 s) := by
  have hbad : countOk s.params (effectiveCount df w) = false := not_of_iff (countOk_iff _ _) (by omega)
  refine exec_eq_ended_of_commandTest ?_
  rw [commandTest, fatalTest_eq_none.2 hf, hbad]
  rfl

theorem exec_configure_done {df : Bool} {w : Word} {s : State} (ht : commandTest (.configure df w) s = none)
    (hd : AnswersDone s 3) :
    exec (.configure df w) s = .next (endedOk 0x10
      (buildStrip (effectiveCount df w).toNat (doneEvents (busEvents s.params) s))) := by
  refine exec_eq_endedOk (i := .configure df w) ht ?_ (by simp [Instr.op])
  rw [commandBody, configureBody, emitAll_done _ _ hd, bind_ok]

/-- Settles O32: refused by its tests in their order, else three events on the bus and the strip behind them
(`buildStrip`), which an event that fails does not reach (`exec_fails_on_bus`). -/
theorem configureBuildsTheStrip : Obligations.ConfigureBuildsTheStrip := by
  refine fun df w => ⟨fatalRefuses (.configure df w), fun s hf =>
    ⟨exec_configure_outOfRange hf, fun h0 hmax hd => ?_, fun h0 hmax k hk hd hfail => ?_⟩⟩
  · refine ⟨_, exec_configure_done (commandTest_configure_inRange hf h0 hmax) hd, ?_⟩
    rw [block_endedOk, block_buildStrip, (onBus_busEvents s.params).block_doneEvents, buildStrip,
      memWrite_nil_replicate, ← List.range_eq_range']
    rfl
  · exact exec_fails_on_bus (.inl rfl) (onBus_busEvents s.params) (commandTest_configure_inRange hf h0 hmax)
      rfl hk hd hfail

/-! ## RENDER (R109) -/

theorem onBus_frame (m : Buffer) (n : Nat) : OnBus (frame m n) := by
  rw [← frameBytes_map_byte]
  simp [OnBus, Event.onBus]

theorem length_frame (m : Buffer) (n : Nat) : (frame m n).length = 8 + 4 * n := by
  rw [← (onBus_frame m n).answeredCount, answeredCount_frame]

theorem block_rendered (s : State) :
    block (rendered s) =
      block (endedOk 0x14 (emitted (frame s.buf s.ledcnt) ((8 + 4 * s.ledcnt) * s.params.tByte) s)) := by
  rw [rendered, complete, endCommand_ok_eq_endedOk, block_endedOk, (onBus_frame _ _).block_doneEvents,
    length_frame]
  rfl

theorem commandBody_render (s : State) :
    commandBody .render s = (emitAll (frame s.buf s.ledcnt) s).bind .ok := by
  rw [commandBody, frameBytes_map_byte]
  cases emitAll (frame s.buf s.ledcnt) s <;> rfl

/-- Settles O38: the body is the frame's events and nothing else (`commandBody_render`). -/
theorem renderSendsTheFrame : Obligations.RenderSendsTheFrame := by
  refine ⟨ledPreamble_refuses (i := .render) (by decide), fun s hu =>
    ⟨fun hd => ⟨rendered s, exec_render_done hu hd, block_rendered s⟩, fun k hk hd hfail => ?_⟩⟩
  exact exec_fails_on_bus (i := .render) (.inr rfl) (onBus_frame _ _) (ledPreamble_eq_none.2 hu)
    (commandBody_render s) (by rwa [length_frame]) hd hfail

/-! ## The frame by its bytes (R110) -/

/-- The 32-bit word of a record in a frame, `{0b111, record}`. -/
def ledWord (r : LedRecord) : Word := (0b111#3 ++ r.brightness ++ r.blue ++ r.green ++ r.red : BitVec 32)

/-- Byte `f` of an LED word, counted from the top. -/
def wordByte (w : Word) (f : Nat) : Byte := BitVec.ofNat 8 (w.toNat / 2 ^ (24 - 8 * f))

theorem wordByte_eq (w : Word) (f : Nat) : wordByte w f = w.extractLsb' (24 - 8 * f) 8 := by
  rw [wordByte, BitVec.extractLsb', Nat.shiftRight_eq_div_pow]

/-- The four bytes of an LED are those of its word. -/
theorem ledGroup_eq (r : LedRecord) :
    ledGroup r = (List.range 4).map (fun f => Event.byte (wordByte (ledWord r) f)) := by
  have hblue : (ledWord r).extractLsb' 16 8 = r.blue := by
    rw [ledWord, BitVec.extractLsb'_append_eq_of_le (by decide), BitVec.extractLsb'_append_eq_of_le (by decide)]
    exact BitVec.extractLsb'_append_eq_right
  have hgreen : (ledWord r).extractLsb' 8 8 = r.green := by
    rw [ledWord, BitVec.extractLsb'_append_eq_of_le (by decide)]
    exact BitVec.extractLsb'_append_eq_right
  have hred : (ledWord r).extractLsb' 0 8 = r.red := BitVec.extractLsb'_append_eq_right
  have hheader : (ledWord r).extractLsb' 24 8 = (0b111#3 ++ r.brightness : BitVec 8) := by
    rw [ledWord, BitVec.extractLsb'_append_eq_of_le (by decide), BitVec.extractLsb'_append_eq_of_le (by decide),
      BitVec.extractLsb'_append_eq_of_le (by decide)]
    exact BitVec.extractLsb'_eq_self
  simp only [wordByte_eq]
  show _ = [Event.byte ((ledWord r).extractLsb' 24 8), .byte ((ledWord r).extractLsb' 16 8),
    .byte ((ledWord r).extractLsb' 8 8), .byte ((ledWord r).extractLsb' 0 8)]
  rw [hheader, hblue, hgreen, hred, ← ledBytes_map_byte]
  rfl

theorem length_ledGroups (m : Buffer) (a n : Nat) : (ledGroups m a n).length = 4 * n := by
  rw [← ledGroups_eq, List.length_map, List.length_flatMap]
  simp [ledBytes, Nat.mul_comm]

/-- Byte `j` of the records is byte `j mod 4` of record `j div 4`. -/
theorem ledGroups_getElem? (m : Buffer) (a : Nat) {n j : Nat} (hj : j < 4 * n) :
    (ledGroups m a n)[j]? = some (.byte (wordByte (ledWord (Buffer.read m (a + j / 4))) (j % 4))) := by
  induction n generalizing a j with
  | zero => omega
  | succ n ih =>
    rw [ledGroups]
    by_cases h4 : j < 4
    · rw [List.getElem?_append_left h4, ledGroup_eq, List.getElem?_map, List.getElem?_range h4,
        Nat.div_eq_of_lt h4, Nat.mod_eq_of_lt h4]
      rfl
    · obtain ⟨k, rfl⟩ : ∃ k, j = k + 4 := ⟨j - 4, by omega⟩
      rw [List.getElem?_append_right (show 4 ≤ k + 4 by omega)]
      show (ledGroups m (a + 1) n)[k]? = _
      rw [ih (a + 1) (by omega), show a + (k + 4) / 4 = a + 1 + k / 4 by omega, Nat.add_mod_right]

/-- Byte `j` of a frame. -/
theorem frame_getElem? (m : Buffer) {n j : Nat} (hj : j < 8 + 4 * n) :
    (frame m n)[j]? = some (.byte (
      if j < 4 then 0x00
      else if j < 4 + 4 * n then wordByte (ledWord (Buffer.read m ((j - 4) / 4))) ((j - 4) % 4)
      else 0xFF)) := by
  have hedge {b : Byte} {k : Nat} (hk : k < 4) :
      [Event.byte b, .byte b, .byte b, .byte b][k]? = some (.byte b) := by
    rw [show [Event.byte b, .byte b, .byte b, .byte b] = List.replicate 4 (.byte b) from rfl,
      List.getElem?_replicate_of_lt hk]
  have hgroups := length_ledGroups m 0 n
  rw [frame, List.append_assoc]
  by_cases h1 : j < 4
  · rw [if_pos h1, List.getElem?_append_left h1, hedge h1]
  rw [if_neg h1, List.getElem?_append_right (show 4 ≤ j by omega)]
  show (ledGroups m 0 n ++ _)[j - 4]? = _
  by_cases h2 : j < 4 + 4 * n
  · rw [if_pos h2, List.getElem?_append_left (by omega), ledGroups_getElem? m 0 (by omega), Nat.zero_add]
  · rw [if_neg h2, List.getElem?_append_right (by omega), hgroups, hedge (by omega)]

/-- Settles O39: the trace gets the frame, whose bytes are known by number (`frame_getElem?`). -/
theorem frameByteFormula : Obligations.FrameByteFormula := by
  refine fun s hu hd => ⟨rendered s, exec_render_done hu hd, ?_, fun j hj => ?_⟩
  · rw [rendered_trace, List.length_append, sent, List.length_map, length_frame]
  · rw [rendered_trace, List.getElem?_append_right (Nat.le_add_right _ _), Nat.add_sub_cancel_left, sent,
      List.getElem?_map, frame_getElem? s.buf hj]
    rfl

end Sys2Proof.Machine
end

section
/-! SUPPORT. A command whose body is one list of events: what it leaves when all go through, and when the k-th
answered one fails; how a command of the seven-segment unit is refused (42_seven_segment.md R118). -/

namespace Sys2Proof.Machine

open Sys2Proof.Claims

/-! ## The answered events of a list by their number -/

/-- Event `j` of the list is its `k`-th answered event, counted from 0. -/
def AnsweredAt (evs : List Event) (k j : Nat) : Prop :=
  ∃ e, evs[j]? = some e ∧ e.answered = true ∧ answeredCount (evs.take j) = k

theorem AllPins.answeredAt {evs : List Event} (h : AllPins evs) {k : Nat} (hk : k < evs.length) :
    AnsweredAt evs k k :=
  ⟨evs[k], List.getElem?_eq_getElem hk, h.answered _ (List.getElem_mem hk),
    answeredCount_take evs h.answered k hk.le⟩

theorem AnsweredAt.append_right {a : List Event} {k j : Nat} (h : AnsweredAt a k j) (b : List Event) :
    AnsweredAt (a ++ b) k j := by
  obtain ⟨e, hj, he, hcount⟩ := h
  have hlt : j < a.length := (List.getElem?_eq_some_iff.1 hj).1
  exact ⟨e, by rwa [List.getElem?_append_left hlt], he, by rwa [List.take_append_of_le_length hlt.le]⟩

theorem AnsweredAt.append_left {b : List Event} {k j : Nat} (h : AnsweredAt b k j) (a : List Event) :
    AnsweredAt (a ++ b) (answeredCount a + k) (a.length + j) := by
  obtain ⟨e, hj, he, hcount⟩ := h
  refine ⟨e, ?_, he, ?_⟩
  · rwa [List.getElem?_append_right (Nat.le_add_right _ _), Nat.add_sub_cancel_left]
  · rw [List.take_length_add_append, answeredCount_append, hcount]

/-! ## A body that is one list of events -/

/-- Events that configure no line add to the trace, take their ticks and set levels. -/
theorem block_doneEvents {evs : List Event} (h : NoPinDir evs) (s : State) :
    block (doneEvents evs s) = block { emitted evs (ticksOf s.params evs) s with
      pinData := levelAfter .data evs s.pinData
      pinClock := levelAfter .clock evs s.pinClock
      pinLatch := levelAfter .latch evs s.pinLatch
      pinClear := levelAfter .clear evs s.pinClear } := by
  rw [doneEvents_eq, oeAfter_noPinDir evs _ h]
  rfl

/-- Such a command with all its events answered done. -/
theorem exec_events_done {i : Instr} {evs : List Event} {s : State} (ht : commandTest i s = none)
    (hb : commandBody i s = emitAll evs s) (hop : i.op ≠ .hue2rgb) (hd : AnswersDone s (answeredCount evs)) :
    exec i s = .next (endedOk i.op.code (doneEvents evs s)) :=
  exec_eq_endedOk ht (hb.trans (emitAll_done evs s hd)) hop

/-- Such a command with its `k`-th answered event failed stops there, in the frame of the command. -/
theorem exec_events_fail {i : Instr} {evs : List Event} {s : State} (ht : commandTest i s = none)
    (hb : commandBody i s = emitAll evs s) {k j : Nat} (hat : AnsweredAt evs k j) (hd : AnswersDone s k)
    (hf : answerAt s k = .fail) :
    ∃ t, exec i s = .next t ∧ FailedAt evs j i.op.code s t ∧ SameStores s t ∧ Frame i s t := by
  obtain ⟨e, hj, he, rfl⟩ := hat
  obtain ⟨hlt, rfl⟩ := List.getElem?_eq_some_iff.1 hj
  have hexec : exec i s =
      .next (raise i.op.code .hardwareIO (failedEvent evs[j] (doneEvents (evs.take j) s))) := by
    rw [exec_body ht, hb, emitAll_fails evs s j _ hj he hd hf, conclude_raised]
  exact ⟨_, hexec, failedAt_raise hlt _, sameStores_raise _ _ _ _ s, frame_exec hexec⟩

/-- `WRITE`, `PUTC` and `PUTS` then leave the blink registers, `CLEAR` and `PIN_OE` too. -/
theorem exec_events_fail_spares_clear {i : Instr} (hi : i.op ∈ [Op.write, .putc, .puts]) {evs : List Event}
    {s : State} (ht : commandTest i s = none) (hb : commandBody i s = emitAll evs s) {k j : Nat}
    (hat : AnsweredAt evs k j) (hd : AnswersDone s k) (hf : answerAt s k = .fail) :
    ∃ t, exec i s = .next t ∧ FailedAt evs j i.op.code s t ∧ SameStores s t ∧ SameBlink s t ∧
      t.pinClear = s.pinClear ∧ t.pinOe = s.pinOe := by
  have hother : i.op ∉ [Op.blinkc, .blink] ∧ i.op ≠ .segcfg := by
    generalize i.op = op at hi ⊢
    revert hi
    cases op <;> decide
  obtain ⟨t, hexec, hfailed, hstores, hframe⟩ := exec_events_fail ht hb hat hd hf
  exact ⟨t, hexec, hfailed, hstores, hframe.blink hother.1, hframe.pinClear hi, hframe.pinOe hother.2⟩

/-! ## How a command of the unit is refused -/

/-- The commands that R118 guards find the unit not configured before they look at an operand. -/
theorem commandTest_segUnconfigured {i : Instr}
    (h : i.op ∈ [Op.write, .clear, .putc, .puts, .blinkc, .blink]) {s : State}
    (hf : s.status.fatal = false) (hc : s.status.segcfg = false) :
    commandTest i s = some .notConfigured := by
  have hpre : segPreamble s = some .notConfigured := by simp [segPreamble, hf, hc]
  cases i with
  | write v => rw [commandTest, hpre]; rfl
  | clear => exact hpre
  | putc c d => exact hpre
  | puts df d cs => exact hpre
  | blinkc c p q n => rw [commandTest, hpre]; rfl
  | blink c p q n => rw [commandTest, hpre]; rfl
  | _ => simp [Instr.op] at h

theorem segPreamble_refuses {i : Instr} (h : i.op ∈ [Op.write, .clear, .putc, .puts, .blinkc, .blink]) :
    SegPreamble i i.op.code :=
  ⟨fatalRefuses i, fun _ hf hc => exec_eq_ended_of_commandTest (commandTest_segUnconfigured h hf hc)⟩

end Sys2Proof.Machine
end

section
/-! SUPPORT. `SEGCFG`, line by line, and the domain of the segment table, with the obligations about them
(42_seven_segment.md R115, R116, R117). -/

namespace Sys2Proof.Machine

open Sys2Proof.Claims

/-! ## The two registers of a line -/

/-- The number of a line's bit in `PIN_OE`, `{CLEAR, LATCH, CLOCK, DATA}` (10_state.md R20). -/
def oeBit : Line → Nat
  | .data => 0
  | .clock => 1
  | .latch => 2
  | .clear => 3

/-- A line's level and its bit of `PIN_OE`. -/
def lineRegs (l : Line) (s : State) : Bool × Bool := (level l s, s.pinOe.getLsbD (oeBit l))

theorem oeBit_lt (l : Line) : oeBit l < 4 := by
  cases l <;> decide

theorem getLsbD_oeMask (k l : Line) : (oeMask k).getLsbD (oeBit l) = decide (k = l) := by
  cases k <;> cases l <;> rfl

theorem getLsbD_setOe_same (l : Line) (on : Bool) (s : State) :
    (setOe l on s).pinOe.getLsbD (oeBit l) = on := by
  cases on <;> simp [setOe, getLsbD_oeMask]

theorem getLsbD_setOe_other {k l : Line} (h : k ≠ l) (on : Bool) (s : State) :
    (setOe k on s).pinOe.getLsbD (oeBit l) = s.pinOe.getLsbD (oeBit l) := by
  cases on with
  | true => simp only [setOe, if_true, BitVec.getLsbD_or, getLsbD_oeMask, h, decide_false, Bool.or_false]
  | false => simpa [setOe, getLsbD_oeMask, h] using fun _ => oeBit_lt l

theorem level_setLevel_same (l : Line) (b : Bool) (s : State) : level l (setLevel l b s) = b := by
  cases l <;> rfl

/-- A `PinDir` event writes both registers of its line. -/
theorem lineRegs_setLevel_setOe_same (l : Line) (b on : Bool) (s : State) :
    lineRegs l (setLevel l b (setOe l on s)) = (b, on) := by
  rw [lineRegs, level_setLevel_same, setLevel_pinOe, getLsbD_setOe_same]

/-- A `PinDir` event writes no register of another line. -/
theorem lineRegs_setLevel_setOe_other {k l : Line} (h : k ≠ l) (b on : Bool) (s : State) :
    lineRegs l (setLevel k b (setOe k on s)) = lineRegs l s := by
  rw [lineRegs, level_setLevel_of_ne h, setLevel_pinOe, getLsbD_setOe_other h]
  cases l <;> rfl

/-- The lines configured so far are outputs driven low, the others as they were. -/
theorem lineRegs_doneEvents_pinDir (l : Line) (ks : List Line) (s : State) :
    lineRegs l (doneEvents (ks.map .pinDir) s) = if l ∈ ks then (false, true) else lineRegs l s := by
  induction ks generalizing s with
  | nil => rfl
  | cons k ks ih =>
    have hstep : lineRegs l (doneEvent (.pinDir k) s) = if l = k then (false, true) else lineRegs l s := by
      split
      next h => subst h; exact lineRegs_setLevel_setOe_same l false true _
      next h => exact lineRegs_setLevel_setOe_other (Ne.symm h) false true _
    rw [List.map_cons, doneEvents_cons, ih, hstep]
    by_cases hk : l = k <;> by_cases hks : l ∈ ks <;> simp [hk, hks]

/-! ## SEGCFG (R115) -/

/-- The four lines in R115's order. -/
def segLines : List Line := [.data, .clock, .latch, .clear]

theorem dirEvents_eq : dirEvents = segLines.map .pinDir := rfl

theorem answered_dirEvents : ∀ e ∈ dirEvents, e.answered = true := by decide

theorem ticksOf_dirEvents (p : Params) : ticksOf p dirEvents = 4 * p.tPin := by
  simp only [ticksOf, dirEvents, List.map_cons, List.map_nil, eventTicks, List.sum_cons, List.sum_nil]
  omega

/-- What `SEGCFG` writes behind its events. -/
def configured (d : Word) (s : State) : State :=
  { s with defdelay := d, status := { s.status with segcfg := true } }

theorem exec_segcfg_done {s : State} (hf : s.status.fatal = false) (d : Word) (hd : AnswersDone s 4) :
    exec (.segcfg d) s = .next (endedOk 0x20 (configured d (doneEvents dirEvents s))) := by
  refine exec_eq_endedOk (i := .segcfg d) (fatalTest_eq_none.2 hf) ?_ (by simp [Instr.op])
  rw [commandBody, segcfgBody, emitAll_done _ _ hd, bind_ok]
  rfl

theorem block_configured (d : Word) (s : State) :
    block (endedOk 0x20 (configured d (doneEvents dirEvents s))) =
      block (endedOk 0x20 { emitted dirEvents (4 * s.params.tPin) s with
        pinOe := 0b1111
        pinData := false
        pinClock := false
        pinLatch := false
        pinClear := false
        defdelay := d
        status := { s.status with segcfg := true } }) := by
  have hoe : oeAfter dirEvents s.pinOe = 0b1111 := by
    rw [← doneEvents_pinOe]
    exact (drivenLow_dirEvents s).1
  rw [doneEvents_eq, hoe, ticksOf_dirEvents]
  rfl

/-- The lines in front of the `k`-th are those with a lower bit of `PIN_OE`. -/
theorem mem_take_segLines (l : Line) : ∀ k < 4, l ∈ segLines.take k ↔ oeBit l < k := by
  cases l <;> decide

theorem oeBit_segLines : ∀ (k : Nat) (hk : k < segLines.length), oeBit segLines[k] = k := by decide

/-- After a failed event the lines in front of its own are driven low, those behind it as they were. -/
theorem lineRegs_failed_dirEvent {k : Nat} (hk : k < dirEvents.length) {l : Line} (hl : oeBit l ≠ k)
    (s : State) :
    lineRegs l (failedEvent dirEvents[k] (doneEvents (dirEvents.take k) s)) =
      if oeBit l < k then (false, true) else lineRegs l s := by
  have hlen : k < segLines.length := hk
  have hother : segLines[k] ≠ l := fun h => hl (h ▸ oeBit_segLines k hlen)
  have hevent : dirEvents[k]'hk = .pinDir segLines[k] := by simp only [dirEvents_eq, List.getElem_map]
  have htake : dirEvents.take k = (segLines.take k).map .pinDir := by rw [dirEvents_eq, List.map_take]
  rw [hevent, htake]
  calc lineRegs l (failedEvent (.pinDir segLines[k]) (doneEvents ((segLines.take k).map .pinDir) s))
      = lineRegs l (doneEvents ((segLines.take k).map .pinDir) s) :=
        lineRegs_setLevel_setOe_other hother _ _ _
    _ = if l ∈ segLines.take k then (false, true) else lineRegs l s := lineRegs_doneEvents_pinDir ..
    _ = if oeBit l < k then (false, true) else lineRegs l s := by simp only [mem_take_segLines l k hlen]

/-- `SEGCFG` with a failed event leaves only that event's line unspecified. -/
theorem exec_segcfg_fails {s : State} (hf : s.status.fatal = false) (d : Word) {k : Nat}
    (hk : k < dirEvents.length) (hd : AnswersDone s k) (hfail : answerAt s k = .fail) :
    ∃ t, exec (.segcfg d) s = .next t ∧ FailedAt dirEvents k 0x20 s t ∧ SameStores s t ∧ SameBlink s t ∧
      (∀ l, oeBit l < k → lineRegs l t = (false, true)) ∧
      (∀ l, k < oeBit l → lineRegs l t = lineRegs l s) := by
  have hexec : exec (.segcfg d) s =
      .next (raise 0x20 .hardwareIO (failedEvent dirEvents[k] (doneEvents (dirEvents.take k) s))) := by
    rw [exec_body (i := .segcfg d) (fatalTest_eq_none.2 hf), commandBody, segcfgBody,
      emitAll_fails_at answered_dirEvents hk hd hfail, bind_raised]
    rfl
  refine ⟨_, hexec, failedAt_raise hk _, sameStores_raise _ _ _ _ s,
    (frame_exec hexec).blink (by simp [Instr.op]), fun l hl => ?_, fun l hl => ?_⟩
  · exact (lineRegs_failed_dirEvent hk hl.ne s).trans (if_pos hl)
  · exact (lineRegs_failed_dirEvent hk hl.ne' s).trans (if_neg hl.not_gt)

/-- Settles O41: the four events, one of which may fail, line by line (`exec_segcfg_fails`). -/
theorem segcfgDrivesTheLinesLow : Obligations.SegcfgDrivesTheLinesLow := by
  refine fun d => ⟨fatalRefuses (.segcfg d), fun s hf =>
    ⟨fun hd => ⟨_, exec_segcfg_done hf d hd, block_configured d s⟩, fun k hk hd hfail => ?_⟩⟩
  obtain ⟨t, hexec, hfailed, hstores, hblink, hbefore, hbehind⟩ := exec_segcfg_fails hf d hk hd hfail
  exact ⟨t, hexec, hfailed, hstores, hblink, fun h => Prod.ext_iff.1 (hbefore .data h),
    fun h => Prod.ext_iff.1 (hbefore .clock h), fun h => Prod.ext_iff.1 (hbefore .latch h),
    fun h => Prod.ext_iff.1 (hbehind .clear h)⟩

/-! ## The segment table (R116, R117) -/

/-- The lookup knows a character by its folded code only. -/
theorem segLookup_congr (p : Params) {c d : Byte} (h : foldCase c = foldCase d) :
    segLookup p c = segLookup p d := by
  rw [segLookup, h, segLookup]

theorem foldCase_of_upper {c : Byte} (h : 0x41 ≤ c.toNat ∧ c.toNat ≤ 0x5A) : foldCase c = c + 0x20 :=
  if_pos h

theorem foldCase_of_not_upper {c : Byte} (h : ¬ (0x41 ≤ c.toNat ∧ c.toNat ≤ 0x5A)) : foldCase c = c :=
  if_neg h

/-- A folded code is folded. -/
theorem foldCase_foldCase (c : Byte) : foldCase (foldCase c) = foldCase c := by
  by_cases h : 0x41 ≤ c.toNat ∧ c.toNat ≤ 0x5A
  · refine foldCase_of_not_upper ?_
    rw [foldCase_of_upper h, BitVec.toNat_add]
    show ¬ (0x41 ≤ (c.toNat + 0x20) % 2 ^ 8 ∧ (c.toNat + 0x20) % 2 ^ 8 ≤ 0x5A)
    omega
  · rw [foldCase_of_not_upper h, foldCase_of_not_upper h]

theorem mem_fixedAlphabet_iff (c : Byte) :
    c ∈ fixedAlphabet ↔
      (0x30 ≤ c.toNat ∧ c.toNat ≤ 0x39) ∨ (0x61 ≤ c.toNat ∧ c.toNat ≤ 0x66) ∨ c = 0x20 ∨ c = 0x2E := by
  simp only [fixedAlphabet, List.cons_append, List.nil_append, List.mem_cons, List.not_mem_nil, or_false]
  bv_omega

/-- The part of `paramsOk` that speaks of the segment table. -/
theorem paramsOk_segTable {p : Params} (h : paramsOk p = true) :
    (∀ c ∈ segAlphabet p, (p.segTable.lookup c).isSome) ∧ p.segTable.lookup 0x20 = some 0x00 ∧
      p.segTable.lookup (foldCase p.allonChar) = some 0xFF := by
  simp only [paramsOk, Bool.and_eq_true, List.all_eq_true, beq_iff_eq] at h
  obtain ⟨⟨⟨-, htable⟩, hspace⟩, hallon⟩ := h
  exact ⟨htable, hspace, hallon⟩

theorem segLookup_of_mem {p : Params} {c : Byte} (h : foldCase c ∈ segAlphabet p) :
    segLookup p c = p.segTable.lookup (foldCase c) :=
  if_pos (List.contains_iff_mem.2 h)

/-- Exactly the codes of the alphabet have a pattern. -/
theorem isSome_segLookup_iff {p : Params} (hp : paramsOk p = true) (c : Byte) :
    (segLookup p c).isSome ↔ foldCase c ∈ segAlphabet p := by
  by_cases h : foldCase c ∈ segAlphabet p
  · simp [segLookup_of_mem h, h, (paramsOk_segTable hp).1 _ h]
  · simp [segLookup, h]

/-- Settles O42: the lookup folds its argument (`segLookup_congr`), and its domain is the alphabet
(`isSome_segLookup_iff`). -/
theorem segmentLookupIsCaseInsensitive : Obligations.SegmentLookupIsCaseInsensitive := by
  intro p hp
  obtain ⟨-, hspace, hallon⟩ := paramsOk_segTable hp
  refine ⟨fun c h1 h2 => segLookup_congr p ?_, fun c hc => ?_, ?_, ?_⟩
  · rw [← foldCase_of_upper ⟨h1, h2⟩, foldCase_foldCase]
  · rw [isSome_segLookup_iff hp, foldCase_of_not_upper hc, segAlphabet, List.mem_append,
      mem_fixedAlphabet_iff, List.mem_singleton]
    simp only [or_assoc]
  · exact (segLookup_of_mem (List.mem_append_left _ (by decide))).trans hspace
  · exact (segLookup_of_mem (List.mem_append_right _ List.mem_cons_self)).trans hallon

end Sys2Proof.Machine
end

section
/-! SUPPORT. What a shifted byte and the clear pulse leave on the lines; `WRITE`, `CLEAR` and `PUTC`, with the
obligations about them (42_seven_segment.md R119, R120, R121, R123). -/

namespace Sys2Proof.Machine

open Sys2Proof.Claims

/-! ## A shifted byte -/

theorem noPinDir_shifted (v : Byte) : NoPinDir (shifted v) := noPinDir_shiftEvents v

theorem spares_clear_shifted (v : Byte) : Spares .clear (shifted v) := spares_clear_shiftEvents v

theorem ticksOf_shifted (p : Params) (v : Byte) : ticksOf p (shifted v) = 27 * p.tPin := ticksOf_shiftEvents p v

/-- Where a shifted byte leaves the three lines it drives. -/
theorem levelAfter_shifted (v : Byte) (x : Bool) :
    levelAfter .data (shifted v) x = !v.getLsbD 0 ∧ levelAfter .clock (shifted v) x = false ∧
      levelAfter .latch (shifted v) x = false :=
  ⟨rfl, rfl, rfl⟩

theorem block_doneEvents_shifted (v : Byte) (s : State) :
    block (doneEvents (shifted v) s) = block { emitted (shifted v) (27 * s.params.tPin) s with
      pinData := !v.getLsbD 0
      pinClock := false
      pinLatch := false } := by
  rw [block_doneEvents (noPinDir_shifted v), levelAfter_of_spares (spares_clear_shifted v), ticksOf_shifted]
  rfl

/-! ## shift_out (R120) -/

/-- Whether an event sets the line. -/
def Event.sets (l : Line) (e : Event) : Bool := decide (e = .pin l true) || decide (e = .pin l false)

theorem sets_pin (l k : Line) (b : Bool) : (Event.pin k b).sets l = decide (k = l) := by
  cases b <;> simp [Event.sets]

/-- How many events of a shifted byte set a line. -/
theorem length_filter_sets_shifted (v : Byte) (l : Line) :
    ((shifted v).filter (Event.sets l)).length =
      match l with
      | .data => 8
      | .clock => 16
      | .latch => 3
      | .clear => 0 := by
  cases l <;> simp [shifted, sets_pin]

theorem shiftOut_done {s : State} (hd : AnswersDone s 27) (v : Byte) :
    shiftOut v s = .ok (doneEvents (shifted v) s) :=
  emitAll_done (shifted v) s hd

/-- Settles O44: the events of `shifted`, counted by the line they set. -/
theorem shiftOutEmits27Events : Obligations.ShiftOutEmits27Events := by
  intro v s hd
  obtain ⟨hdata, -, -⟩ := levelAfter_shifted v s.pinData
  obtain ⟨-, hclock, -⟩ := levelAfter_shifted v s.pinClock
  obtain ⟨-, -, hlatch⟩ := levelAfter_shifted v s.pinLatch
  refine ⟨_, shifted v, shiftOut_done hd v, doneEvents_trace _ s, rfl, length_filter_sets_shifted v .data,
    length_filter_sets_shifted v .clock, length_filter_sets_shifted v .latch, ?_, ?_, ?_, ?_, ?_⟩
  · rw [doneEvents_pinClock, hclock]
  · rw [doneEvents_pinLatch, hlatch]
  · rw [doneEvents_pinData, hdata]
  · rw [doneEvents_pinClear]
    exact levelAfter_of_spares (spares_clear_shifted v) _
  · rw [doneEvents_time]
    exact congrArg (fun n => s.time + BitVec.ofNat 64 n) (ticksOf_shifted s.params v)

/-! ## WRITE (R119) -/

theorem commandTest_write_inRange {value : Word} {s : State} (hu : SegUsable s) (h0 : 0 ≤ value.toInt)
    (hmax : value.toInt ≤ 255) : commandTest (.write value) s = none :=
  firstFailure_eq_none.2
    ⟨segPreamble_eq_none.2 hu, argumentTest_eq_none.2 ((byteOperandOk_iff value).2 ⟨h0, hmax⟩)⟩

theorem exec_write_outOfRange {value : Word} {s : State} (hu : SegUsable s)
    (h : value.toInt < 0 ∨ 255 < value.toInt) :
    exec (.write value) s = .next (ended 0x21 .invalidArgument 1 s) := by
  have hbad : byteOperandOk value = false := not_of_iff (byteOperandOk_iff value) (by omega)
  refine exec_eq_ended_of_commandTest ?_
  rw [commandTest, segPreamble_eq_none.2 hu, hbad]
  rfl

theorem commandBody_write (value : Word) (s : State) :
    commandBody (.write value) s = emitAll (shifted (BitVec.ofNat 8 value.toNat)) s := by
  rw [commandBody, BitVec.extractLsb', Nat.shiftRight_zero]
  rfl

/-- Settles O43: refused by its tests in their order, else the events of one byte (`commandBody_write`). -/
theorem writeShiftsOneByte : Obligations.WriteShiftsOneByte := by
  refine fun value => ⟨segPreamble_refuses (i := .write value) (by simp [Instr.op]), fun s hu =>
    ⟨exec_write_outOfRange hu, fun h0 hmax hd => ?_, fun h0 hmax k hk hd hfail => ?_⟩⟩
  · refine ⟨_, exec_events_done (commandTest_write_inRange hu h0 hmax) (commandBody_write value s)
      (by simp [Instr.op]) hd, ?_⟩
    exact congrArg (endedOk 0x21) (block_doneEvents_shifted _ s)
  · exact exec_events_fail_spares_clear (by simp [Instr.op]) (commandTest_write_inRange hu h0 hmax)
      (commandBody_write value s) ((allPins_shiftEvents _).answeredAt hk) hd hfail

/-! ## CLEAR (R121) -/

theorem noPinDir_cleared : NoPinDir cleared := by
  intro e he
  rcases List.mem_append.1 he with he | he
  · exact noPinDir_clearPulse e he
  · exact noPinDir_shifted 0 e he

theorem ticksOf_cleared (p : Params) : ticksOf p cleared = 30 * p.tPin := ticksOf_clearEvents p

theorem block_doneEvents_cleared (s : State) :
    block (doneEvents cleared s) = block { emitted cleared (30 * s.params.tPin) s with
      pinClear := true
      pinData := true
      pinClock := false
      pinLatch := false } := by
  rw [block_doneEvents noPinDir_cleared, ticksOf_cleared]
  rfl

/-- Settles O45: the body is the events of `cleared` (`clearSeq_eq`). -/
theorem clearBlanksTheDisplay : Obligations.ClearBlanksTheDisplay := by
  refine ⟨segPreamble_refuses (i := .clear) (by simp [Instr.op]), fun s hu =>
    ⟨fun hd => ?_, fun k hk hd hfail => ?_⟩⟩
  · refine ⟨_, exec_events_done (i := .clear) (segPreamble_eq_none.2 hu) (clearSeq_eq s)
      (by simp [Instr.op]) hd, ?_⟩
    exact congrArg (endedOk 0x22) (block_doneEvents_cleared s)
  · obtain ⟨t, hexec, hfailed, hstores, hframe⟩ := exec_events_fail (i := .clear) (segPreamble_eq_none.2 hu)
      (clearSeq_eq s) (allPins_clearEvents.answeredAt hk) hd hfail
    exact ⟨t, hexec, hfailed, hstores, hframe.blink (by simp [Instr.op]), hframe.pinOe (by simp [Instr.op])⟩

/-! ## PUTC (R123) -/

theorem noPinDir_shown (v : Byte) (d : Nat) : NoPinDir (shown v d) := by
  intro e he
  rcases List.mem_append.1 he with he | he
  · exact noPinDir_shifted v e he
  · simp [List.mem_singleton.1 he]

theorem spares_clear_shown (v : Byte) (d : Nat) : Spares .clear (shown v d) := by
  intro e he
  rcases List.mem_append.1 he with he | he
  · exact spares_clear_shifted v e he
  · simp [List.mem_singleton.1 he]

theorem ticksOf_shown (p : Params) (v : Byte) (d : Nat) : ticksOf p (shown v d) = 27 * p.tPin + d := by
  rw [shown, ticksOf_append, ticksOf_shifted, ticksOf_wait]

theorem answeredCount_shown (v : Byte) (d : Nat) : answeredCount (shown v d) = 27 := answeredCount_showEvents v d

/-- The wait behind a shifted byte leaves the lines where they are. -/
theorem levelAfter_shown (l : Line) (v : Byte) (d : Nat) (x : Bool) :
    levelAfter l (shown v d) x = levelAfter l (shifted v) x :=
  List.foldl_append

/-- The answered events of a character are those of its byte. -/
theorem answeredAt_shown (v : Byte) (d : Nat) {k : Nat} (hk : k < 27) : AnsweredAt (shown v d) k k :=
  ((allPins_shiftEvents v).answeredAt hk).append_right [.wait d]

theorem block_doneEvents_shown (v : Byte) (d : Nat) (s : State) :
    block (doneEvents (shown v d) s) = block { emitted (shown v d) (27 * s.params.tPin + d) s with
      pinData := !v.getLsbD 0
      pinClock := false
      pinLatch := false } := by
  rw [block_doneEvents (noPinDir_shown v d), levelAfter_of_spares (spares_clear_shown v d), ticksOf_shown]
  rfl

theorem exec_putc_unknown {c : Byte} {s : State} (hu : SegUsable s) (delay : Word)
    (hc : segLookup s.params c = none) :
    exec (.putc c delay) s = .next (ended 0x23 .invalidArgument 1 s) := by
  rw [exec_body (i := .putc c delay) (segPreamble_eq_none.2 hu), commandBody, putcSeq_unknown _ hc,
    conclude_raised, raise, endCommand_eq_ended (Bool.or_false _)]
  rfl

/-- Settles O46: the character is looked up before its events (`putcSeq_unknown`, `putcSeq_eq`). -/
theorem putcShowsOneCharacter : Obligations.PutcShowsOneCharacter := by
  refine fun c delay => ⟨segPreamble_refuses (i := .putc c delay) (by simp [Instr.op]), fun s hu =>
    ⟨exec_putc_unknown hu delay, fun p hc hd => ?_, fun p hc k hk hd hfail => ?_⟩⟩
  · refine ⟨_, exec_events_done (i := .putc c delay) (segPreamble_eq_none.2 hu) (putcSeq_eq _ hc)
      (by simp [Instr.op]) hd, ?_⟩
    exact congrArg (endedOk 0x23) (block_doneEvents_shown p delay.toNat s)
  · exact exec_events_fail_spares_clear (i := .putc c delay) (by simp [Instr.op]) (segPreamble_eq_none.2 hu)
      (putcSeq_eq _ hc) (answeredAt_shown p delay.toNat hk) hd hfail

end Sys2Proof.Machine
end

section
/-! SUPPORT. A string of known characters as one list of events; `PUTS`, with the obligations about it
(42_seven_segment.md R126, 90_conflicts.md C3, 60_exceptions.md R160). -/

namespace Sys2Proof.Machine

open Sys2Proof.Claims

/-! ## Strings of known characters -/

theorem length_of_patterns {p : Params} {cs vs : List Byte} (h : Patterns p cs vs) : vs.length = cs.length := by
  induction cs generalizing vs with
  | nil =>
    cases vs with
    | nil => rfl
    | cons v vs => exact h.elim
  | cons c cs ih =>
    cases vs with
    | nil => exact h.elim
    | cons v vs => exact congrArg Nat.succ (ih h.2)

/-- The characters in front are shown, then the rest of the string follows. -/
theorem putsSeq_append_of_patterns (d : Nat) {known vs : List Byte} (more : List Byte) {s : State}
    (h : Patterns s.params known vs) :
    putsSeq d (known ++ more) s = (emitAll (stringShown d vs) s).bind (putsSeq d more) := by
  induction known generalizing vs s with
  | nil =>
    cases vs with
    | nil => rfl
    | cons v vs => exact h.elim
  | cons c known ih =>
    cases vs with
    | nil => exact h.elim
    | cons v vs =>
      obtain ⟨hc, hrest⟩ := h
      have hparams := (ran_emitAll (shown v d) s).environment.1
      have hfirst : putcSeq c d s = emitAll (shown v d) s := putcSeq_eq d hc
      rw [stringShown, emitAll_append, bind_assoc, List.cons_append, putsSeq, hfirst]
      cases hr : emitAll (shown v d) s with
      | ok t =>
        rw [hr, Result.state] at hparams
        exact ih (hparams ▸ hrest)
      | raised e t => rfl
      | running t => rfl

/-- A string of known characters is one list of events. -/
theorem putsSeq_of_patterns (d : Nat) {cs vs : List Byte} {s : State} (h : Patterns s.params cs vs) :
    putsSeq d cs s = emitAll (stringShown d vs) s := by
  have happend := putsSeq_append_of_patterns d [] h
  rw [List.append_nil] at happend
  rw [happend]
  cases emitAll (stringShown d vs) s <;> rfl

/-! ## Their events -/

theorem mem_stringShown {d : Nat} {vs : List Byte} {e : Event} (h : e ∈ stringShown d vs) :
    ∃ v, e ∈ shown v d := by
  induction vs with
  | nil => cases h
  | cons v vs ih =>
    rcases List.mem_append.1 h with h | h
    · exact ⟨v, h⟩
    · exact ih h

theorem noPinDir_stringShown (d : Nat) (vs : List Byte) : NoPinDir (stringShown d vs) := fun e he =>
  have ⟨v, hv⟩ := mem_stringShown he
  noPinDir_shown v d e hv

theorem spares_clear_stringShown (d : Nat) (vs : List Byte) : Spares .clear (stringShown d vs) := fun e he =>
  have ⟨v, hv⟩ := mem_stringShown he
  spares_clear_shown v d e hv

theorem answeredCount_stringShown (d : Nat) (vs : List Byte) :
    answeredCount (stringShown d vs) = 27 * vs.length := by
  induction vs with
  | nil => rfl
  | cons v vs ih =>
    rw [stringShown, answeredCount_append, answeredCount_shown, ih, List.length_cons]
    omega

theorem ticksOf_stringShown (p : Params) (d : Nat) (vs : List Byte) :
    ticksOf p (stringShown d vs) = vs.length * (27 * p.tPin + d) := by
  induction vs with
  | nil => simp [stringShown, ticksOf]
  | cons v vs ih =>
    rw [stringShown, ticksOf_append, ticksOf_shown, ih, List.length_cons,
      Nat.add_comm (27 * p.tPin + d), ← Nat.succ_mul]

/-- The last character decides where a string leaves the lines. -/
theorem levelAfter_stringShown_of_getLast? (l : Line) (d : Nat) {vs : List Byte} {v : Byte}
    (h : vs.getLast? = some v) (x : Bool) :
    ∃ y, levelAfter l (stringShown d vs) x = levelAfter l (shifted v) y := by
  induction vs generalizing x with
  | nil => cases h
  | cons w vs ih =>
    rw [stringShown, levelAfter, List.foldl_append]
    cases vs with
    | nil =>
      obtain rfl : w = v := Option.some.inj h
      exact ⟨x, levelAfter_shown l w d x⟩
    | cons u us => exact ih h _

/-- The k-th answered event of a string, each character being 27 of them and a wait. -/
theorem answeredAt_stringShown (d : Nat) {vs : List Byte} {k : Nat} (hk : k < 27 * vs.length) :
    AnsweredAt (stringShown d vs) k (28 * (k / 27) + k % 27) := by
  induction vs generalizing k with
  | nil => cases hk
  | cons v vs ih =>
    rw [List.length_cons] at hk
    by_cases h : k < 27
    · rw [Nat.div_eq_of_lt h, Nat.mod_eq_of_lt h, Nat.mul_zero, Nat.zero_add]
      exact (answeredAt_shown v d h).append_right _
    · obtain ⟨m, rfl⟩ : ∃ m, k = 27 + m := ⟨k - 27, by omega⟩
      have hrest := (ih (k := m) (by omega)).append_left (shown v d)
      rw [answeredCount_shown, show (shown v d).length = 28 from rfl] at hrest
      rwa [show 28 * ((27 + m) / 27) + (27 + m) % 27 = 28 + (28 * (m / 27) + m % 27) by omega]

/-! ## PUTS (R126) -/

/-- The block behind a string, `CLEAR` and `PIN_OE` as they were. -/
theorem block_doneEvents_stringShown (d : Nat) (vs : List Byte) (s : State) :
    block (doneEvents (stringShown d vs) s) =
      block { emitted (stringShown d vs) (vs.length * (27 * s.params.tPin + d)) s with
        pinData := (doneEvents (stringShown d vs) s).pinData
        pinClock := (doneEvents (stringShown d vs) s).pinClock
        pinLatch := (doneEvents (stringShown d vs) s).pinLatch } := by
  rw [block_doneEvents (noPinDir_stringShown d vs), levelAfter_of_spares (spares_clear_stringShown d vs),
    ticksOf_stringShown, doneEvents_pinData, doneEvents_pinClock, doneEvents_pinLatch]
  rfl

/-- The lines behind a string. -/
theorem lines_doneEvents_stringShown (d : Nat) {vs : List Byte} {v : Byte} (h : vs.getLast? = some v)
    (s : State) :
    (doneEvents (stringShown d vs) s).pinData = (!v.getLsbD 0) ∧
      (doneEvents (stringShown d vs) s).pinClock = false ∧
      (doneEvents (stringShown d vs) s).pinLatch = false := by
  obtain ⟨_, hdata⟩ := levelAfter_stringShown_of_getLast? .data d h s.pinData
  obtain ⟨_, hclock⟩ := levelAfter_stringShown_of_getLast? .clock d h s.pinClock
  obtain ⟨_, hlatch⟩ := levelAfter_stringShown_of_getLast? .latch d h s.pinLatch
  rw [doneEvents_pinData, doneEvents_pinClock, doneEvents_pinLatch, hdata, hclock, hlatch]
  exact ⟨rfl, rfl, rfl⟩

theorem exec_puts_known {df : Bool} {delay : Word} {cs vs : List Byte} {s : State} (hu : SegUsable s)
    (hvs : Patterns s.params cs vs) (hd : AnswersDone s (27 * cs.length)) :
    exec (.puts df delay cs) s =
      .next (endedOk 0x24 (doneEvents (stringShown (putsDelay df delay s) vs) s)) := by
  refine exec_events_done (i := .puts df delay cs) (segPreamble_eq_none.2 hu) (putsSeq_of_patterns _ hvs)
    (by simp [Instr.op]) ?_
  rwa [answeredCount_stringShown, length_of_patterns hvs]

theorem exec_puts_unknown {df : Bool} {delay : Word} {known vs rest : List Byte} {c : Byte} {s : State}
    (hu : SegUsable s) (hvs : Patterns s.params known vs) (hd : AnswersDone s (27 * known.length))
    (hc : segLookup s.params c = none) :
    exec (.puts df delay (known ++ c :: rest)) s =
      .next (ended 0x24 .invalidArgument 1 (doneEvents (stringShown (putsDelay df delay s) vs) s)) := by
  have hdone : AnswersDone s (answeredCount (stringShown (putsDelay df delay s) vs)) := by
    rwa [answeredCount_stringShown, length_of_patterns hvs]
  have hunknown : segLookup (doneEvents (stringShown (putsDelay df delay s) vs) s).params c = none := by
    rwa [doneEvents_params]
  rw [exec_body (i := .puts df delay (known ++ c :: rest)) (segPreamble_eq_none.2 hu), commandBody,
    putsSeq_append_of_patterns _ _ hvs, emitAll_done _ _ hdone, bind_ok, putsSeq,
    putcSeq_unknown _ hunknown, bind_raised, conclude_raised, raise, endCommand_eq_ended (Bool.or_false _)]
  rfl

/-- Settles O47: the known characters are one list of events, behind which the string ends or the lookup fails
(`putsSeq_append_of_patterns`). -/
theorem putsShowsEachCharacter : Obligations.PutsShowsEachCharacter := by
  refine fun df delay known more => ⟨segPreamble_refuses (i := .puts df delay (known ++ more))
    (by simp [Instr.op]), fun s vs hu hvs hd => ?_⟩
  have hblock := block_doneEvents_stringShown (putsDelay df delay s) vs s
  rw [length_of_patterns hvs] at hblock
  have hlast (v : Byte) (hv : vs.getLast? = some v) := lines_doneEvents_stringShown (putsDelay df delay s) hv s
  have hsame (hk : known = []) : SameLines s (doneEvents (stringShown (putsDelay df delay s) vs) s) := by
    obtain rfl : vs = [] := List.length_eq_zero_iff.1 (by rw [length_of_patterns hvs, hk]; rfl)
    exact ⟨rfl, rfl, rfl, rfl, rfl⟩
  refine ⟨fun c rest hmore hc => ?_, fun hmore => ?_⟩
  · subst hmore
    exact ⟨_, exec_puts_unknown hu hvs hd hc, congrArg (ended 0x24 .invalidArgument 1) hblock, hlast, hsame⟩
  · rw [hmore, List.append_nil]
    exact ⟨_, exec_puts_known hu hvs hd, congrArg (endedOk 0x24) hblock, hlast, hsame⟩

/-- Settles O48: the string is one list of events, whose answered ones are known by number
(`answeredAt_stringShown`). -/
theorem putsStopsAtAFailedEvent : Obligations.PutsStopsAtAFailedEvent := by
  rintro df delay cs vs s hu hvs k j hk hd hfail rfl
  exact exec_events_fail_spares_clear (i := .puts df delay cs) (by simp [Instr.op]) (segPreamble_eq_none.2 hu)
    (putsSeq_of_patterns _ hvs) (answeredAt_stringShown _ (by rwa [length_of_patterns hvs])) hd hfail

end Sys2Proof.Machine
end

section
/-! SUPPORT. What the two blinks load, and how an end-of-cycle test and an unknown character end them, with the
obligations about them (43_blink.md R137, R142, R145). -/

namespace Sys2Proof.Machine

open Sys2Proof.Claims

/-! ## The registers of a blink (R137, R142) -/

/-- The blinks compute `show` on the operands read as signed words. -/
theorem showTicks_eq_lit {period dutyQ : Word} (hp : 0 ≤ period.toInt) (hq : 0 ≤ dutyQ.toInt) :
    showTicks (int32 period).toNat (int32 dutyQ).toNat = lit period dutyQ := by
  rw [int32, int32, toInt_toNat hp, toInt_toNat hq]
  rfl

theorem idleTicks_eq_dark {period dutyQ : Word} (hp : 0 ≤ period.toInt) (hq : 0 ≤ dutyQ.toInt) :
    idleTicks (int32 period).toNat (int32 dutyQ).toNat = dark period dutyQ := by
  rw [idleTicks, showTicks_eq_lit hp hq, int32, toInt_toNat hp]
  rfl

theorem loadBlinkc_eq {c : Byte} {period dutyQ cycles : Word} {s : State}
    (h : BlinkLegal period dutyQ cycles) :
    loadBlinkc c period dutyQ cycles s = { s with
      blMode := .count
      blChar := c
      blShow := BitVec.ofNat 31 (lit period dutyQ)
      blIdle := BitVec.ofNat 31 (dark period dutyQ)
      blCnt := BitVec.ofNat 31 cycles.toNat } := by
  obtain ⟨hp, hq, -, hn⟩ := h
  rw [loadBlinkc, showTicks_eq_lit hp hq, idleTicks_eq_dark hp hq, int32, toInt_toNat hn]

theorem loadBlink_eq {c : Byte} {period dutyQ elapse : Word} {s : State}
    (h : BlinkLegal period dutyQ elapse) :
    loadBlink c period dutyQ elapse s = { s with
      blMode := .elapsed
      blChar := c
      blShow := BitVec.ofNat 31 (lit period dutyQ)
      blIdle := BitVec.ofNat 31 (dark period dutyQ)
      blElapse := BitVec.ofNat 31 elapse.toNat
      blT0 := s.time } := by
  obtain ⟨hp, hq, -, hn⟩ := h
  rw [loadBlink, showTicks_eq_lit hp hq, idleTicks_eq_dark hp hq, int32, toInt_toNat hn]

/-- A number below 2^31 fits its register. -/
theorem toNat_ofNat_31 {n : Nat} (h : n < 2 ^ 31) : (BitVec.ofNat 31 n).toNat = n := by
  rw [BitVec.toNat_ofNat, Nat.mod_eq_of_lt h]

/-- The two durations share out the period, below 2^31. -/
theorem lit_add_dark {period dutyQ last : Word} (h : BlinkLegal period dutyQ last) :
    lit period dutyQ + dark period dutyQ = period.toNat := by
  obtain ⟨-, hq, hmax, -⟩ := h
  have hle : lit period dutyQ ≤ period.toNat :=
    showTicks_le (by have := toInt_toNat hq; omega)
  unfold dark
  omega

theorem lit_fits {period dutyQ last : Word} (h : BlinkLegal period dutyQ last) :
    (BitVec.ofNat 31 (lit period dutyQ)).toNat = lit period dutyQ :=
  toNat_ofNat_31 (by have := lit_add_dark h; have := toNat_lt h.1; omega)

theorem dark_fits {period dutyQ last : Word} (h : BlinkLegal period dutyQ last) :
    (BitVec.ofNat 31 (dark period dutyQ)).toNat = dark period dutyQ :=
  toNat_ofNat_31 (by have := lit_add_dark h; have := toNat_lt h.1; omega)

/-- With the full duty nothing of a cycle is dark. -/
theorem dark_full (period : Word) : dark period 65536 = 0 := by
  have hlit : lit period 65536 = period.toNat := Nat.mul_div_cancel _ (by decide)
  rw [dark, hlit, Nat.sub_self]

theorem lit_zero (period : Word) : lit period 0 = 0 := by
  show period.toNat * 0 / 65536 = 0
  rw [Nat.mul_zero, Nat.zero_div]

/-- Settles O49: both blinks load `lit` and `dark` (`loadBlinkc_eq`, `loadBlink_eq`), which share out the period
and fit their registers. -/
theorem blinkDurationsAddUp : Obligations.BlinkDurationsAddUp := by
  intro c period dutyQ last s h
  have hsum := lit_add_dark h
  have hlit := lit_fits h
  have hdark := dark_fits h
  have ⟨hp, hq, _, hn⟩ := h
  have hlast := toNat_ofNat_31 (toNat_lt hn)
  rw [loadBlinkc_eq h, loadBlink_eq h, toInt_toNat hp, toInt_toNat hq, toInt_toNat hn]
  refine ⟨hlit, by rw [hlit, hdark, hsum], ?_, ?_, hlast, rfl, rfl, rfl, rfl, hlast, rfl, rfl, rfl⟩
  · rintro rfl
    exact congrArg (BitVec.ofNat 31) (dark_full period)
  · rintro rfl
    exact congrArg (BitVec.ofNat 31) (lit_zero period)

/-! ## The end-of-cycle test (R145) -/

/-- The counter as the number it is taken from. -/
theorem blCnt_sub_one {s : State} (h : 0 < s.blCnt.toNat) :
    s.blCnt - 1 = BitVec.ofNat 31 (s.blCnt.toNat - 1) :=
  BitVec.eq_of_toNat_eq (by
    have := s.blCnt.isLt
    rw [blCnt_pred h, toNat_ofNat_31 (by omega)])

theorem blCnt_sub_one_eq_zero_iff {s : State} (h : 0 < s.blCnt.toNat) :
    s.blCnt - 1 = 0 ↔ s.blCnt.toNat = 1 := by
  have hzero : (0 : BitVec 31).toNat = 0 := rfl
  rw [← BitVec.toNat_inj, blCnt_pred h, hzero]
  omega

/-- Settles O50: the two modes of the test (`endOfCycle_count`, `endOfCycle_elapsed`), on numbers. -/
theorem endOfCycleTest : Obligations.EndOfCycleTest := by
  refine fun s => ⟨fun hmode hcnt => ?_, fun hmode => ?_⟩
  · simp only [endOfCycle_count hmode, blCnt_sub_one_eq_zero_iff hcnt]
    rw [blCnt_sub_one hcnt]
  · rw [endOfCycle_elapsed hmode, blinkElapsed_eq]
    rfl

/-! ## A blink that does not start (R142, R143) -/

/-- The tests in front of both blinks pass. -/
theorem blinkTest_eq_none {period dutyQ last : Word} {s : State} (hu : SegUsable s)
    (h : BlinkLegal period dutyQ last) :
    firstFailure (segPreamble s) (argumentTest (blinkOperandsOk period dutyQ last)) = none :=
  firstFailure_eq_none.2
    ⟨segPreamble_eq_none.2 hu, argumentTest_eq_none.2 ((blinkOperandsOk_iff _ _ _).2 h)⟩

/-- `BLINKC` with no cycle to run does nothing. -/
theorem exec_blinkc_zero {c : Byte} {period dutyQ : Word} {s : State} (hu : SegUsable s)
    (h : BlinkLegal period dutyQ 0) : exec (.blinkc c period dutyQ 0) s = .next (endedOk 0x30 s) :=
  exec_eq_endedOk (i := .blinkc c period dutyQ 0) (blinkTest_eq_none hu h) rfl (by simp [Instr.op])

/-- `BLINKC` with a cycle to run loads its registers and runs the loop. -/
theorem commandBody_blinkc {cycles : Word} (hn : cycles ≠ 0) (c : Byte) (period dutyQ : Word) (s : State) :
    commandBody (.blinkc c period dutyQ cycles) s = startBlink (loadBlinkc c period dutyQ cycles) s :=
  if_neg hn

/-- A blink whose character is unknown has loaded its registers when it ends. -/
theorem exec_unknownBlink {i : Instr} {load : State → State} {s : State} (ht : commandTest i s = none)
    (hb : commandBody i s = startBlink load s)
    (hc : segLookup (load s).params (load s).blChar = none) :
    exec i s = .next (ended i.op.code .invalidArgument 1 (load s)) := by
  rw [exec_body ht, hb, startBlink_unknown hc, conclude_raised, raise, endCommand_eq_ended (Bool.or_false _)]
  rfl

/-- Settles O55: no cycle, or an unknown character (`exec_unknownBlink`) with the registers of R142 loaded. -/
theorem unknownBlinkCharacter : Obligations.UnknownBlinkCharacter := by
  refine fun c period dutyQ last s hu h => ⟨?_, fun hc => ⟨fun hn => ?_, ?_⟩⟩
  · rintro rfl
    exact exec_blinkc_zero hu h
  · rw [← loadBlinkc_eq h]
    exact exec_unknownBlink (i := .blinkc c period dutyQ last) (blinkTest_eq_none hu h)
      (commandBody_blinkc hn c period dutyQ s) hc
  · rw [← loadBlink_eq h]
    exact exec_unknownBlink (i := .blink c period dutyQ last) (blinkTest_eq_none hu h) rfl hc

end Sys2Proof.Machine
end

section
/-! SUPPORT. The cycles of a blink as one list of events: its answered events by number, its ticks, the lines it
leaves; a failed event in the first cycle, with the obligation about it (43_blink.md R144, R146, 60_exceptions.md
R160). -/

namespace Sys2Proof.Machine

open Sys2Proof.Claims

/-! ## The events of one cycle -/

theorem blinkCycleEvents_eq (p : Byte) (lit dark : Nat) :
    blinkCycleEvents p lit dark = cycleEvents p lit dark := rfl

theorem answeredCount_blinkCycleEvents (p : Byte) (lit dark : Nat) :
    answeredCount (blinkCycleEvents p lit dark) = 57 := answeredCount_cycleEvents p lit dark

theorem ticksOf_blinkCycleEvents (q : Params) (p : Byte) (lit dark : Nat) :
    ticksOf q (blinkCycleEvents p lit dark) = lit + dark + 57 * q.tPin := ticksOf_cycleEvents q p lit dark

/-- The k-th answered event of a cycle: 27 in front of the first wait, 30 behind it. -/
theorem answeredAt_blinkCycleEvents (p : Byte) (lit dark : Nat) {k : Nat} (hk : k < 57) :
    AnsweredAt (blinkCycleEvents p lit dark) k (if k < 27 then k else k + 1) := by
  rw [blinkCycleEvents_eq, cycleEvents]
  split
  next h => exact (answeredAt_shown p lit h).append_right _
  next h =>
    obtain ⟨m, rfl⟩ : ∃ m, k = 27 + m := ⟨k - 27, by omega⟩
    have hat := ((allPins_clearEvents.answeredAt (k := m) (show m < 30 by omega)).append_right
      [.wait dark]).append_left (shown p lit)
    rw [answeredCount_shown, show (shown p lit).length = 28 from rfl] at hat
    rwa [show 27 + m + 1 = 28 + m by omega]

theorem noPinDir_blinkCycleEvents (p : Byte) (lit dark : Nat) : NoPinDir (blinkCycleEvents p lit dark) := by
  intro e he
  rw [blinkCycleEvents, List.mem_append, List.mem_append] at he
  rcases he with (he | he) | he
  · exact noPinDir_shown p lit e he
  · exact noPinDir_cleared e he
  · simp [List.mem_singleton.1 he]

/-- A cycle leaves `DATA` and `CLEAR` high, `CLOCK` and `LATCH` low. -/
theorem levelAfter_blinkCycleEvents (l : Line) (p : Byte) (lit dark : Nat) (x : Bool) :
    levelAfter l (blinkCycleEvents p lit dark) x = decide (l = .data ∨ l = .clear) := by
  cases l <;> rfl

/-! ## The events of some cycles -/

theorem blinkCycles_one (p : Byte) (lit dark : Nat) : blinkCycles p lit dark 1 = blinkCycleEvents p lit dark :=
  List.append_nil _

theorem ticksOf_blinkCycles (q : Params) (p : Byte) (lit dark n : Nat) :
    ticksOf q (blinkCycles p lit dark n) = n * (lit + dark + 57 * q.tPin) := by
  induction n with
  | zero => simp [blinkCycles, ticksOf]
  | succ n ih => rw [blinkCycles, ticksOf_append, ticksOf_blinkCycleEvents, ih, Nat.add_comm, ← Nat.succ_mul]

theorem noPinDir_blinkCycles (p : Byte) (lit dark n : Nat) : NoPinDir (blinkCycles p lit dark n) := by
  induction n with
  | zero => exact fun _ he => by cases he
  | succ n ih =>
    intro e he
    rcases List.mem_append.1 he with he | he
    · exact noPinDir_blinkCycleEvents p lit dark e he
    · exact ih e he

/-- The last cycle decides where the lines are left. -/
theorem levelAfter_blinkCycles (l : Line) (p : Byte) (lit dark n : Nat) (x : Bool) :
    levelAfter l (blinkCycles p lit dark (n + 1)) x = decide (l = .data ∨ l = .clear) := by
  induction n generalizing x with
  | zero => exact levelAfter_blinkCycleEvents l p lit dark x
  | succ n ih =>
    rw [blinkCycles, levelAfter, List.foldl_append]
    exact ih _

theorem block_doneEvents_blinkCycles (p : Byte) (lit dark : Nat) {n : Nat} (hn : 0 < n) (s : State) :
    block (doneEvents (blinkCycles p lit dark n) s) =
      block { emitted (blinkCycles p lit dark n) (n * (lit + dark + 57 * s.params.tPin)) s with
        pinData := true
        pinClock := false
        pinLatch := false
        pinClear := true } := by
  obtain ⟨m, rfl⟩ : ∃ m, n = m + 1 := ⟨n - 1, by omega⟩
  simp only [block_doneEvents (noPinDir_blinkCycles p lit dark (m + 1)), ticksOf_blinkCycles,
    levelAfter_blinkCycles]
  rfl

/-! ## A failed event in the first cycle -/

/-- The loop stops in its first cycle at the event that fails, in either state of the cycle. -/
theorem blinkLoop_fails {n : Nat} (hn : 0 < n) {s : State} {p : Byte} {evs : List Event}
    (hp : segLookup s.params s.blChar = some p)
    (hevs : blinkCycleEvents p s.blShow.toNat s.blIdle.toNat = evs) {k j : Nat} (hat : AnsweredAt evs k j)
    (hd : AnswersDone s k) (hf : answerAt s k = .fail) :
    ∃ (q : BlinkState) (hj : j < evs.length),
      blinkLoop n s = .raised .hardwareIO (failedEvent evs[j] (doneEvents (evs.take j) (setBl q s))) := by
  subst hevs
  obtain ⟨m, rfl⟩ : ∃ m, n = m + 1 := ⟨n - 1, by omega⟩
  obtain ⟨e, hj, he, rfl⟩ := hat
  obtain ⟨hlt, rfl⟩ := List.getElem?_eq_some_iff.1 hj
  obtain ⟨q, hq⟩ := blinkCycle_fails hp j _ hj he hd hf
  refine ⟨q, hlt, ?_⟩
  rw [blinkLoop, hq, bind_raised, doneEvents_setBl]
  rfl

/-- A blink that has loaded its registers stops there. -/
theorem exec_blink_fails {i : Instr} (hi : i.op ≠ .segcfg) {load : State → State} {s : State}
    (ht : commandTest i s = none) (hb : commandBody i s = startBlink load s) {p : Byte} {evs : List Event}
    (hp : segLookup (load s).params (load s).blChar = some p)
    (hevs : blinkCycleEvents p (load s).blShow.toNat (load s).blIdle.toNat = evs) {k j : Nat}
    (hat : AnsweredAt evs k j) (hd : AnswersDone (load s) k) (hf : answerAt (load s) k = .fail) :
    ∃ t, exec i s = .next t ∧ FailedAt evs j i.op.code (load s) t ∧ SameStores (load s) t ∧
      t.pinOe = s.pinOe := by
  obtain ⟨q, hj, hloop⟩ := blinkLoop_fails (cyclesPerStep_pos (load s)) hp hevs hat hd hf
  have hexec : exec i s = .next (raise i.op.code .hardwareIO
      (failedEvent evs[j] (doneEvents (evs.take j) (setBl q (load s))))) := by
    rw [exec_body ht, hb, startBlink, hloop, conclude_raised]
  exact ⟨_, hexec, failedAt_raise (s := setBl q (load s)) hj _, sameStores_raise _ _ _ _ (setBl q (load s)),
    (frame_exec hexec).pinOe hi⟩

/-- Settles O56: the loop starts with the events of a cycle, whose answered ones are known by number
(`answeredAt_blinkCycleEvents`). -/
theorem blinkStopsAtAFailedEvent : Obligations.BlinkStopsAtAFailedEvent := by
  rintro c period dutyQ last s p hu h hp k j hk hd hf rfl
  have hat := answeredAt_blinkCycleEvents p (lit period dutyQ) (dark period dutyQ) hk
  refine ⟨fun hlast => ?_, ?_⟩
  · have hne : last ≠ 0 := by
      rintro rfl
      cases hlast
    exact exec_blink_fails (i := .blinkc c period dutyQ last) (by simp [Instr.op]) (blinkTest_eq_none hu h)
      (commandBody_blinkc hne c period dutyQ s) hp (by rw [loadBlinkc_eq h, lit_fits h, dark_fits h]) hat hd hf
  · exact exec_blink_fails (i := .blink c period dutyQ last) (by simp [Instr.op]) (blinkTest_eq_none hu h)
      (load := loadBlink c period dutyQ last) rfl hp (by rw [loadBlink_eq h, lit_fits h, dark_fits h]) hat hd hf

end Sys2Proof.Machine
end

section
/-! SUPPORT. The blink loop cycle by cycle, until its count or its time has run out, with the obligations about the
two blinks that end (43_blink.md R144 to R147). -/

namespace Sys2Proof.Machine

open Sys2Proof.Claims

/-! ## One cycle and its test -/

/-- The registers of a blink whose cycles show a pattern for `lit` ticks and are dark for `dark` ticks. -/
structure Blinks (p : Byte) (lit dark : Nat) (s : State) : Prop where
  pattern : segLookup s.params s.blChar = some p
  lit : s.blShow.toNat = lit
  dark : s.blIdle.toNat = dark

theorem Blinks.doneEvents {p : Byte} {lit dark : Nat} {s : State} (h : Blinks p lit dark s) (evs : List Event) :
    Blinks p lit dark (doneEvents evs s) where
  pattern := by rw [doneEvents_params, doneEvents_blChar, h.pattern]
  lit := by rw [doneEvents_blShow, h.lit]
  dark := by rw [doneEvents_blIdle, h.dark]

theorem answersDone_doneEvents {s : State} {evs : List Event} {n : Nat}
    (h : AnswersDone s (answeredCount evs + n)) : AnswersDone (doneEvents evs s) n := by
  intro k hk
  rw [answerAt_doneEvents]
  exact h _ (by omega)

/-- After one cycle of `n + 1` there are answers for the rest. -/
theorem answersDone_blinkCycle {s : State} {n : Nat} (h : AnswersDone s (57 * (n + 1))) (p : Byte)
    (lit dark : Nat) : AnswersDone (doneEvents (blinkCycleEvents p lit dark) s) (57 * n) :=
  answersDone_doneEvents (by rwa [answeredCount_blinkCycleEvents, Nat.add_comm, ← Nat.mul_succ])

/-- The test reads nothing of `BL_STATE`. -/
theorem endOfCycle_setBl (b : BlinkState) (s : State) : endOfCycle (setBl b s) = endOfCycle s := by
  cases hm : s.blMode with
  | count => rw [endOfCycle_count hm, endOfCycle_count (s := setBl b s) hm]; rfl
  | elapsed => rw [endOfCycle_elapsed hm, endOfCycle_elapsed (s := setBl b s) hm]; rfl

section

variable {p : Byte} {lit dark : Nat} {s : State}

/-- With its events done the loop runs one cycle, and the test decides whether it goes on. -/
theorem blinkLoop_succ (h : Blinks p lit dark s) (hd : AnswersDone s 57) (n : Nat) :
    blinkLoop (n + 1) s = blinkNext (blinkLoop n) (doneEvents (blinkCycleEvents p lit dark) s) := by
  rw [blinkLoop, blinkCycle_done h.pattern hd, bind_ok, blinkNext, endOfCycle_setBl, h.lit, h.dark,
    ← blinkCycleEvents_eq, blinkNext]

theorem blinkNext_ends {loop : State → Result} (h : (endOfCycle s).blState = .off) :
    blinkNext loop s = .ok (endOfCycle s) := if_pos h

theorem blinkNext_goes_on {loop : State → Result} (h : (endOfCycle s).blState = .showing) :
    blinkNext loop s = loop (endOfCycle s) := if_neg (by simp [h])

/-! ## The loop bounded by count -/

/-- `BL_STATE` and `BL_CNT` written. -/
def setBlCnt (b : BlinkState) (c : BitVec 31) (s : State) : State := { s with blState := b, blCnt := c }

theorem doneEvents_setBlCnt (evs : List Event) (b : BlinkState) (c : BitVec 31) (s : State) :
    doneEvents evs (setBlCnt b c s) = setBlCnt b c (doneEvents evs s) := by
  rw [doneEvents_eq, doneEvents_eq]
  rfl

theorem blinkLoop_count_last (hm : s.blMode = .count) (h : Blinks p lit dark s) (hd : AnswersDone s 57)
    (hcnt : s.blCnt.toNat = 1) (m : Nat) :
    blinkLoop (m + 1) s = .ok (doneEvents (blinkCycleEvents p lit dark) (setBlCnt .off 0 s)) := by
  have hzero : s.blCnt - 1 = 0 := (blCnt_sub_one_eq_zero_iff (by omega)).2 hcnt
  have hend : endOfCycle (doneEvents (blinkCycleEvents p lit dark) s) =
      setBlCnt .off 0 (doneEvents (blinkCycleEvents p lit dark) s) := by
    rw [endOfCycle_count (by rwa [doneEvents_blMode]), doneEvents_blCnt, hzero]
    rfl
  rw [blinkLoop_succ h hd, blinkNext_ends (by rw [hend]; rfl), hend, doneEvents_setBlCnt]

theorem blinkLoop_count_more (hm : s.blMode = .count) (h : Blinks p lit dark s) (hd : AnswersDone s 57)
    (hcnt : 1 < s.blCnt.toNat) (m : Nat) :
    blinkLoop (m + 1) s =
      blinkLoop m (doneEvents (blinkCycleEvents p lit dark) (setBlCnt .showing (s.blCnt - 1) s)) := by
  have hmore : ¬ s.blCnt - 1 = 0 := by
    rw [blCnt_sub_one_eq_zero_iff (by omega)]
    omega
  have hend : endOfCycle (doneEvents (blinkCycleEvents p lit dark) s) =
      setBlCnt .showing (s.blCnt - 1) (doneEvents (blinkCycleEvents p lit dark) s) := by
    rw [endOfCycle_count (by rwa [doneEvents_blMode]), doneEvents_blCnt, if_neg hmore]
    rfl
  rw [blinkLoop_succ h hd, blinkNext_goes_on (by rw [hend]; rfl), hend, doneEvents_setBlCnt]

/-- The loop runs as many cycles as the counter says. -/
theorem blinkLoop_count_done {n m : Nat} (hm : s.blMode = .count) (h : Blinks p lit dark s)
    (hcnt : s.blCnt.toNat = n + 1) (hle : n + 1 ≤ m) (hd : AnswersDone s (57 * (n + 1))) :
    blinkLoop m s = .ok (doneEvents (blinkCycles p lit dark (n + 1)) (setBlCnt .off 0 s)) := by
  induction n generalizing m s with
  | zero =>
    obtain ⟨m, rfl⟩ : ∃ k, m = k + 1 := ⟨m - 1, by omega⟩
    rw [blinkLoop_count_last hm h hd hcnt, blinkCycles_one]
  | succ n ih =>
    obtain ⟨m, rfl⟩ : ∃ k, m = k + 1 := ⟨m - 1, by omega⟩
    have hpred : (s.blCnt - 1).toNat = n + 1 := by rw [blCnt_pred (by omega), hcnt, Nat.add_sub_cancel]
    have hnext : Blinks p lit dark (setBlCnt .showing (s.blCnt - 1) s) := ⟨h.pattern, h.lit, h.dark⟩
    have hrest := ih (m := m) (by rwa [doneEvents_blMode]) (hnext.doneEvents _) (by rwa [doneEvents_blCnt])
      (by omega) (answersDone_blinkCycle (s := setBlCnt .showing (s.blCnt - 1) s) hd p lit dark)
    rw [blinkLoop_count_more hm h (fun k hk => hd k (by omega)) (by omega), hrest, ← doneEvents_setBlCnt,
      ← doneEvents_append]
    rfl

/-! ## The loop bounded by time -/

theorem blinkElapsed_setBl (b : BlinkState) (s : State) : blinkElapsed (setBl b s) = blinkElapsed s := rfl

theorem cycleTicks_doneEvents (evs : List Event) (s : State) : cycleTicks (doneEvents evs s) = cycleTicks s := by
  rw [cycleTicks, doneEvents_blShow, doneEvents_blIdle, doneEvents_params, cycleTicks]

/-- The time a cycle takes, as long as 64 bits hold it. -/
theorem blinkElapsed_blinkCycle (h : Blinks p lit dark s) (hfit : blinkElapsed s + cycleTicks s < 2 ^ 64) :
    blinkElapsed (doneEvents (blinkCycleEvents p lit dark) s) = blinkElapsed s + cycleTicks s := by
  have hticks : ticksOf s.params (blinkCycleEvents p lit dark) = cycleTicks s := by
    rw [ticksOf_blinkCycleEvents, cycleTicks, h.lit, h.dark]
  have htime (c : BitVec 64) : (s.time + c) - s.blT0 = (s.time - s.blT0) + c := by
    rw [BitVec.sub_eq_add_neg, BitVec.sub_eq_add_neg, BitVec.add_assoc, BitVec.add_assoc, BitVec.add_comm c]
  rw [blinkElapsed, doneEvents_time, doneEvents_blT0, hticks, htime, BitVec.toNat_add, BitVec.toNat_ofNat,
    Nat.add_mod_mod]
  exact Nat.mod_eq_of_lt hfit

theorem blinkLoop_elapsed_last (hm : s.blMode = .elapsed) (h : Blinks p lit dark s) (hd : AnswersDone s 57)
    (hover : s.blElapse.toNat ≤ blinkElapsed (doneEvents (blinkCycleEvents p lit dark) s)) (m : Nat) :
    blinkLoop (m + 1) s = .ok (doneEvents (blinkCycleEvents p lit dark) (setBl .off s)) := by
  have hend : endOfCycle (doneEvents (blinkCycleEvents p lit dark) s) =
      setBl .off (doneEvents (blinkCycleEvents p lit dark) s) := by
    rw [endOfCycle_elapsed (by rwa [doneEvents_blMode]), doneEvents_blElapse, if_pos hover]
  rw [blinkLoop_succ h hd, blinkNext_ends (by rw [hend]; rfl), hend, doneEvents_setBl]

theorem blinkLoop_elapsed_more (hm : s.blMode = .elapsed) (h : Blinks p lit dark s) (hd : AnswersDone s 57)
    (hleft : blinkElapsed (doneEvents (blinkCycleEvents p lit dark) s) < s.blElapse.toNat) (m : Nat) :
    blinkLoop (m + 1) s =
      blinkLoop m (doneEvents (blinkCycleEvents p lit dark) (setBl .showing s)) := by
  have hend : endOfCycle (doneEvents (blinkCycleEvents p lit dark) s) =
      setBl .showing (doneEvents (blinkCycleEvents p lit dark) s) := by
    rw [endOfCycle_elapsed (by rwa [doneEvents_blMode]), doneEvents_blElapse, if_neg (by omega)]
  rw [blinkLoop_succ h hd, blinkNext_goes_on (by rw [hend]; rfl), hend, doneEvents_setBl]

/-- The loop runs the fewest cycles, one at least, in which the time runs out. -/
theorem blinkLoop_elapsed_done {n m cyc : Nat} (hm : s.blMode = .elapsed) (h : Blinks p lit dark s)
    (hcyc : cycleTicks s = cyc) (hmore : n = 0 ∨ blinkElapsed s + n * cyc < s.blElapse.toNat)
    (hlast : s.blElapse.toNat ≤ blinkElapsed s + (n + 1) * cyc)
    (hfit : blinkElapsed s + (n + 1) * cyc < 2 ^ 64) (hle : n + 1 ≤ m) (hd : AnswersDone s (57 * (n + 1))) :
    blinkLoop m s = .ok (doneEvents (blinkCycles p lit dark (n + 1)) (setBl .off s)) := by
  induction n generalizing m s with
  | zero =>
    obtain ⟨m, rfl⟩ : ∃ k, m = k + 1 := ⟨m - 1, by omega⟩
    have htime := blinkElapsed_blinkCycle h (by omega)
    rw [blinkLoop_elapsed_last hm h hd (by omega), blinkCycles_one]
  | succ n ih =>
    obtain ⟨m, rfl⟩ : ∃ k, m = k + 1 := ⟨m - 1, by omega⟩
    rw [Nat.add_one_mul] at hlast hfit hmore
    have htime := blinkElapsed_blinkCycle h (by omega)
    have hnext : Blinks p lit dark (setBl .showing s) := ⟨h.pattern, h.lit, h.dark⟩
    have helapse : (setBl .showing s).blElapse = s.blElapse := rfl
    have htime' : blinkElapsed (doneEvents (blinkCycleEvents p lit dark) (setBl .showing s)) =
        blinkElapsed s + cyc := by
      rw [doneEvents_setBl, blinkElapsed_setBl, htime, hcyc]
    have hrest := ih (m := m) (by rwa [doneEvents_blMode]) (hnext.doneEvents _) (by rwa [cycleTicks_doneEvents])
      (by rw [htime', doneEvents_blElapse, helapse]; omega) (by rw [htime', doneEvents_blElapse, helapse]; omega)
      (by omega) (by omega) (answersDone_blinkCycle (s := setBl .showing s) hd p lit dark)
    rw [blinkLoop_elapsed_more hm h (fun k hk => hd k (by omega)) (by omega), hrest, ← doneEvents_setBl,
      ← doneEvents_append]
    rfl

end

/-! ## BLINKC (R144) -/

/-- `BLINKC` with a known character and its events done runs to the end of its count. -/
theorem exec_blinkc_done {c : Byte} {period dutyQ cycles : Word} {s : State} {p : Byte} (hu : SegUsable s)
    (h : BlinkLegal period dutyQ cycles) (hp : segLookup s.params c = some p) (hn : 0 < cycles.toNat)
    (hd : AnswersDone s (57 * cycles.toNat)) :
    exec (.blinkc c period dutyQ cycles) s = .next (endedOk 0x30
      (doneEvents (blinkCycles p (lit period dutyQ) (dark period dutyQ) cycles.toNat)
        (setBlCnt .off 0 (loadBlinkc c period dutyQ cycles s)))) := by
  have hne : cycles ≠ 0 := by
    rintro rfl
    cases hn
  obtain ⟨n, hsucc⟩ : ∃ n, cycles.toNat = n + 1 := ⟨cycles.toNat - 1, by omega⟩
  have ⟨_, _, _, hlast⟩ := h
  have hcnt : (loadBlinkc c period dutyQ cycles s).blCnt.toNat = n + 1 := by rw [loadBlinkc_blCnt hlast, hsucc]
  have hblinks : Blinks p (lit period dutyQ) (dark period dutyQ) (loadBlinkc c period dutyQ cycles s) :=
    ⟨hp, by rw [loadBlinkc_eq h, lit_fits h], by rw [loadBlinkc_eq h, dark_fits h]⟩
  have hle : n + 1 ≤ cyclesPerStep (loadBlinkc c period dutyQ cycles s) :=
    hcnt.symm.le.trans (Nat.le_max_right 1 _)
  rw [hsucc] at hd ⊢
  refine exec_eq_endedOk (i := .blinkc c period dutyQ cycles) (blinkTest_eq_none hu h) ?_ (by simp [Instr.op])
  rw [commandBody_blinkc hne, startBlink, blinkLoop_count_done rfl hblinks hcnt hle hd]

/-- Settles O51: the loop ends with its count (`exec_blinkc_done`), the display cleared by the last cycle
(`block_doneEvents_blinkCycles`). -/
theorem blinkcRunsExactlyItsCycles : Obligations.BlinkcRunsExactlyItsCycles := by
  refine fun c period dutyQ cycles => ⟨segPreamble_refuses (i := .blinkc c period dutyQ cycles)
    (by simp [Instr.op]), fun s hu h => ⟨?_, fun p hp hn hd => ⟨_, exec_blinkc_done hu h hp hn hd, ?_⟩⟩⟩
  · rintro rfl
    exact exec_blinkc_zero hu h
  · rw [block_endedOk, block_doneEvents_blinkCycles _ _ _ hn, lit_add_dark h, loadBlinkc_eq h]
    rfl

/-! ## BLINK (R146, R147) -/

/-- One step may run the cycles of R147, where a quotient by 0 counts none. -/
theorem cyclesPerStep_elapsed {s : State} (hm : s.blMode = .elapsed) :
    cyclesPerStep s =
      max 1 ((s.blElapse.toNat - blinkElapsed s + (cycleTicks s - 1)) / cycleTicks s) := by
  unfold cyclesPerStep
  rw [hm]
  dsimp only
  split
  next hzero => rw [hzero, Nat.div_zero]; rfl
  next => rfl

/-- The number of cycles of R147 is the least, one at least, whose ticks reach the time. -/
theorem ceil_cycles {e cyc n : Nat} (hcyc : 0 < cyc ∨ e = 0) (hn : n + 1 = max 1 ((e + (cyc - 1)) / cyc)) :
    (n = 0 ∨ n * cyc < e) ∧ e ≤ (n + 1) * cyc ∧ (n + 1) * cyc ≤ e + cyc := by
  have hquot := Nat.div_add_mod (e + (cyc - 1)) cyc
  rw [Nat.add_one_mul]
  rcases Nat.eq_zero_or_pos cyc with rfl | hpos
  · rw [Nat.div_zero] at hn
    omega
  · have hrem := Nat.mod_lt (e + (cyc - 1)) hpos
    generalize (e + (cyc - 1)) / cyc = q at hn hquot
    cases q with
    | zero =>
      obtain rfl : n = 0 := by omega
      omega
    | succ q =>
      obtain rfl : n = q := by omega
      rw [Nat.mul_comm, Nat.add_one_mul] at hquot
      omega

/-- `BLINK` with a known character and its events done runs until its time has run out. -/
theorem exec_blink_done {c : Byte} {period dutyQ elapse : Word} {s : State} {p : Byte} {cyc n : Nat}
    (hu : SegUsable s) (h : BlinkLegal period dutyQ elapse) (hp : segLookup s.params c = some p)
    (hcyc : cyc = period.toNat + 57 * s.params.tPin) (htime : 0 < cyc ∨ elapse = 0)
    (hfit : elapse.toNat + cyc < 2 ^ 64) (hn : n = max 1 ((elapse.toNat + (cyc - 1)) / cyc))
    (hd : AnswersDone s (57 * n)) :
    exec (.blink c period dutyQ elapse) s = .next (endedOk 0x31
      (doneEvents (blinkCycles p (lit period dutyQ) (dark period dutyQ) n)
        (setBl .off (loadBlink c period dutyQ elapse s)))) := by
  obtain ⟨m, rfl⟩ : ∃ m, n = m + 1 := ⟨n - 1, by omega⟩
  have ⟨_, _, _, hlast⟩ := h
  have hsum := lit_add_dark h
  have hzero : 0 < cyc ∨ elapse.toNat = 0 := htime.imp_right (fun he => by rw [he]; rfl)
  obtain ⟨hmore, hover, hmax⟩ := ceil_cycles hzero hn
  have hblinks : Blinks p (lit period dutyQ) (dark period dutyQ) (loadBlink c period dutyQ elapse s) :=
    ⟨hp, by rw [loadBlink_eq h, lit_fits h], by rw [loadBlink_eq h, dark_fits h]⟩
  have helapse : (loadBlink c period dutyQ elapse s).blElapse.toNat = elapse.toNat := by
    rw [loadBlink_eq h]
    exact toNat_ofNat_31 (toNat_lt hlast)
  have hstart : blinkElapsed (loadBlink c period dutyQ elapse s) = 0 := by
    show (s.time - s.time).toNat = 0
    rw [BitVec.sub_self]
    rfl
  have hticks : cycleTicks (loadBlink c period dutyQ elapse s) = cyc := by
    rw [cycleTicks, hblinks.lit, hblinks.dark, hsum, hcyc]
    rfl
  have hsteps : cyclesPerStep (loadBlink c period dutyQ elapse s) = m + 1 := by
    rw [cyclesPerStep_elapsed rfl, helapse, hstart, hticks, hn, Nat.sub_zero]
  refine exec_eq_endedOk (i := .blink c period dutyQ elapse) (blinkTest_eq_none hu h) ?_ (by simp [Instr.op])
  rw [commandBody, startBlink, hsteps]
  exact blinkLoop_elapsed_done rfl hblinks hticks (by rwa [hstart, helapse, Nat.zero_add])
    (by rwa [hstart, helapse, Nat.zero_add]) (by rw [hstart]; omega) le_rfl hd

/-- Settles O52: the loop ends with its time (`exec_blink_done`), the display cleared by the last cycle
(`block_doneEvents_blinkCycles`). -/
theorem blinkRunsUntilElapsed : Obligations.BlinkRunsUntilElapsed := by
  refine fun c period dutyQ elapse => ⟨segPreamble_refuses (i := .blink c period dutyQ elapse)
    (by simp [Instr.op]), fun s p cyc n hu h hp hcyc htime hfit hn hd =>
    ⟨_, exec_blink_done hu h hp hcyc htime hfit hn hd, ?_⟩⟩
  have hpos : 0 < n := by omega
  rw [block_endedOk, block_doneEvents_blinkCycles _ _ _ hpos, lit_add_dark h, loadBlink_eq h, hcyc]
  rfl

end Sys2Proof.Machine
end

section
/-! SUPPORT. A `BLINK` whose cycles take no time: every step runs one more of them, until a reset comes, with the
obligations about it (43_blink.md R148, 70_reset_and_hazards.md R190). -/

namespace Sys2Proof.Machine

open Sys2Proof.Claims

/-! ## A blink whose time never runs out -/

/-- The registers of a blink bounded by elapsed time whose cycles take none. -/
structure Timeless (p : Byte) (s : State) : Prop where
  mode : s.blMode = .elapsed
  blinks : Blinks p 0 0 s
  noTicks : s.params.tPin = 0
  started : s.time = s.blT0
  timeLeft : 0 < s.blElapse.toNat

/-- The block between two cycles of it. -/
structure Endless (p : Byte) (s : State) : Prop extends Timeless p s where
  busy : s.ready = false
  showing : s.blState = .showing

/-- BUSY and SHOWING. -/
def goingOn (s : State) : State := { s with ready := false, blState := .showing }

theorem goingOn_self {s : State} (hb : s.ready = false) (hs : s.blState = .showing) : goingOn s = s := by
  rw [goingOn, ← hb, ← hs]

/-- The inputs written. -/
def setInputs (inputs : List HostInput) (s : State) : State := { s with inputs := inputs }

theorem doneEvents_setInputs (evs : List Event) (inputs : List HostInput) (s : State) :
    doneEvents evs (setInputs inputs s) = setInputs inputs (doneEvents evs s) := by
  rw [doneEvents_eq, doneEvents_eq]
  rfl

section

variable {p : Byte} {s : State}

/-- Its cycles leave the clock where it is. -/
theorem Timeless.time_cycles (h : Timeless p s) (n : Nat) : (doneEvents (blinkCycles p 0 0 n) s).time = s.time := by
  have hticks : ticksOf s.params (blinkCycles p 0 0 n) = 0 := by rw [ticksOf_blinkCycles, h.noTicks, Nat.mul_zero]
  rw [doneEvents_time, hticks]
  exact BitVec.add_zero _

theorem Timeless.time_cycle (h : Timeless p s) : (doneEvents (blinkCycleEvents p 0 0) s).time = s.time := by
  rw [← blinkCycles_one]
  exact h.time_cycles 1

theorem Timeless.cycle (h : Timeless p s) : Timeless p (doneEvents (blinkCycleEvents p 0 0) s) where
  mode := by rw [doneEvents_blMode, h.mode]
  blinks := h.blinks.doneEvents _
  noTicks := by rw [doneEvents_params, h.noTicks]
  started := by rw [h.time_cycle, doneEvents_blT0, h.started]
  timeLeft := by rw [doneEvents_blElapse]; exact h.timeLeft

theorem Endless.cycle (h : Endless p s) : Endless p (doneEvents (blinkCycleEvents p 0 0) s) where
  toTimeless := h.toTimeless.cycle
  busy := by rw [doneEvents_ready, h.busy]
  showing := by rw [doneEvents_blState, h.showing]

theorem Endless.withInputs (h : Endless p s) (inputs : List HostInput) : Endless p (setInputs inputs s) :=
  ⟨⟨h.mode, ⟨h.blinks.pattern, h.blinks.lit, h.blinks.dark⟩, h.noTicks, h.started, h.timeLeft⟩, h.busy,
    h.showing⟩

theorem Timeless.endless (h : Timeless p s) : Endless p (goingOn s) :=
  ⟨⟨h.mode, ⟨h.blinks.pattern, h.blinks.lit, h.blinks.dark⟩, h.noTicks, h.started, h.timeLeft⟩, rfl, rfl⟩

/-- One step runs one cycle, behind which the blink is still running. -/
theorem blinkLoop_timeless (h : Timeless p s) (hd : AnswersDone s 57) :
    blinkLoop (cyclesPerStep s) s = .running (doneEvents (blinkCycleEvents p 0 0) (setBl .showing s)) := by
  have hticks : cycleTicks s = 0 := by rw [cycleTicks, h.blinks.lit, h.blinks.dark, h.noTicks]
  have hone : cyclesPerStep s = 1 := by rw [cyclesPerStep_elapsed h.mode, hticks, Nat.div_zero]; rfl
  have helapsed : blinkElapsed (doneEvents (blinkCycleEvents p 0 0) s) = 0 := by
    rw [blinkElapsed, h.time_cycle, doneEvents_blT0, h.started, BitVec.sub_self]
    rfl
  have hleft := h.timeLeft
  rw [hone, blinkLoop_elapsed_more h.mode h.blinks hd (by omega), blinkLoop]

/-- As a command or as a step it leaves the block BUSY. -/
theorem conclude_timeless (h : Timeless p s) (hd : AnswersDone s 57) (op : Op) (d : State → BitVec 24) :
    conclude op d (blinkLoop (cyclesPerStep s) s) =
      .next (doneEvents (blinkCycleEvents p 0 0) (goingOn s)) := by
  rw [blinkLoop_timeless h hd, conclude_running, doneEvents_eq, doneEvents_eq]
  rfl

theorem continueBlink_endless (h : Endless p s) (hd : AnswersDone s 57) :
    continueBlink s = .next (doneEvents (blinkCycleEvents p 0 0) s) := by
  have hgo := conclude_timeless h.toTimeless hd (blinkOp s) noData
  rw [goingOn_self h.busy h.showing] at hgo
  rw [continueBlink, h.showing]
  exact hgo

end

/-! ## Its steps -/

/-- The inputs behind an idle one, which a BUSY block takes and drops. -/
def behindIdle : List HostInput → List HostInput
  | .idle _ :: rest => rest
  | inputs => inputs

theorem packets_behindIdle (inputs : List HostInput) : packets (behindIdle inputs) = packets inputs := by
  fun_cases behindIdle inputs <;> rfl

theorem nextReset_behindIdle (inputs : List HostInput) : nextReset (behindIdle inputs) = nextReset inputs := by
  fun_cases behindIdle inputs <;> rfl

theorem setInputs_self {s : State} {inputs : List HostInput} (h : s.inputs = inputs) : setInputs inputs s = s := by
  subst h
  rfl

theorem step_busy {s : State} (hb : s.ready = false) :
    step s = busyStep (setInputs (behindIdle s.inputs) s) := by
  rw [step, if_neg (by simp [hb])]
  cases hi : s.inputs with
  | nil => exact congrArg busyStep (setInputs_self hi).symm
  | cons x rest =>
    cases x with
    | idle d => rfl
    | reset n => exact congrArg busyStep (setInputs_self hi).symm
    | packet a b => exact congrArg busyStep (setInputs_self hi).symm

/-- A step of it, against the reset that may come. -/
theorem step_endless {p : Byte} {s : State} (h : Endless p s) (hd : AnswersDone s 57) :
    step s = raceReset (nextReset s.inputs) (setInputs (behindIdle s.inputs) s)
      (.next (doneEvents (blinkCycleEvents p 0 0) (setInputs (behindIdle s.inputs) s))) := by
  rw [step_busy h.busy, busyStep, continueBlink_endless (h.withInputs (behindIdle s.inputs)) hd]
  exact congrArg (raceReset · _ _) (nextReset_behindIdle s.inputs)

/-! ## Without a reset (R148) -/

/-- However many steps it runs, it runs as many cycles and takes no packet. -/
theorem runsTo_endless {p : Byte} {s : State} (h : Endless p s) (hno : nextReset s.inputs = none) {k : Nat}
    (hd : AnswersDone s (57 * k)) :
    ∃ inputs, packets inputs = packets s.inputs ∧
      RunsTo k s (doneEvents (blinkCycles p 0 0 k) (setInputs inputs s)) := by
  induction k generalizing s with
  | zero => exact ⟨s.inputs, rfl, rfl⟩
  | succ k ih =>
    have hstep := step_endless h (fun j hj => hd j (by omega))
    rw [hno, raceReset_none] at hstep
    have hrest := ih (h.withInputs (behindIdle s.inputs)).cycle
      (by rw [doneEvents_inputs]; exact (nextReset_behindIdle s.inputs).trans hno)
      (answersDone_blinkCycle (s := setInputs (behindIdle s.inputs) s) hd p 0 0)
    obtain ⟨inputs, hpackets, hrun⟩ := hrest
    rw [doneEvents_inputs] at hpackets
    rw [← doneEvents_setInputs, ← doneEvents_append] at hrun
    exact ⟨inputs, hpackets.trans (packets_behindIdle s.inputs), _, hstep, hrun⟩

/-- A `BLINK` of no period starts it. -/
theorem timeless_loadBlink {c : Byte} {period dutyQ elapse : Word} {s : State} {p : Byte}
    (h : BlinkLegal period dutyQ elapse) (hp : segLookup s.params c = some p)
    (hcyc : period.toNat + 57 * s.params.tPin = 0) (he : 0 < elapse.toNat) :
    Timeless p (loadBlink c period dutyQ elapse s) := by
  have ⟨_, _, _, hlast⟩ := h
  have hsum := lit_add_dark h
  have hlit : lit period dutyQ = 0 := by omega
  have hdark : dark period dutyQ = 0 := by omega
  have htPin : s.params.tPin = 0 := by omega
  have hleft : 0 < (BitVec.ofNat 31 elapse.toNat).toNat := by rwa [toNat_ofNat_31 (toNat_lt hlast)]
  rw [loadBlink_eq h, hlit, hdark]
  exact ⟨rfl, ⟨hp, rfl, rfl⟩, htPin, rfl, hleft⟩

/-- Settles O53: the command starts the endless blink (`conclude_timeless`), and every step goes on with it
(`runsTo_endless`). -/
theorem zeroPeriodBlinkNeverEnds : Obligations.ZeroPeriodBlinkNeverEnds := by
  intro c period dutyQ elapse s p hu h hp hcyc he hno k hd
  have htimeless := timeless_loadBlink h hp hcyc he
  have hexec : exec (.blink c period dutyQ elapse) s = .next
      (doneEvents (blinkCycleEvents p 0 0) (goingOn (loadBlink c period dutyQ elapse s))) := by
    rw [exec_body (i := .blink c period dutyQ elapse) (blinkTest_eq_none hu h)]
    exact conclude_timeless htimeless (fun j hj => hd j (by omega)) _ _
  have hnone : nextReset s.inputs = none := by
    by_contra hreset
    obtain ⟨n, hn⟩ := mem_of_nextReset hreset
    exact hno n hn
  obtain ⟨inputs, hpackets, hrun⟩ := runsTo_endless htimeless.endless.cycle
    (by rw [doneEvents_inputs]; exact hnone)
    (answersDone_blinkCycle (s := goingOn (loadBlink c period dutyQ elapse s)) hd p 0 0)
  rw [doneEvents_inputs] at hpackets
  rw [← doneEvents_setInputs, ← doneEvents_append] at hrun
  refine ⟨_, _, hexec, hrun, doneEvents_ready _ _, doneEvents_blState _ _, doneEvents_responses _ _,
    (congrArg packets (doneEvents_inputs _ _)).trans hpackets, doneEvents_status _ _,
    (htimeless.endless.withInputs inputs).time_cycles (k + 1), doneEvents_trace _ _⟩

/-! ## A reset that comes (R190) -/

theorem mem_of_onlyPackets {waiting : List HostInput} (h : OnlyPackets waiting) {x : HostInput}
    (hx : x ∈ waiting) : ∃ a b, x = .packet a b := by
  have hkept := List.filter_eq_self.1 h x hx
  cases x with
  | packet a b => exact ⟨a, b, rfl⟩
  | idle d => cases hkept
  | reset n => cases hkept

theorem nextReset_of_onlyPackets {waiting : List HostInput} (h : OnlyPackets waiting) :
    nextReset waiting = none := by
  by_contra hreset
  obtain ⟨n, hn⟩ := mem_of_nextReset hreset
  obtain ⟨_, _, hpacket⟩ := mem_of_onlyPackets h hn
  cases hpacket

theorem behindIdle_of_onlyPackets {waiting : List HostInput} (h : OnlyPackets waiting) (n : Nat)
    (rest : List HostInput) : behindIdle (waiting ++ .reset n :: rest) = waiting ++ .reset n :: rest := by
  cases waiting with
  | nil => rfl
  | cons x more =>
    obtain ⟨a, b, rfl⟩ := mem_of_onlyPackets h List.mem_cons_self
    rfl

theorem emittedBetween_doneEvents (evs : List Event) (s : State) :
    emittedBetween s (doneEvents evs s) = evs.length := by
  rw [emittedBetween, doneEvents_trace, List.length_append, Nat.add_sub_cancel_left, doneEntries, List.length_map]

/-- A whole cycle in front of the cut. -/
theorem take_sent_blinkCycles (p : Byte) (k : Nat) {n : Nat} (hn : 59 ≤ n) :
    (sent (blinkCycles p 0 0 (k + 1))).take n =
      doneEntries (blinkCycleEvents p 0 0) ++ (sent (blinkCycles p 0 0 k)).take (n - 59) := by
  obtain ⟨m, rfl⟩ := Nat.exists_eq_add_of_le hn
  have hlength : (doneEntries (blinkCycleEvents p 0 0)).length = 59 := rfl
  have happend : sent (blinkCycles p 0 0 (k + 1)) =
      doneEntries (blinkCycleEvents p 0 0) ++ sent (blinkCycles p 0 0 k) := List.map_append
  rw [happend, ← hlength, List.take_length_add_append, Nat.add_sub_cancel_left]

section

variable {p : Byte} {s : State} {n : Nat} {waiting rest : List HostInput}

theorem step_endless_reset (h : Endless p s) (hi : s.inputs = waiting ++ .reset n :: rest)
    (hw : OnlyPackets waiting) (hd : AnswersDone s 57) :
    step s = raceReset (some n) s (.next (doneEvents (blinkCycleEvents p 0 0) s)) := by
  have hsame : setInputs (behindIdle s.inputs) s = s :=
    setInputs_self (by rw [hi, behindIdle_of_onlyPackets hw])
  rw [step_endless h hd, hsame, hi, nextReset_append (nextReset_of_onlyPackets hw)]

/-- The reset comes in this cycle: the events in front of it have left the block. -/
theorem step_endless_cut (h : Endless p s) (hi : s.inputs = waiting ++ .reset n :: rest)
    (hw : OnlyPackets waiting) (hd : AnswersDone s 57) (hn : n ≤ 59) :
    step s = .next (resetBlock (waiting ++ rest) (cutShort n s (doneEvents (blinkCycleEvents p 0 0) s))) := by
  rw [step_endless_reset h hi hw hd, raceReset_cut (by rwa [emittedBetween_doneEvents]), hi,
    dropReset_append (nextReset_of_onlyPackets hw)]

/-- The reset comes later: it is one cycle of 59 events nearer. -/
theorem step_endless_later (h : Endless p s) (hi : s.inputs = waiting ++ .reset n :: rest)
    (hw : OnlyPackets waiting) (hd : AnswersDone s 57) (hn : 59 < n) :
    step s = .next (setInputs (waiting ++ .reset (n - 59) :: rest) (doneEvents (blinkCycleEvents p 0 0) s)) := by
  rw [step_endless_reset h hi hw hd, raceReset_later (by rwa [emittedBetween_doneEvents]),
    emittedBetween_doneEvents, doneEvents_inputs, hi, delayReset_append (nextReset_of_onlyPackets hw)]
  rfl

/-- The cycle in which the reset comes is the last: what has left the block is cut off there. -/
theorem runsTo_reset_endless {k : Nat} (h : Endless p s) (hi : s.inputs = waiting ++ .reset n :: rest)
    (hw : OnlyPackets waiting) (hle : n ≤ 59 * (k + 1)) (hgt : k = 0 ∨ 59 * k < n)
    (hd : AnswersDone s (57 * (k + 1))) :
    ∃ v, RunsTo (k + 1) s (resetBlock (waiting ++ rest) v) ∧ v.responses = s.responses ∧ v.params = s.params ∧
      v.past ++ v.trace = s.past ++ s.trace ++ (sent (blinkCycles p 0 0 (k + 1))).take n := by
  induction k generalizing s n with
  | zero =>
    refine ⟨_, ⟨_, step_endless_cut h hi hw hd hle, rfl⟩, rfl, rfl, ?_⟩
    rw [cutShort_past, cutShort_trace, doneEvents_trace, List.drop_left, blinkCycles_one, List.append_assoc]
    rfl
  | succ k ih =>
    have hstep := step_endless_later h hi hw (fun j hj => hd j (by omega)) (by omega)
    rw [← doneEvents_setInputs] at hstep
    obtain ⟨v, hrun, hresponses, hparams, hsent⟩ := ih (n := n - 59)
      (h.withInputs (waiting ++ .reset (n - 59) :: rest)).cycle (by rw [doneEvents_inputs]; rfl) (by omega)
      (by omega) (answersDone_blinkCycle (s := setInputs (waiting ++ .reset (n - 59) :: rest) s) hd p 0 0)
    refine ⟨v, ⟨_, hstep, hrun⟩, hresponses.trans (doneEvents_responses _ _),
      hparams.trans (doneEvents_params _ _), hsent.trans ?_⟩
    rw [take_sent_blinkCycles p (k + 1) (by omega), doneEvents_past, doneEvents_trace, List.append_assoc,
      List.append_assoc, List.append_assoc]
    rfl

end

theorem afterReset_resetBlock {s v : State} (rest : List HostInput) (hr : v.responses = s.responses)
    (hp : v.params = s.params) : AfterReset s (resetBlock rest v) := by
  have hword : Status.reset.word = 0 := by decide
  simp [AfterReset, hword, hr, hp, BlinkMode.bits]

/-- Settles O54: the steps go on with the blink until the reset comes (`runsTo_reset_endless`). -/
theorem resetEndsAnEndlessBlink : Obligations.ResetEndsAnEndlessBlink := by
  intro s p n waiting rest _ hbusy hshow hmode hp hlit hdark hpin htime helapse hi hw hd
  have hblinks : Blinks p 0 0 s := ⟨hp, by rw [hlit]; rfl, by rw [hdark]; rfl⟩
  have h : Endless p s := ⟨⟨hmode, hblinks, hpin, htime, helapse⟩, hbusy, hshow⟩
  obtain ⟨k, hk⟩ : ∃ k, max 1 ((n + 58) / 59) = k + 1 := ⟨max 1 ((n + 58) / 59) - 1, by omega⟩
  rw [hk] at hd ⊢
  obtain ⟨v, hrun, hresponses, hparams, hsent⟩ := runsTo_reset_endless h hi hw (by omega) (by omega) hd
  exact ⟨_, hrun, afterReset_resetBlock _ hresponses hparams, rfl, hsent⟩

end Sys2Proof.Machine
end

section
/-! SUPPORT. A command refused at its tests, by the test that refuses it, with the obligations about it
(60_exceptions.md R156, R158, R163, R164). -/

namespace Sys2Proof.Machine

open Sys2Proof.Claims

/-! ## The code of a test that fails -/

theorem firstFailure_eq_some {a b : Option Code} {e : Code} (h : firstFailure a b = some e) :
    a = some e ∨ b = some e := by
  cases a with
  | none => exact .inr h
  | some c => exact .inl h

theorem fatalTest_eq_some {s : State} {e : Code} (h : fatalTest s = some e) : e = .hardwareIO := by
  unfold fatalTest at h
  split at h <;> cases h
  rfl

theorem argumentTest_eq_some {ok : Bool} {e : Code} (h : argumentTest ok = some e) : e = .invalidArgument := by
  unfold argumentTest at h
  split at h <;> cases h
  rfl

theorem ledPreamble_ne_invalidArgument (s : State) : ledPreamble s ≠ some .invalidArgument := by
  unfold ledPreamble
  split
  · simp
  · split <;> simp

theorem segPreamble_ne_invalidArgument (s : State) : segPreamble s ≠ some .invalidArgument := by
  unfold segPreamble
  split
  · simp
  · split <;> simp

/-- The commands without an operand that can be invalid test none (R157). -/
theorem commandTest_ne_invalidArgument {i : Instr}
    (h : i.op ∈ [Op.advance, .scroll, .render, .clear, .segcfg]) (s : State) :
    commandTest i s ≠ some .invalidArgument := by
  cases i with
  | advance => exact ledPreamble_ne_invalidArgument s
  | scroll => exact ledPreamble_ne_invalidArgument s
  | render => exact ledPreamble_ne_invalidArgument s
  | clear => exact segPreamble_ne_invalidArgument s
  | segcfg d => exact fun hc => by cases fatalTest_eq_some hc
  | _ => simp [Instr.op] at h

/-! ## The code of a command that ends -/

/-- Where the code of a command that ended comes from: it went through, a test refused it, or its body raised. -/
theorem exec_code {i : Instr} {s t : State} (h : exec i s = .next t) (hr : t.ready = true) :
    t.status.code = .ok ∨ commandTest i s = some t.status.code ∨
      ∃ u, commandBody i s = .raised t.status.code u := by
  rcases exec_cases h with ⟨e, he, rfl⟩ | ⟨-, h⟩
  · exact .inr (.inl he)
  · rcases conclude_cases h with ⟨u, -, rfl⟩ | ⟨e, u, hu, rfl⟩ | ⟨u, -, rfl⟩
    · exact .inl rfl
    · exact .inr (.inr ⟨u, hu⟩)
    · cases hr

/-- Only a `BLINK` can be left running (43_blink.md R148). -/
theorem exec_ready_of_ne_blink {i : Instr} {s t : State} (h : exec i s = .next t) (hi : i.op ≠ .blink) :
    t.ready = true := by
  rcases oneResponsePerCommand i s t h with ⟨hr, -⟩ | ⟨-, hop, -⟩
  · exact hr
  · exact absurd hop hi

/-! ## NotConfigured (R158) -/

/-- The commands without a preamble test no unit. -/
theorem commandTest_ne_notConfigured {i : Instr} (h : i.op ∈ [Op.hue2rgb, .configure, .segcfg]) (s : State) :
    commandTest i s ≠ some .notConfigured := by
  have hranged (ok : Bool) : firstFailure (fatalTest s) (argumentTest ok) ≠ some .notConfigured := by
    intro hc
    rcases firstFailure_eq_some hc with hc | hc
    · cases fatalTest_eq_some hc
    · cases argumentTest_eq_some hc
  cases i with
  | hue2rgb hue => exact hranged _
  | configure df n => exact hranged _
  | segcfg d => exact fun hc => by cases fatalTest_eq_some hc
  | _ => simp [Instr.op] at h

/-- Settles O19: the preambles of the two units (`ledPreamble_refuses`, `segPreamble_refuses`), and the tests of
the three commands that have none. -/
theorem unconfiguredUnitsRefuse : Obligations.UnconfiguredUnitsRefuse := by
  refine ⟨fun i s hi => (ledPreamble_refuses hi).2 s, fun i s hi => (segPreamble_refuses hi).2 s,
    fun i s t hi h hcode => ?_⟩
  have hr : t.ready = true := exec_ready_of_ne_blink h (fun hop => by simp [hop] at hi)
  rcases exec_code h hr with hok | htest | ⟨u, hu⟩
  · cases hok.symm.trans hcode
  · exact commandTest_ne_notConfigured hi s (hcode ▸ htest)
  · have hran := ran_commandBody i s
    rw [hu, hcode] at hran
    simpa using hran.code

/-! ## Operands out of range (R156) -/

theorem blinkTest_outOfRange {p q n : Word} {s : State} (hu : SegUsable s)
    (h : p.toInt < 0 ∨ q.toInt < 0 ∨ 65536 < q.toInt ∨ n.toInt < 0) :
    firstFailure (segPreamble s) (argumentTest (blinkOperandsOk p q n)) = some .invalidArgument := by
  rw [segPreamble_eq_none.2 hu, not_of_iff (blinkOperandsOk_iff p q n) (by omega)]
  rfl

/-- Settles O25: one range test per command, behind its preamble. -/
theorem operandsOutOfRangeAreRefused : Obligations.OperandsOutOfRangeAreRefused := by
  refine ⟨fun _ _ => exec_hue2rgb_outOfRange, fun _ _ => exec_configure_outOfRange (df := false),
    fun index led s hu => ((setWritesOneRecord index led).2 s hu).1, fun _ _ => exec_write_outOfRange,
    fun c p q n s hu h => ⟨?_, ?_⟩⟩
  · exact exec_eq_ended_of_commandTest (i := .blinkc c p q n) (blinkTest_outOfRange hu h)
  · exact exec_eq_ended_of_commandTest (i := .blink c p q n) (blinkTest_outOfRange hu h)

end Sys2Proof.Machine
end

section
/-! SUPPORT. A READY block between commands: time that passes, and a packet that does not decode, with the
obligations about them (60_exceptions.md R159, R173). -/

namespace Sys2Proof.Machine

open Sys2Proof.Claims

/-- Settles O12: the two inputs of a READY block without a command. -/
theorem waitingBlockOnlyLetsTimePass : Obligations.WaitingBlockOnlyLetsTimePass := by
  refine fun s hr => ⟨fun hi => ?_, fun d rest hi => ?_⟩
  · rw [step, if_pos hr, hi]
  · rw [step, if_pos hr, hi]
    rfl

theorem headerOp_eq_ofNat (h : Word) : headerOp h = BitVec.ofNat 8 (h.toNat % 256) := by
  apply BitVec.eq_of_toNat_eq
  rw [headerOp_toNat, BitVec.toNat_ofNat, Nat.mod_mod]

/-- A packet that does not decode only ends, `FATAL` as it was. -/
theorem step_illegal {s : State} {h : Word} {ws : List Word} {rest : List HostInput} {r : Illegal}
    (hr : s.ready = true) (hi : s.inputs = .packet h ws :: rest) (hrest : NoResetBehind rest)
    (hd : decode (h :: ws) = .error r) :
    step s = .next (ended (BitVec.ofNat 8 (h.toNat % 256)) .illegalCommand 5 { s with inputs := rest }) := by
  have hreject : rejectPacket h (acceptPacket rest s) =
      ended (headerOp h) .illegalCommand 5 (acceptPacket rest s) :=
    endCommand_eq_ended (Bool.or_false _) _ 0
  rw [step_packet hr hi, resetBehind_eq_none hrest, raceReset_none, runPacket, hd, ← headerOp_eq_ofNat]
  exact congrArg _ hreject

/-- Settles O8: the end of such a packet (`step_illegal`) finds `READY` and `BL_STATE` as it leaves them. -/
theorem illegalPacketChangesOnlyStatus : Obligations.IllegalPacketChangesOnlyStatus := by
  intro s h ws rest r hr hoff hi hrest hd
  rw [step_illegal hr hi hrest hd, ended, ← hr, ← hoff]

end Sys2Proof.Machine
end

section
/-! SUPPORT. What a command appends to the trace, and the answers and the ticks it takes, with the obligations about
it (60_exceptions.md R160, R168, R172, R173). -/

namespace Sys2Proof.Machine

/-- What a command emitted, up to a state that its end completes: a failed event is its last, and is what
`HardwareIO` reports of a command that its first test let pass. -/
theorem exec_ran {i : Instr} {s t : State} (h : exec i s = .next t) :
    ∃ u new, Ran s u new ∧
      t = { u with
        ready := t.ready, status := t.status, responses := t.responses, blState := t.blState } ∧
      ((AllDone new ∧ (s.status.fatal = false → t.ready = true → t.status.code ≠ .hardwareIO)) ∨
       (LastFailed new ∧ t.status.code = .hardwareIO)) := by
  rcases exec_cases h with ⟨e, he, rfl⟩ | ⟨-, h⟩
  · refine ⟨s, [], Ran.refl s, rfl, .inl ⟨fun _ hmem => (List.not_mem_nil hmem).elim, fun hf _ => ?_⟩⟩
    rcases commandTest_some he with ⟨-, hf'⟩ | ⟨-, rfl | rfl⟩
    · cases hf.symm.trans hf'
    · simp [raise]
    · simp [raise]
  · have hran := ran_commandBody i s
    rcases conclude_cases h with ⟨u, hu, rfl⟩ | ⟨e, u, hu, rfl⟩ | ⟨u, hu, rfl⟩ <;> rw [hu] at hran
    · obtain ⟨new, hnew, hdone⟩ := hran
      exact ⟨u, new, hnew, rfl, .inl ⟨hdone, fun _ _ => by simp [complete]⟩⟩
    · obtain ⟨new, hnew, ⟨rfl, hlast⟩ | ⟨rfl, hdone⟩⟩ := hran
      · exact ⟨u, new, hnew, rfl, .inr ⟨hlast, rfl⟩⟩
      · exact ⟨u, new, hnew, rfl, .inl ⟨hdone, fun _ _ => by simp [raise]⟩⟩
    · obtain ⟨new, hnew, hdone⟩ := hran
      exact ⟨u, new, hnew, rfl, .inl ⟨hdone, fun _ hr => by cases hr⟩⟩

theorem LastFailed.exists_fail {new : List TraceEntry} (h : LastFailed new) : ∃ e ∈ new, e.answer = .fail := by
  obtain ⟨-, e, hlast, hfail⟩ := h
  exact ⟨e, List.mem_of_getLast? hlast, hfail⟩

theorem AllDone.not_exists_fail {new : List TraceEntry} (h : AllDone new) : ¬ ∃ e ∈ new, e.answer = .fail := by
  rintro ⟨e, he, hfail⟩
  cases (h e he).symm.trans hfail

/-- The answers that were taken are the next ones, in order. -/
theorem Ran.answersOf_eq {s t : State} {new : List TraceEntry} (h : Ran s t new) :
    answersOf new = (List.range (answersOf new).length).map (answerAt s) := by
  apply List.ext_getElem?
  intro k
  by_cases hk : k < (answersOf new).length
  · rw [h.taken k hk, List.getElem?_map, List.getElem?_range hk, Option.map_some]
  · rw [List.getElem?_eq_none (by omega), List.getElem?_eq_none (by simpa using hk)]

/-- Settles O23: what a command emitted (`exec_ran`) took the answers in their order (`Ran.answersOf_eq`). -/
theorem eventsTakeTheAnswersInOrder : Obligations.EventsTakeTheAnswersInOrder := by
  intro i s t h
  obtain ⟨u, new, hran, ht, hends⟩ := exec_ran h
  have hcount : (new.filter (fun e => e.event.answered)).length = (answersOf new).length := by
    rw [answersOf, List.length_map]
  refine ⟨new, ?_, ?_, ?_, ?_, ?_, hran.waits, fun hf hr => ?_⟩
  · rw [ht]
    exact hran.trace
  · rw [ht, hcount]
    exact hran.answers
  · rw [ht, hcount]
    exact hran.freeIdx
  · rw [hcount]
    exact hran.answersOf_eq
  · rcases hends with ⟨hdone, -⟩ | ⟨⟨hdone, -⟩, -⟩
    · exact fun e he => hdone e (List.dropLast_subset _ he)
    · exact hdone
  · rcases hends with ⟨hdone, hcode⟩ | ⟨hlast, hcode⟩
    · exact iff_of_false (hcode hf hr) hdone.not_exists_fail
    · exact iff_of_true hcode hlast.exists_fail

/-- Settles O24: the ticks of what a command emitted (`exec_ran`), event by event. -/
theorem timeMovesByTheEvents : Obligations.TimeMovesByTheEvents := by
  intro i s t h
  obtain ⟨u, new, hran, ht, -⟩ := exec_ran h
  refine ⟨new, by rw [ht]; exact hran.trace, ?_⟩
  rw [ht]
  refine hran.time.trans (congrArg (fun ticks : List Nat => s.time + BitVec.ofNat 64 ticks.sum) ?_)
  refine List.map_congr_left fun e _ => ?_
  cases e.event <;> rfl

end Sys2Proof.Machine
end

section
/-! SUPPORT. The bodies that raise `InvalidArgument`: only a lookup does, before any event of its command but in
`PUTS`. With it the codes a command can end with and what a refusal leaves, with the obligations about them
(60_exceptions.md R155 to R157, R161, R164; 90_conflicts.md C3). -/

namespace Sys2Proof.Machine

open Sys2Proof.Claims

/-! ## Bodies that refuse no argument -/

/-- The body does not end with `InvalidArgument`. -/
def Result.Accepts (r : Result) : Prop := ∀ u, r ≠ .raised .invalidArgument u

theorem Result.Accepts.bind {r : Result} {f : State → Result} (hr : r.Accepts)
    (hf : ∀ t, r = .ok t → (f t).Accepts) : (r.bind f).Accepts := by
  cases r with
  | ok t => exact hf t rfl
  | raised e t => exact hr
  | running t => exact hr

theorem accepts_emitAll (evs : List Event) (s : State) : (emitAll evs s).Accepts :=
  fun _ h => by cases emitAll_raised h

/-- A cycle that shows a known character can only fail at an event. -/
theorem accepts_blinkCycle {p : Byte} {s : State} (h : segLookup s.params s.blChar = some p) :
    (blinkCycle s).Accepts := by
  rw [blinkCycle_eq h]
  exact (accepts_emitAll _ _).bind fun _ _ => accepts_emitAll _ _

/-- So can the loop: the character stays as it is from cycle to cycle. -/
theorem accepts_blinkLoop (n : Nat) {p : Byte} {s : State} (h : segLookup s.params s.blChar = some p) :
    (blinkLoop n s).Accepts := by
  induction n generalizing s with
  | zero => exact fun _ hr => by cases hr
  | succ n ih =>
    refine (accepts_blinkCycle h).bind fun t ht => ?_
    obtain ⟨hparams, -⟩ := (ran_blinkCycle s).environment
    have hchar := (fixed_blinkCycle s).1.char
    rw [ht, Result.state] at hparams hchar
    have hnext : segLookup (endOfCycle t).params (endOfCycle t).blChar = some p := by
      obtain ⟨-, -, -, -, hp, -⟩ := endOfCycle_stores t
      rw [hp, (fixed_endOfCycle t).char, hparams, hchar, h]
    unfold blinkNext
    split
    · exact fun _ hr => by cases hr
    · exact ih hnext

/-! ## Bodies that refuse one -/

/-- Only the registers of 10_state.md R23 to R27 differ. -/
def OnlyBlink (s u : State) : Prop :=
  u = { s with
    blState := u.blState
    blMode := u.blMode
    blChar := u.blChar
    blShow := u.blShow
    blIdle := u.blIdle
    blCnt := u.blCnt
    blT0 := u.blT0
    blElapse := u.blElapse }

/-- A blink refuses an unknown character, its registers loaded, and nothing else. -/
theorem startBlink_refuses {load : State → State} {s u : State} (hload : OnlyBlink s (load s))
    (h : startBlink load s = .raised .invalidArgument u) :
    segLookup s.params (load s).blChar = none ∧ OnlyBlink s u := by
  have hparams : (load s).params = s.params := by rw [hload]
  cases hc : segLookup (load s).params (load s).blChar with
  | some p => exact absurd h (accepts_blinkLoop _ hc u)
  | none =>
    rw [startBlink_unknown hc] at h
    injection h with _ hu
    refine ⟨hparams ▸ hc, ?_⟩
    rw [← hu, hload]
    rfl

/-- What a body that ends with `InvalidArgument` has done: nothing, but for a `PUTS` behind its first character and
for the registers a blink loads. -/
theorem commandBody_refuses {i : Instr} {s u : State} (h : commandBody i s = .raised .invalidArgument u) :
    (∃ c d, i = .putc c d ∧ u = s) ∨
    (∃ df d c cs, i = .puts df d (c :: cs) ∧ (segLookup s.params c = none → u = s)) ∨
    ∃ c p q n, (i = .blinkc c p q n ∨ i = .blink c p q n) ∧ segLookup s.params c = none ∧ OnlyBlink s u := by
  cases i with
  | hue2rgb hue => cases h
  | configure df n =>
    obtain ⟨v, -, -, -, hb | hb⟩ := configureBody_cases (effectiveCount df n).toNat s <;> cases hb.symm.trans h
  | set index led => cases h
  | advance => cases h
  | scroll => cases h
  | render => exact absurd h (accepts_emitAll _ s u)
  | segcfg d => obtain ⟨v, -, -, ⟨-, hb⟩ | hb⟩ := segcfgBody_cases d s <;> cases hb.symm.trans h
  | write v => exact absurd h (accepts_emitAll _ s u)
  | clear => exact absurd ((clearSeq_eq s).symm.trans h) (accepts_emitAll _ s u)
  | putc c d =>
    refine .inl ⟨c, d, rfl, ?_⟩
    cases hc : segLookup s.params c with
    | some p => exact absurd ((putcSeq_eq _ hc).symm.trans h) (accepts_emitAll _ s u)
    | none => cases (putcSeq_unknown _ hc).symm.trans h; rfl
  | puts df d cs =>
    cases cs with
    | nil => cases h
    | cons c rest =>
      refine .inr (.inl ⟨df, d, c, rest, rfl, fun hc => ?_⟩)
      rw [commandBody, putsSeq, putcSeq_unknown _ hc] at h
      cases h
      rfl
  | blinkc c p q n =>
    by_cases hn : n = 0
    · cases (if_pos hn).symm.trans h
    · exact .inr (.inr ⟨c, p, q, n, .inl rfl, startBlink_refuses (load := loadBlinkc c p q n) rfl
        ((commandBody_blinkc hn c p q s).symm.trans h)⟩)
  | blink c p q n => exact .inr (.inr ⟨c, p, q, n, .inr rfl, startBlink_refuses (load := loadBlink c p q n) rfl h⟩)

/-! ## The codes (R155 to R157) -/

/-- Settles O20: a test refuses with three codes (`commandTest_some`), a body raises two (`Result.Ran.code`), and
the commands that raise `InvalidArgument` are known (`commandTest_ne_invalidArgument`, `commandBody_refuses`). -/
theorem codesACommandCanEndWith : Obligations.CodesACommandCanEndWith := by
  intro i s t h hr
  rcases exec_code h hr with hcode | htest | ⟨u, hu⟩
  · simp [hcode]
  · refine ⟨?_, ?_, fun hi hcode => commandTest_ne_invalidArgument hi s (hcode ▸ htest)⟩ <;>
      rcases commandTest_some htest with ⟨hcode, -⟩ | ⟨-, hcode | hcode⟩ <;> simp [hcode]
  · have hran := ran_commandBody i s
    rw [hu] at hran
    refine ⟨?_, ?_, fun hi hcode => ?_⟩
    · rcases hran.code with hcode | hcode <;> simp [hcode]
    · rcases hran.code with hcode | hcode <;> simp [hcode]
    · rw [hcode] at hu
      rcases commandBody_refuses hu with
        ⟨_, _, rfl, -⟩ | ⟨_, _, _, _, rfl, -⟩ | ⟨_, _, _, _, rfl | rfl, -⟩ <;> simp [Instr.op] at hi

/-! ## What a refusal leaves (R164) -/

theorem responseWord_zero (e : Code) : responseWord e 0 = e.bits.setWidth 32 := by
  cases e <;> decide

/-- While `BL_STATE` is OFF the other blink registers mean nothing (10_state.md R28). -/
theorem meaningful_ended_of_onlyBlink {s u : State} (h : OnlyBlink s u) (op : Byte) (c : Code) (w : Word) :
    meaningful (ended op c w u) = meaningful (ended op c w s) := by
  rw [h]
  rfl

/-- A blink whose tests pass has legal operands. -/
theorem blinkLegal_of_commandTest {i : Instr} {c : Byte} {p q n : Word} {s : State}
    (hi : i = .blinkc c p q n ∨ i = .blink c p q n) (ht : commandTest i s = none) : BlinkLegal p q n := by
  have htest : firstFailure (segPreamble s) (argumentTest (blinkOperandsOk p q n)) = none := by
    rcases hi with rfl | rfl <;> exact ht
  obtain ⟨-, hok⟩ := firstFailure_eq_none.1 htest
  exact (blinkOperandsOk_iff p q n).1 (argumentTest_eq_none.1 hok)

/-- How a command that R164 calls rejected has ended: at once, or as a blink with an unknown character, its
registers loaded. -/
theorem exec_rejected {i : Instr} {s t : State} (h : exec i s = .next t) (hr : t.ready = true)
    (hrej : t.status.code = .notConfigured ∨ (t.status.code = .hardwareIO ∧ s.status.fatal = true) ∨
      (t.status.code = .invalidArgument ∧
        ∀ df d c cs, i = .puts df d (c :: cs) → segLookup s.params c = none)) :
    ∃ u, t = ended i.op.code t.status.code (t.status.code.bits.setWidth 32) u ∧
      (u = s ∨ t.status.code = .invalidArgument ∧ UnknownBlink i s ∧ OnlyBlink s u) := by
  rcases exec_cases h with ⟨e, he, rfl⟩ | ⟨htest, h⟩
  · refine ⟨s, ?_, .inl rfl⟩
    rw [raise, endCommand_eq_ended (fatal_of_commandTest_some he).1, responseWord_zero]
    rfl
  have hfatal := fatal_of_commandTest htest
  have hran := ran_commandBody i s
  rcases conclude_cases h with ⟨u, -, rfl⟩ | ⟨e, u, hu, rfl⟩ | ⟨u, -, rfl⟩
  · simp [complete] at hrej
  · rw [hu] at hran
    rcases hran.code with rfl | rfl
    · simp [raise, hfatal] at hrej
    have hputs : ∀ df d c cs, i = .puts df d (c :: cs) → segLookup s.params c = none := by
      simpa [raise] using hrej
    refine ⟨u, ?_, ?_⟩
    · rw [raise, endCommand_eq_ended (Bool.or_false _), responseWord_zero]
      rfl
    · rcases commandBody_refuses hu with
        ⟨c, d, -, hus⟩ | ⟨df, d, c, cs, hi, hus⟩ | ⟨c, p, q, n, hi, hc, hblink⟩
      · exact .inl hus
      · exact .inl (hus (hputs df d c cs hi))
      · exact .inr ⟨rfl, ⟨c, p, q, n, hi, blinkLegal_of_commandTest hi htest, hc⟩, hblink⟩
  · cases hr

/-- Settles O26: a rejected command only ends, but a blink refused for its character, of which nothing that means
something shows (`exec_rejected`, `meaningful_ended_of_onlyBlink`); an illegal packet by `step_illegal`. -/
theorem rejectedCommandsHaveNoSideEffect : Obligations.RejectedCommandsHaveNoSideEffect := by
  refine ⟨fun i s t h hr hrej => ?_, fun s h ws rest r => step_illegal⟩
  obtain ⟨u, ht, rfl | ⟨hcode, hunknown, hblink⟩⟩ := exec_rejected h hr hrej
  · exact ⟨fun _ => ht, congrArg meaningful ht⟩
  · exact ⟨fun hno => absurd ⟨hcode, hunknown⟩ hno,
      (congrArg meaningful ht).trans (meaningful_ended_of_onlyBlink hblink _ _ _)⟩

end Sys2Proof.Machine
end

section
/-! SUPPORT. `FATAL` over a step: no command and no blink clears it, with the obligation about it (60_exceptions.md
R161). -/

namespace Sys2Proof.Machine

open Sys2Proof.Claims

/-! ## What runs keeps FATAL -/

theorem conclude_keeps_fatal {op : Op} {d : State → BitVec 24} {r : Result} {t : State}
    (hr : r.state.status.fatal = true) (h : conclude op d r = .next t) : t.status.fatal = true := by
  rcases conclude_cases h with ⟨u, rfl, rfl⟩ | ⟨e, u, rfl, rfl⟩ | ⟨u, rfl, rfl⟩
  · exact Bool.or_eq_true_iff.2 (.inl hr)
  · exact Bool.or_eq_true_iff.2 (.inl hr)
  · exact hr

theorem runPacket_keeps_fatal {h : Word} {ws : List Word} {s t : State} (hf : s.status.fatal = true)
    (hrun : runPacket h ws s = .next t) : t.status.fatal = true := by
  unfold runPacket at hrun
  split at hrun
  · rw [fatalRefuses _ s hf] at hrun
    injection hrun with hrun
    rw [← hrun]
    exact hf
  · injection hrun with hrun
    rw [← hrun]
    exact Bool.or_eq_true_iff.2 (.inl hf)

theorem keeps_blinkNext (n : Nat) (s : State) : SegKeeps s (blinkNext (blinkLoop n) s).state := by
  unfold blinkNext
  split
  · exact keeps_endOfCycle s
  · exact (keeps_endOfCycle s).trans (keeps_blinkLoop n _)

theorem continueBlink_keeps_fatal {s t : State} (hf : s.status.fatal = true)
    (hrun : continueBlink s = .next t) : t.status.fatal = true := by
  unfold continueBlink at hrun
  split at hrun
  · cases hrun
  · exact conclude_keeps_fatal (by rw [(keeps_blinkLoop _ s).status, hf]) hrun
  · have hkeeps := keeps_bind (K := SegKeeps) SegKeeps.trans (keeps_blinkDark s) (keeps_blinkNext (cyclesPerStep s))
    exact conclude_keeps_fatal (by rw [hkeeps.status, hf]) hrun

/-! ## A reset clears it -/

theorem raceReset_keeps_fatal {r : Option Nat} {s u : State} {o : Host.Outcome State Fault Refusal}
    (ho : ∀ t, o = .next t → t.status.fatal = true) (h : raceReset r s o = .next u) :
    u.status.fatal = true ∨ (r ≠ none ∧ AfterReset s u) := by
  rcases raceReset_cases h with ⟨v, rfl, hparams, -, hresponses, hr⟩ | ⟨t, ht, rfl | ⟨m, rfl⟩⟩
  · exact .inr ⟨hr, afterReset_resetBlock _ hresponses hparams⟩
  · exact .inl (ho _ ht)
  · exact .inl (ho t ht)

theorem mem_of_resetBehind {rest : List HostInput} (h : resetBehind rest ≠ none) : ∃ n, .reset n ∈ rest := by
  by_contra hno
  exact h (resetBehind_eq_none fun n more hrest => hno ⟨n, hrest ▸ List.mem_cons_self⟩)

theorem busyStep_keeps_fatal {s u : State} (hf : s.status.fatal = true) (h : busyStep s = .next u) :
    u.status.fatal = true ∨ ((∃ n, .reset n ∈ s.inputs) ∧ AfterReset s u) :=
  (raceReset_keeps_fatal (fun _ => continueBlink_keeps_fatal hf) h).imp_right
    (And.imp_left mem_of_nextReset)

theorem step_keeps_fatal {s t : State} (hf : s.status.fatal = true) (h : step s = .next t) :
    t.status.fatal = true ∨ ((∃ n, .reset n ∈ s.inputs) ∧ AfterReset s t) := by
  rcases step_cases h with ⟨-, -, rfl⟩ | ⟨-, d, rest, -, rfl⟩ | ⟨-, n, rest, hi, rfl⟩ |
    ⟨-, a, b, rest, hi, h⟩ | ⟨-, d, rest, hi, h⟩ | ⟨-, h⟩
  · exact .inl hf
  · exact .inl hf
  · exact .inr ⟨⟨n, hi ▸ List.mem_cons_self⟩, afterReset_resetBlock rest rfl rfl⟩
  · have hrun : ∀ u, runPacket a b (acceptPacket rest s) = .next u → u.status.fatal = true :=
      fun _ => runPacket_keeps_fatal hf
    refine (raceReset_keeps_fatal hrun h).imp_right fun ⟨hr, hafter⟩ => ⟨?_, hafter⟩
    obtain ⟨n, hn⟩ := mem_of_resetBehind hr
    exact ⟨n, hi ▸ List.mem_cons_of_mem _ hn⟩
  · refine (busyStep_keeps_fatal (s := { s with inputs := rest }) hf h).imp_right fun ⟨⟨n, hn⟩, hafter⟩ =>
      ⟨⟨n, hi ▸ List.mem_cons_of_mem _ hn⟩, hafter⟩
  · exact busyStep_keeps_fatal hf h

/-- Settles O18: the first test of every command (`fatalRefuses`), what its end writes (`statusAfterACommand`), and
the cases of a step (`step_keeps_fatal`). -/
theorem hardwareIOIsSticky : Obligations.HardwareIOIsSticky := by
  refine ⟨fun i => fatalRefuses i, fun i s t h hr hcode => ?_, fun s t => step_keeps_fatal⟩
  obtain ⟨-, hfatal, -⟩ := statusAfterACommand i s t h hr
  simp [hfatal, hcode]

end Sys2Proof.Machine
end

section
/-! SUPPORT. A reset that meets a running block, with the obligations about it (70_reset_and_hazards.md R180, R182,
R188, R190): the events a run has sent stand in front of those it goes on to send, and a blink runs alike whatever
waits at the command port. -/

namespace Sys2Proof.Machine

open Sys2Proof.Claims

/-! ## What runs only adds to the trace -/

theorem Result.Ran.trace_prefix {s : State} {r : Result} (h : r.Ran s) : s.trace <+: r.state.trace := by
  cases r with
  | ok t => obtain ⟨new, hr, -⟩ := h; exact ⟨new, hr.trace.symm⟩
  | raised e t => obtain ⟨new, hr, -⟩ := h; exact ⟨new, hr.trace.symm⟩
  | running t => obtain ⟨new, hr, -⟩ := h; exact ⟨new, hr.trace.symm⟩

theorem conclude_trace_prefix {op : Op} {d : State → BitVec 24} {r : Result} {s t : State} (hr : r.Ran s)
    (h : conclude op d r = .next t) : s.trace <+: t.trace := by
  rw [conclude_writes h]
  exact hr.trace_prefix

theorem exec_trace_prefix {i : Instr} {s t : State} (h : exec i s = .next t) : s.trace <+: t.trace := by
  obtain ⟨u, new, hran, ht, -⟩ := exec_ran h
  rw [ht]
  exact ⟨new, hran.trace.symm⟩

theorem continueBlink_trace_prefix {s t : State} (h : continueBlink s = .next t) : s.trace <+: t.trace := by
  unfold continueBlink at h
  split at h
  · cases h
  · exact conclude_trace_prefix (ran_blinkLoop _ s) h
  · exact conclude_trace_prefix
      ((ran_blinkDark s).bind (fun u _ => ran_blinkNext _ (ran_blinkLoop _) u)) h

/-! ## The two outcomes of the race

`s` runs and would arrive at `u`; the next reset is to come after `n` events. -/

section

variable {s u : State} {n : Nat} {waiting rest : List HostInput}

/-- The run emits that many events: it is abandoned behind the `n`-th. -/
theorem raceReset_abandons (hi : s.inputs = waiting ++ .reset n :: rest) (hw : nextReset waiting = none)
    (htrace : s.trace <+: u.trace) (hn : s.trace.length + n ≤ u.trace.length) :
    ∃ t, raceReset (some n) s (.next u) = .next t ∧ AfterReset s t ∧
      t.past = s.past ++ u.trace.take (s.trace.length + n) ∧ t.inputs = waiting ++ rest := by
  obtain ⟨new, hnew⟩ := htrace
  have hcut : n ≤ emittedBetween s u := by unfold emittedBetween; omega
  refine ⟨_, raceReset_cut hcut, afterReset_resetBlock _ rfl rfl, ?_, ?_⟩
  · rw [resetBlock_past, cutShort_past, cutShort_trace_of_append n hnew.symm]
  · rw [resetBlock_inputs, hi, dropReset_append hw]

/-- The run ends, or pauses, with fewer: the reset is that many events nearer. -/
theorem raceReset_waits (hi : s.inputs = waiting ++ .reset n :: rest) (hw : nextReset waiting = none)
    (htrace : s.trace <+: u.trace) (hinputs : u.inputs = s.inputs)
    (hn : u.trace.length < s.trace.length + n) :
    raceReset (some n) s (.next u) =
      .next (setInputs (waiting ++ .reset (s.trace.length + n - u.trace.length) :: rest) u) := by
  have hlength := htrace.length_le
  have hlater : emittedBetween s u < n := by unfold emittedBetween; omega
  have hleft : n - emittedBetween s u = s.trace.length + n - u.trace.length := by
    unfold emittedBetween
    omega
  rw [raceReset_later hlater, hinputs, hi, delayReset_append hw, hleft]
  rfl

end

/-- Settles O10: the reset races what the packet's command would do (`raceReset_abandons`, `raceReset_waits`). -/
theorem resetCutsACommandShort : Obligations.ResetCutsACommandShort := by
  intro s u h ws n rest i hr hi hd hexec
  have hstep : step s = raceReset (some n) (acceptPacket (.reset n :: rest) s) (.next u) := by
    rw [step_packet hr hi, runPacket_of_decode hd, ← hexec]
    rfl
  have htrace := exec_trace_prefix hexec
  obtain ⟨-, -, hinputs⟩ := (frame_exec hexec).environment
  rw [hstep]
  exact ⟨raceReset_abandons (waiting := []) rfl rfl htrace, raceReset_waits (waiting := []) rfl rfl htrace hinputs⟩

/-! ## A blink does not look at the command port (R188) -/

/-- A body's result with the inputs written. -/
def Result.setInputs (inputs : List HostInput) : Result → Result
  | .ok s => .ok (Machine.setInputs inputs s)
  | .raised e s => .raised e (Machine.setInputs inputs s)
  | .running s => .running (Machine.setInputs inputs s)

/-- A body that runs alike whatever the host does next. -/
def IgnoresInputs (f : State → Result) : Prop :=
  ∀ inputs s, f (setInputs inputs s) = (f s).setInputs inputs

theorem IgnoresInputs.bind {f g : State → Result} (hf : IgnoresInputs f) (hg : IgnoresInputs g) :
    IgnoresInputs (fun s => (f s).bind g) := by
  intro inputs s
  show (f (setInputs inputs s)).bind g = ((f s).bind g).setInputs inputs
  rw [hf inputs s]
  cases f s with
  | ok t => exact hg inputs t
  | raised e t => rfl
  | running t => rfl

theorem failedEvent_setInputs (e : Event) (inputs : List HostInput) (s : State) :
    failedEvent e (setInputs inputs s) = setInputs inputs (failedEvent e s) := by
  cases e with
  | pinDir l => cases l <;> rfl
  | pin l b => cases l <;> rfl
  | _ => rfl

theorem ignoresInputs_emit (e : Event) : IgnoresInputs (emit e) := by
  intro inputs s
  have hanswer : answerAt (setInputs inputs s) 0 = answerAt s 0 := rfl
  have hdone : doneEvent e (setInputs inputs s) = setInputs inputs (doneEvent e s) :=
    doneEvents_setInputs [e] inputs s
  rw [emit_eq, emit_eq, hanswer, hdone, failedEvent_setInputs]
  split <;> rfl

theorem ignoresInputs_emitAll (evs : List Event) : IgnoresInputs (emitAll evs) := by
  induction evs with
  | nil => exact fun _ _ => rfl
  | cons e rest ih => exact (ignoresInputs_emit e).bind ih

theorem ignoresInputs_putcSeq (c : Byte) (d : Nat) : IgnoresInputs (putcSeq c d) := by
  intro inputs s
  have hlookup : segLookup (setInputs inputs s).params c = segLookup s.params c := rfl
  unfold putcSeq
  rw [hlookup]
  cases segLookup s.params c with
  | none => rfl
  | some p => exact (ignoresInputs_emitAll (shiftEvents p)).bind (ignoresInputs_emit (.wait d)) inputs s

theorem ignoresInputs_blinkShow : IgnoresInputs blinkShow := fun inputs s =>
  ignoresInputs_putcSeq s.blChar s.blShow.toNat inputs { s with blState := .showing }

theorem ignoresInputs_blinkDark : IgnoresInputs blinkDark := fun inputs s =>
  ((ignoresInputs_emitAll clearPulse).bind (ignoresInputs_emitAll (shiftEvents 0))).bind
    (ignoresInputs_emit (.wait s.blIdle.toNat)) inputs { s with blState := .idle }

theorem endOfCycle_setInputs (inputs : List HostInput) (s : State) :
    endOfCycle (setInputs inputs s) = setInputs inputs (endOfCycle s) := by
  cases hmode : s.blMode with
  | count =>
    rw [endOfCycle_count hmode, endOfCycle_count (s := setInputs inputs s) hmode]
    rfl
  | elapsed =>
    rw [endOfCycle_elapsed hmode, endOfCycle_elapsed (s := setInputs inputs s) hmode]
    rfl

theorem IgnoresInputs.blinkNext {loop : State → Result} (h : IgnoresInputs loop) :
    IgnoresInputs (blinkNext loop) := by
  intro inputs s
  unfold Machine.blinkNext
  rw [endOfCycle_setInputs, h inputs]
  show (if (endOfCycle s).blState = .off then _ else _) = _
  split <;> rfl

theorem ignoresInputs_blinkLoop (n : Nat) : IgnoresInputs (blinkLoop n) := by
  induction n with
  | zero => exact fun _ _ => rfl
  | succ n ih => exact (ignoresInputs_blinkShow.bind ignoresInputs_blinkDark).bind ih.blinkNext

theorem conclude_setInputs {op : Op} {r : Result} {t : State} (inputs : List HostInput)
    (h : conclude op noData r = .next t) :
    conclude op noData (r.setInputs inputs) = .next (setInputs inputs t) := by
  rcases conclude_cases h with ⟨v, rfl, rfl⟩ | ⟨e, v, rfl, rfl⟩ | ⟨v, rfl, rfl⟩ <;> rfl

theorem continueBlink_setInputs {s t : State} (inputs : List HostInput) (h : continueBlink s = .next t) :
    continueBlink (setInputs inputs s) = .next (setInputs inputs t) := by
  have hstate : (setInputs inputs s).blState = s.blState := rfl
  unfold continueBlink at h ⊢
  rw [hstate]
  cases hb : s.blState with
  | off => rw [hb] at h; cases h
  | showing =>
    rw [hb] at h
    have hloop := ignoresInputs_blinkLoop (cyclesPerStep s) inputs s
    exact (congrArg (conclude (blinkOp s) noData) hloop).trans (conclude_setInputs inputs h)
  | idle =>
    rw [hb] at h
    have hdark := ignoresInputs_blinkDark.bind (ignoresInputs_blinkLoop (cyclesPerStep s)).blinkNext inputs s
    exact (congrArg (conclude (blinkOp s) noData) hdark).trans (conclude_setInputs inputs h)

/-! ## A BUSY block -/

/-- Settles O13: an idle input is dropped (`step_busy`), and going on or a reset takes no packet
(`busyStep_environment`). -/
theorem busyBlockTakesNoPacket : Obligations.BusyBlockTakesNoPacket := by
  intro s hb hblink
  obtain ⟨t, hstep⟩ := step_next_of_busy hb hblink
  obtain ⟨-, hpackets⟩ := busyStep_environment ((step_busy hb).symm.trans hstep)
  exact ⟨t, hstep, hpackets.trans (packets_behindIdle s.inputs)⟩

/-- Behind waiting packets the next input that counts is the reset. -/
theorem step_busy_reset {s : State} {waiting rest : List HostInput} {n : Nat} (hb : s.ready = false)
    (hi : s.inputs = waiting ++ .reset n :: rest) (hw : OnlyPackets waiting) :
    step s = raceReset (some n) s (continueBlink s) := by
  have hsame : setInputs (behindIdle s.inputs) s = s :=
    setInputs_self (by rw [hi, behindIdle_of_onlyPackets hw])
  rw [step_busy hb, hsame, busyStep, hi, nextReset_append (nextReset_of_onlyPackets hw)]

/-- With nothing but packets at the command port the blink goes on. -/
theorem step_busy_waiting {s : State} (hb : s.ready = false) (hw : OnlyPackets s.inputs) :
    step s = continueBlink s := by
  have hbehind : s.inputs = behindIdle s.inputs := by
    cases hi : s.inputs with
    | nil => rfl
    | cons x more =>
      obtain ⟨a, b, rfl⟩ := mem_of_onlyPackets (hi ▸ hw) List.mem_cons_self
      rfl
  rw [step_busy hb, setInputs_self hbehind, busyStep, nextReset_of_onlyPackets hw, raceReset_none]

/-- Settles O11: the blink runs as it would without the reset (`continueBlink_setInputs`), and the reset races it
(`raceReset_abandons`, `raceReset_waits`). -/
theorem resetCutsABusyBlockShort : Obligations.ResetCutsABusyBlockShort := by
  intro s u n waiting rest hb hi hw hgo
  have hfree : continueBlink (setInputs waiting s) = .next u :=
    (step_busy_waiting (s := setInputs waiting s) hb hw).symm.trans hgo
  have hblink : continueBlink s = .next (setInputs s.inputs u) :=
    continueBlink_setInputs (s := setInputs waiting s) s.inputs hfree
  have htrace := continueBlink_trace_prefix hblink
  have hnone := nextReset_of_onlyPackets hw
  rw [step_busy_reset hb hi hw, hblink]
  exact ⟨raceReset_abandons hi hnone htrace, raceReset_waits hi hnone htrace rfl⟩

/-- Settles O9: a READY block takes the reset as its next input, a BUSY one behind the packets that wait
(`step_busy_reset`); either way it is `afterReset_resetBlock`. -/
theorem resetRestoresEveryRegister : Obligations.ResetRestoresEveryRegister := by
  refine fun s => ⟨fun hr n rest hi => ?_, fun hb waiting rest hi hw => ?_⟩
  · exact ⟨resetBlock rest s, by rw [step, if_pos hr, hi], afterReset_resetBlock rest rfl rfl, rfl, rfl⟩
  · refine ⟨resetBlock (waiting ++ rest) s, ?_, afterReset_resetBlock _ rfl rfl, rfl, rfl⟩
    rw [step_busy_reset hb hi hw, raceReset_zero, hi, dropReset_append (nextReset_of_onlyPackets hw)]

end Sys2Proof.Machine
end
